-- ==== Sys2Proof/Word.lean ====
section
/-!
DEFINITION. The word types of the controller and the plainest conversions between a register and the
unbounded naturals the spec computes with (00_scope.md rules R5, R7, R9, R10).
-/

namespace Sys2Proof

/-- One byte of data (00_scope.md rule R7; PRESUMED by the spec itself, unsafe:
notes/assumptions/12.md). -/
abbrev Byte := BitVec 8

/-- A cursor, the capacity, a length or a count: `IDXW` = 16 bits (00_scope.md rule R5, fixed here,
unsafe: notes/assumptions/12.md). -/
abbrev Idx := BitVec 16

/-- A word of the command port (30_encoding.md rule R80). -/
abbrev CmdWord := BitVec 32

/-- A word of the response port (30_encoding.md rule R86). -/
abbrev RspWord := BitVec 32

/-- The register image of a natural. Under the invariants of 10_state.md rule R30 the natural always
fits, so nothing is cut (00_scope.md rule R9; DEDUCED, safe: notes/assumptions/15.md). -/
abbrev toIdx (n : Nat) : Idx := BitVec.ofNat 16 n

end Sys2Proof
end

