-- ==== Sys2Proof/Syntax.lean ====
section
/-!
DEFINITION. The sixteen commands (30_encoding.md rules R83 and R89, spec/opcode_table.json) and the
abstract command of rule R90, which adds the data operand that travels on `din`.
-/

namespace Sys2Proof

/-- A decoded command word: one constructor for each row of the opcode map (30_encoding.md rule R83),
with the operands of rule R82. `bufPresent` is the flag `BUF`, `ovw` the flag `OVW`. -/
inductive Instr where
  | construct (bufPresent ovw : Bool) (capacity : Idx)
  | reset
  | pushByte (byte : Byte)
  | pushBytes (bufPresent : Bool) (requestedLength : Idx)
  | popByte
  | popBytes (bufPresent : Bool) (requestedLength : Idx)
  | peekByte
  | peekBytes (bufPresent : Bool) (requestedLength : Idx)
  | resetPeek
  | commitPeeked
  | getPeekOffset
  | restorePeekOffset (count : Idx)
  | isEmpty
  | count
  | availableCount
  | isPeekEmpty
  deriving DecidableEq, Repr

/-- The abstract command of 30_encoding.md rule R90: a decoded command and the bytes the producer
offers on `din` with it. -/
structure Command where
  instr : Instr
  data : List Byte := []
  deriving DecidableEq, Repr

end Sys2Proof
end

