-- ==== Sys2Proof/WellFormed.lean ====
section
/-!
DEFINITION. Which abstract commands are well formed (30_encoding.md rule R90,
93_implementation_defined.md U12). A term of `Instr` has no check of its own: every operand has
exactly the width of its field in the word (30_encoding.md rule R82), so every term has an encoding.
Which WORDS are well formed (rules R81 and R84) is `Sys2Proof.wellFormedWord` in Decode.lean, beside
the opcode table it reads.
-/

namespace Sys2Proof

/-- The number of bytes the producer must offer with a command: `requested_length` for PUSH_BYTES with
its buffer present, none for every other command (30_encoding.md rule R90). -/
def Instr.dataLength : Instr → Nat
  | .construct _ _ _ => 0
  | .reset => 0
  | .pushByte _ => 0
  | .pushBytes true requestedLength => requestedLength.toNat
  | .pushBytes false _ => 0
  | .popByte => 0
  | .popBytes _ _ => 0
  | .peekByte => 0
  | .peekBytes _ _ => 0
  | .resetPeek => 0
  | .commitPeeked => 0
  | .getPeekOffset => 0
  | .restorePeekOffset _ => 0
  | .isEmpty => 0
  | .count => 0
  | .availableCount => 0
  | .isPeekEmpty => 0

/-- A command the producer can issue: it carries exactly the data its word asks for. -/
def Command.wellFormed (c : Command) : Bool :=
  c.data.length == c.instr.dataLength

end Sys2Proof
end

