-- ==== Sys2Proof/Decode.lean ====
section
/-!
DEFINITION. The fields of a command word, the opcode table, the decoder and the encoder
(30_encoding.md rules R80 to R84, R89, R91).
-/

namespace Sys2Proof

/-- Bits 31:28, the opcode (30_encoding.md rule R80). -/
def opField (w : CmdWord) : BitVec 4 := w.extractLsb' 28 4

/-- Bit 25, `OVW` (30_encoding.md rule R80). -/
def ovwField (w : CmdWord) : Bool := w.getLsbD 25

/-- Bit 24, `BUF` (30_encoding.md rule R80). -/
def bufField (w : CmdWord) : Bool := w.getLsbD 24

/-- Bits 15:0, `arg` (30_encoding.md rule R80). -/
def argField (w : CmdWord) : Idx := w.extractLsb' 0 16

/-- The low byte of `arg`, the operand of PUSH_BYTE (30_encoding.md rule R82). -/
def byteField (w : CmdWord) : Byte := w.extractLsb' 0 8

/-- The five formats (30_encoding.md rule R81). -/
inductive Format where
  | n | b | l | m | c
  deriving DecidableEq, Repr

/-- The bits a format fixes: the opcode and the must-be-zero bits (30_encoding.md rule R81). -/
def Format.mask : Format → CmdWord
  | .n => 0xFFFFFFFF#32
  | .b => 0xFFFFFF00#32
  | .l => 0xFFFF0000#32
  | .m => 0xFEFF0000#32
  | .c => 0xFCFF0000#32

/-- One row of the opcode map (30_encoding.md rule R83): its mnemonic, its format, and how a word that
matches it is read (rule R89). A row's opcode is its place in the table. -/
structure OpRow where
  mnemonic : String
  format : Format
  build : CmdWord → Instr

/-- The opcode map, row `k` for opcode `k` (30_encoding.md rules R83 and R89). -/
def opTable : List OpRow := [
  ⟨"CONSTRUCT", .c, fun w => .construct (bufField w) (ovwField w) (argField w)⟩,
  ⟨"RESET", .n, fun _ => .reset⟩,
  ⟨"PUSH_BYTE", .b, fun w => .pushByte (byteField w)⟩,
  ⟨"PUSH_BYTES", .m, fun w => .pushBytes (bufField w) (argField w)⟩,
  ⟨"POP_BYTE", .n, fun _ => .popByte⟩,
  ⟨"POP_BYTES", .m, fun w => .popBytes (bufField w) (argField w)⟩,
  ⟨"PEEK_BYTE", .n, fun _ => .peekByte⟩,
  ⟨"PEEK_BYTES", .m, fun w => .peekBytes (bufField w) (argField w)⟩,
  ⟨"RESET_PEEK", .n, fun _ => .resetPeek⟩,
  ⟨"COMMIT_PEEKED", .n, fun _ => .commitPeeked⟩,
  ⟨"GET_PEEK_OFFSET", .n, fun _ => .getPeekOffset⟩,
  ⟨"RESTORE_PEEK_OFFSET", .l, fun w => .restorePeekOffset (argField w)⟩,
  ⟨"IS_EMPTY", .n, fun _ => .isEmpty⟩,
  ⟨"COUNT", .n, fun _ => .count⟩,
  ⟨"AVAILABLE_COUNT", .n, fun _ => .availableCount⟩,
  ⟨"IS_PEEK_EMPTY", .n, fun _ => .isPeekEmpty⟩ ]

/-- The row of an opcode. All sixteen opcodes are assigned (30_encoding.md rule R85). -/
def rowOf (op : BitVec 4) : OpRow :=
  opTable.get ⟨op.toNat, op.isLt⟩

/-- The value a row's fixed bits must have, `k << 28` (30_encoding.md rule R81). -/
def matchBits (op : BitVec 4) : CmdWord := (op ++ 0#28 : BitVec (4 + 28))

/-- The word is a well-formed encoding: every bit its opcode's format fixes has its value
(30_encoding.md rule R81). -/
def wellFormedWord (w : CmdWord) : Bool :=
  w &&& (rowOf (opField w)).format.mask == matchBits (opField w)

/-- Why a word has no command (30_encoding.md rule R84): a must-be-zero bit is 1. The opcode is kept,
because the response echoes it (60_exceptions.md rule R209). -/
inductive DecodeError where
  | malformed (op : BitVec 4)
  deriving DecidableEq, Repr

/-- The decoder, total on 32-bit words (30_encoding.md rule R89). -/
def decode (w : CmdWord) : Except DecodeError Instr :=
  if wellFormedWord w then .ok ((rowOf (opField w)).build w)
  else .error (.malformed (opField w))

/-- The opcode of a command (30_encoding.md rule R83). -/
def Instr.opcode : Instr → BitVec 4
  | .construct _ _ _ => 0x0#4
  | .reset => 0x1#4
  | .pushByte _ => 0x2#4
  | .pushBytes _ _ => 0x3#4
  | .popByte => 0x4#4
  | .popBytes _ _ => 0x5#4
  | .peekByte => 0x6#4
  | .peekBytes _ _ => 0x7#4
  | .resetPeek => 0x8#4
  | .commitPeeked => 0x9#4
  | .getPeekOffset => 0xA#4
  | .restorePeekOffset _ => 0xB#4
  | .isEmpty => 0xC#4
  | .count => 0xD#4
  | .availableCount => 0xE#4
  | .isPeekEmpty => 0xF#4

/-- A command word from its fields, the must-be-zero bits 0 (30_encoding.md rule R80). -/
def packWord (op : BitVec 4) (ovw buf : Bool) (arg : Idx) : CmdWord :=
  (op ++ 0#2 ++ BitVec.ofBool ovw ++ BitVec.ofBool buf ++ 0#8 ++ arg : BitVec (4 + 2 + 1 + 1 + 8 + 16))

/-- The encoder (30_encoding.md rule R89). -/
def encode (i : Instr) : CmdWord :=
  match i with
  | .construct bufPresent ovw capacity => packWord i.opcode ovw bufPresent capacity
  | .reset => packWord i.opcode false false 0#16
  | .pushByte byte => packWord i.opcode false false (byte.setWidth 16)
  | .pushBytes bufPresent requestedLength => packWord i.opcode false bufPresent requestedLength
  | .popByte => packWord i.opcode false false 0#16
  | .popBytes bufPresent requestedLength => packWord i.opcode false bufPresent requestedLength
  | .peekByte => packWord i.opcode false false 0#16
  | .peekBytes bufPresent requestedLength => packWord i.opcode false bufPresent requestedLength
  | .resetPeek => packWord i.opcode false false 0#16
  | .commitPeeked => packWord i.opcode false false 0#16
  | .getPeekOffset => packWord i.opcode false false 0#16
  | .restorePeekOffset count => packWord i.opcode false false count
  | .isEmpty => packWord i.opcode false false 0#16
  | .count => packWord i.opcode false false 0#16
  | .availableCount => packWord i.opcode false false 0#16
  | .isPeekEmpty => packWord i.opcode false false 0#16

/-- The command word that an instruction of the opcode table stands for, its bits numbered as the table
numbers them and every bit from `nbits` up zero. A command is one word taken whole from the command
port (30_encoding.md rule R91), so there is no byte order to apply; more than 32 bits is no word. -/
def tableWord (nbits w : Nat) : Option CmdWord :=
  if w % 2 ^ nbits < 2 ^ 32 then some (BitVec.ofNat 32 (w % 2 ^ nbits)) else none

/-- What the decoder reads from an instruction of the opcode table. -/
def decodeTableWord (nbits w : Nat) : Option Instr :=
  match tableWord nbits w with
  | none => none
  | some word =>
    match decode word with
    | .ok i => some i
    | .error _ => none

end Sys2Proof
end

