-- ==== Sys2Proof/Config.lean ====
section
/-!
DEFINITION. What the spec leaves to the machine's surroundings as a free value.
-/

namespace Sys2Proof

/-- The byte a storage cell holds before the controller has written it (10_state.md rule R29 and
93_implementation_defined.md U1: any value). It has no body, so nothing can be proved of its value:
a claim that mentions it holds for every initial content of the storage. DESIGN CHOICE, safe:
notes/assumptions/3.md. -/
opaque Config.initialByte : Nat → Byte

end Sys2Proof
end

