-- ==== Sys2Proof/Machine/State.lean ====
section
/-!
DEFINITION. The machine's state: the tuple of 10_state.md rule R20, the working state of a command in
progress (rule R32), and what stands on the controller's ports (20_memory.md rule R50; rule R21 calls
these the inputs and outputs of a step, and one deterministic step function carries them in its state:
DESIGN CHOICE, safe, notes/assumptions/1.md). Everything is plain data.
-/

namespace Sys2Proof.Machine

/-- Why the machine stops. -/
inductive Fault where
  /-- A command presents the storage with a cell index that does not exist (`index ≥ C`). Raised by
  `requireCells`. 20_memory.md rules R55 and R57: no command does so in a state that meets the
  invariants. DESIGN CHOICE, safe: it claims nothing of a cell that is not there. notes/assumptions/5.md. -/
  | noSuchCell (index : Nat)
  deriving DecidableEq, Repr

/-- Why the machine has no meaning for what it is asked. -/
inductive Refusal where
  /-- An instruction whose meaning is not written yet, by its mnemonic. Raised by `exec` only; no arm
  raises it in this model. Safe. -/
  | notModelled (mnemonic : String)
  /-- An abstract command whose data list is not as long as its word asks (30_encoding.md rule R90,
  93_implementation_defined.md U12: refuse). Raised by `runCommand` only. Safe. -/
  | illFormedCommand
  deriving DecidableEq, Repr

/-- The status of a response (30_encoding.md rule R87). -/
inductive Status where
  | ok | invalidArgument | full | empty
  deriving DecidableEq, Repr

/-- The storage: the cells the controller has written, as (index, byte) pairs with rising indices. A
cell that is not listed has not been written since the storage was attached (DESIGN CHOICE, safe:
notes/assumptions/4.md). -/
abbrev Memory := List Host.Cell

/-- One access on the storage port (20_memory.md rule R64): `mem_we`, `mem_addr`, and the byte written
or read. -/
structure Access where
  we : Bool
  addr : Idx
  data : Byte
  deriving DecidableEq, Repr

/-- The five cursor registers (10_state.md rules R22 to R25), as one record for the helper functions
that compute new values of all five. -/
structure Cursors where
  head : Idx
  tail : Idx
  length : Idx
  peekCursor : Idx
  peekLength : Idx
  deriving DecidableEq, Repr

/-- A contiguous run of cells (40_common_datapath.md rule R113). -/
structure Segment where
  start : Nat
  count : Nat
  deriving DecidableEq, Repr

/-- Which way a bulk command moves bytes: from `din` into the storage, or from the storage to `dout`. -/
inductive Direction where
  | toStorage | fromStorage
  deriving DecidableEq, Repr

/-- The working state of a bulk command in progress (10_state.md rule R32): the decoded command, the
counts `n` and `e`, the segment list, the beat counter, the number of storage accesses performed, and
the working copies of the cursors, as they will be committed. -/
structure Work where
  cmd : Instr
  direction : Direction
  n : Nat
  e : Nat
  segments : List Segment
  beat : Nat
  accesses : Nat
  cursors : Cursors
  deriving DecidableEq, Repr

/-- The state. The first nine fields are the tuple of 10_state.md rule R20. `work` is rule R32. `rst`,
`cmds`, `din`, `rspReady` and `doutLimit` are what the host drives on the ports; `rsp`, `rspLog`,
`dout` and `trace` are what the controller has put on them (20_memory.md rules R50, R64, R66, R67). -/
structure State where
  /-- A Construct has succeeded since the last hardware reset (10_state.md rule R26). -/
  constructed : Bool
  /-- `C` (10_state.md rule R26). -/
  capacity : Idx
  /-- Evict the oldest bytes when full, instead of rejecting (10_state.md rule R26). -/
  overwriteEnabled : Bool
  /-- Read cursor (10_state.md rule R22). -/
  head : Idx
  /-- Write cursor (10_state.md rule R23). -/
  tail : Idx
  /-- Number of unconsumed bytes (10_state.md rule R24). -/
  length : Idx
  /-- Look-ahead cursor (10_state.md rule R25). -/
  peekCursor : Idx
  /-- Bytes remaining in the peek window (10_state.md rule R25). -/
  peekLength : Idx
  /-- The storage cells (10_state.md rule R29). -/
  storage : Memory
  /-- The command in progress, if one waits for a stream (10_state.md rule R32). -/
  work : Option Work
  /-- `rst` as it is sampled (70_reset_and_hazards.md rule R230). -/
  rst : Bool
  /-- The command words the host will still present, the next first (10_state.md rule R27). -/
  cmds : List CmdWord
  /-- The bytes the producer offers on `din`, the next first; it withholds what is not listed. -/
  din : List Byte
  /-- The host takes a waiting response (`rsp_ready`). -/
  rspReady : Bool
  /-- How many more bytes the consumer takes from `dout`; `none`: every byte. -/
  doutLimit : Option Nat
  /-- The response the controller offers and the host has not taken (20_memory.md rule R61). -/
  rsp : Option RspWord
  /-- The responses the host has taken, oldest first. -/
  rspLog : List RspWord
  /-- The bytes the consumer has taken from `dout`, oldest first (20_memory.md rule R67). -/
  dout : List Byte
  /-- The accesses performed on the storage port, oldest first (20_memory.md rule R60). -/
  trace : List Access
  deriving DecidableEq, Repr

/-- The machine right after hardware reset (10_state.md rule R33): every register 0, nothing in
progress, a storage that has not been written. On the ports `rst` is released, the host has presented
nothing yet and will take what it is given (DESIGN CHOICE, unsafe: notes/assumptions/6.md). -/
def State.reset : State where
  constructed := false
  capacity := 0#16
  overwriteEnabled := false
  head := 0#16
  tail := 0#16
  length := 0#16
  peekCursor := 0#16
  peekLength := 0#16
  storage := []
  work := none
  rst := false
  cmds := []
  din := []
  rspReady := true
  doutLimit := none
  rsp := none
  rspLog := []
  dout := []
  trace := []

end Sys2Proof.Machine
end

