-- ==== Sys2Proof/Machine/Flags.lean ====
section
/-!
DEFINITION. The full, empty and free tests (40_common_datapath.md rule R112) and the status outputs
(10_state.md rule R28). The controller has no stored flags: each of these is a function of the
registers.
-/

namespace Sys2Proof.Machine

/-- `is_empty` (40_common_datapath.md rule R112). -/
def State.isEmpty (s : State) : Bool := s.length == 0#16

/-- `is_full`, in the form the source writes it (40_common_datapath.md rule R112). -/
def State.isFull (s : State) : Bool := s.head == s.tail && s.length != 0#16

/-- `is_peek_empty` (40_common_datapath.md rule R112). -/
def State.isPeekEmpty (s : State) : Bool := s.peekLength == 0#16

/-- `free`, the room for a push (40_common_datapath.md rule R112). -/
def State.free (s : State) : Nat := s.capacity.toNat - s.length.toNat

/-- The peek offset: the bytes peeked and not committed (44_peek.md rule R174). -/
def State.peekOffset (s : State) : Nat := s.length.toNat - s.peekLength.toNat

/-- Status output `st_constructed` (10_state.md rule R28). -/
def State.stConstructed (s : State) : Bool := s.constructed

/-- Status output `st_empty` (10_state.md rule R28). -/
def State.stEmpty (s : State) : Bool := s.isEmpty

/-- Status output `st_full`, gated by `constructed` (10_state.md rule R28). -/
def State.stFull (s : State) : Bool := s.constructed && s.length == s.capacity

/-- Status output `st_peek_empty` (10_state.md rule R28). -/
def State.stPeekEmpty (s : State) : Bool := s.isPeekEmpty

/-- Status output `st_count` (10_state.md rule R28). -/
def State.stCount (s : State) : Idx := s.length

/-- Status output `st_avail` (10_state.md rule R28). -/
def State.stAvail (s : State) : Idx := toIdx s.free

end Sys2Proof.Machine
end

