-- ==== Sys2Proof/Machine/Operands.lean ====
section
/-!
DEFINITION. How a command's operands become the values its rule computes with, and how a result
becomes the `value` of its response (30_encoding.md rules R82, R86, R87, R88). Nothing is
sign-extended, scaled or shifted.
-/

namespace Sys2Proof.Machine

/-- A requested length cut to what there is: the whole buffer for a push, the valid window for a pop,
the peek window for a peek (42_push.md rule R141, 43_pop.md rule R161, 44_peek.md rule R171). -/
def clampRequest (requestedLength limit : Idx) : Nat :=
  min requestedLength.toNat limit.toNat

/-- A byte as the value of a response, `zext_16` (30_encoding.md rule R88). -/
def byteValue (b : Byte) : Idx := b.setWidth 16

/-- A truth value as the value of a response (30_encoding.md rule R88). -/
def boolValue (b : Bool) : Idx := if b then 1#16 else 0#16

/-- The code of a status (30_encoding.md rule R87). -/
def Status.code : Status → BitVec 2
  | .ok => 0#2
  | .invalidArgument => 1#2
  | .full => 2#2
  | .empty => 3#2

/-- The response word: the opcode echoed, the status, ten zero bits, the value
(30_encoding.md rule R86). -/
def responseWord (op : BitVec 4) (status : Status) (value : Idx) : RspWord :=
  (op ++ status.code ++ 0#10 ++ value : BitVec (4 + 2 + 10 + 16))

end Sys2Proof.Machine
end

