-- ==== Sys2Proof/Machine/Ops.lean ====
section
/-!
DEFINITION. The named operations over the storage and the registers that the command rules share
(40_common_datapath.md), the copy engine that carries a bulk command over the streams (20_memory.md
rules R60 to R68), the response that ends every command (00_scope.md rule R13), and the hardware reset
(70_reset_and_hazards.md rule R230). A non-OK response is all the exception entry this machine has
(60_exceptions.md rules R206 and R212): `State.respond` is that one shared operation, and there is no
return from it.
-/

namespace Sys2Proof.Machine

/-! ## The storage -/

/-- The byte last written to a cell, if the cell has been written. -/
def Memory.read? : Memory → Nat → Option Byte
  | [], _ => none
  | (a', b) :: m, a => if a = a' then some b else Memory.read? m a

/-- Store a byte in a cell, keeping the indices rising. -/
def Memory.write : Memory → Nat → Byte → Memory
  | [], a, b => [(a, b)]
  | (a', b') :: m, a, b =>
    if a < a' then (a, b) :: (a', b') :: m
    else if a = a' then (a, b) :: m
    else (a', b') :: Memory.write m a b

/-- The canonical form: strictly rising indices. An unlisted cell has no known byte, so no entry can
equal what an unlisted cell holds (DESIGN CHOICE, safe: notes/assumptions/4.md). -/
abbrev Memory.wf (m : Memory) : Prop := m.Pairwise (fun x y => x.1 < y.1)

/-- `MemRead(i, 1)` (00_scope.md rule R12): the byte in cell `i`, which is a free value if the
controller has not written it (10_state.md rule R35). -/
def State.memRead (s : State) (i : Nat) : Byte :=
  (s.storage.read? i).getD (Config.initialByte i)

/-- `MemWrite(i, 1, b)` (00_scope.md rule R12), one write access on the storage port
(20_memory.md rule R64). -/
def State.memWrite (s : State) (i : Nat) (b : Byte) : State :=
  { s with storage := s.storage.write i b, trace := s.trace ++ [⟨true, toIdx i, b⟩] }

/-- Write a run of bytes, in the order given (20_memory.md rule R60). -/
def State.writeCells : List (Nat × Byte) → State → State
  | [], s => s
  | (i, b) :: rest, s => State.writeCells rest (s.memWrite i b)

/-- Perform read accesses on the storage port, in the order given (20_memory.md rule R60). A read
changes no cell (rule R54); it stands in the trace. -/
def State.readCells (s : State) (cells : List Nat) : State :=
  { s with trace := s.trace ++ cells.map (fun i => ⟨false, toIdx i, s.memRead i⟩) }

/-- Go on only if every cell exists, that is, has an index below `C` (20_memory.md rules R55 and R57). -/
def requireCells (cells : List Nat) (s : State) (next : Host.Outcome State Fault Refusal) :
    Host.Outcome State Fault Refusal :=
  match cells.find? (fun i => !decide (i < s.capacity.toNat)) with
  | some i => .fault (.noSuchCell i)
  | none => next

/-! ## Wraparound, distance, segments -/

/-- `wrap(v)` (40_common_datapath.md rule R110). -/
def wrap (C v : Nat) : Nat := if C ≤ v then v - C else v

/-- `dist(a, b)`, the circular distance from `a` to `b` (40_common_datapath.md rule R111). No command
uses it. -/
def dist (C a b : Nat) : Nat := if a ≤ b then b - a else C - a + b

/-- `segments(base, n)`: no copy, one contiguous copy, or a split copy
(40_common_datapath.md rule R114). -/
def segments (C base n : Nat) : List Segment :=
  if n = 0 then []
  else if base + n ≤ C then [⟨base, n⟩]
  else [⟨base, C - base⟩, ⟨0, n - (C - base)⟩]

/-- The cells of a segment in ascending order (40_common_datapath.md rule R113). -/
def Segment.cells (g : Segment) : List Nat := (List.range g.count).map (fun j => g.start + j)

/-- The cells of a segment list, in the order the copy procedures visit them
(40_common_datapath.md rule R115). -/
def segmentCells (gs : List Segment) : List Nat := gs.flatMap Segment.cells

/-! ## The registers -/

/-- The five cursors. -/
def State.cursors (s : State) : Cursors :=
  ⟨s.head, s.tail, s.length, s.peekCursor, s.peekLength⟩

/-- Write the five cursors, all at once: the commit edge (20_memory.md rule R62). -/
def State.withCursors (s : State) (c : Cursors) : State :=
  { s with
    head := c.head, tail := c.tail, length := c.length,
    peekCursor := c.peekCursor, peekLength := c.peekLength }

/-- The cursors as a numbered file, `x[0]` to `x[4]` (00_scope.md rule R11). -/
def State.x (s : State) : Fin 5 → Idx
  | 0 => s.head
  | 1 => s.tail
  | 2 => s.length
  | 3 => s.peekCursor
  | 4 => s.peekLength

/-- All cursors zero (41_lifecycle.md rules R130 and R131). -/
def Cursors.zero : Cursors := ⟨0#16, 0#16, 0#16, 0#16, 0#16⟩

/-- `resync_peek()` (40_common_datapath.md rule R118). -/
def Cursors.resyncPeek (c : Cursors) : Cursors :=
  { c with peekCursor := c.head, peekLength := c.length }

/-- Advance `head` over `n` bytes and take them off `length` (40_common_datapath.md rule R117,
43_pop.md rules R160 and R161). -/
def Cursors.dropFront (C n : Nat) (c : Cursors) : Cursors :=
  { c with head := toIdx (wrap C (c.head.toNat + n)), length := toIdx (c.length.toNat - n) }

/-- `evict(e)` (40_common_datapath.md rule R117). -/
def Cursors.evict (C e : Nat) (c : Cursors) : Cursors :=
  if 0 < e then (c.dropFront C e).resyncPeek else c

/-- The cursor updates of a push of `n` bytes (42_push.md rules R140 and R141). -/
def Cursors.pushed (C n : Nat) (c : Cursors) : Cursors :=
  { c with
    tail := toIdx (wrap C (c.tail.toNat + n)),
    length := toIdx (c.length.toNat + n),
    peekLength := toIdx (c.peekLength.toNat + n) }

/-- The cursor updates of a pop of `n` bytes (43_pop.md rules R160 and R161). -/
def Cursors.popped (C n : Nat) (c : Cursors) : Cursors := (c.dropFront C n).resyncPeek

/-- The cursor updates of a peek of `n` bytes (44_peek.md rules R170 and R171). -/
def Cursors.peeked (C n : Nat) (c : Cursors) : Cursors :=
  { c with
    peekCursor := toIdx (wrap C (c.peekCursor.toNat + n)),
    peekLength := toIdx (c.peekLength.toNat - n) }

/-- `arbitrate(req)`: how many bytes to write, and how many of the oldest to evict first
(40_common_datapath.md rule R116). -/
def State.arbitrate (s : State) (req : Nat) : Nat × Nat :=
  if req ≤ s.free then (req, 0)
  else if s.overwriteEnabled then (req, req - s.free)
  else (s.free, 0)

/-! ## Responses -/

/-- `respond(S, v)` (00_scope.md rule R13): offer the response word, with the opcode echoed. -/
def State.respond (s : State) (op : BitVec 4) (status : Status) (value : Idx) : State :=
  { s with rsp := some (responseWord op status value) }

/-- End a command with `OK` and a value. -/
def respondOk (op : BitVec 4) (value : Idx) (s : State) : Host.Outcome State Fault Refusal :=
  .next (s.respond op .ok value)

/-- `raise <E>`: end a command with a non-OK status, value 0, and no other effect (00_scope.md rule R13,
60_exceptions.md rules R206 and R207). -/
def reject (op : BitVec 4) (status : Status) (s : State) : Host.Outcome State Fault Refusal :=
  .next (s.respond op status 0#16)

/-- The second check of every command but CONSTRUCT: `INVALID_ARGUMENT` while nothing is constructed
(60_exceptions.md rules R208 and R210). -/
def whenConstructed (op : BitVec 4) (s : State) (next : Host.Outcome State Fault Refusal) :
    Host.Outcome State Fault Refusal :=
  if s.constructed then next else reject op .invalidArgument s

/-- The third check of the commands that take a buffer: `INVALID_ARGUMENT` when it is absent
(60_exceptions.md rule R208). -/
def whenBuffer (op : BitVec 4) (bufPresent : Bool) (s : State)
    (next : Host.Outcome State Fault Refusal) : Host.Outcome State Fault Refusal :=
  if bufPresent then next else reject op .invalidArgument s

/-! ## The copy engine -/

/-- The cells a bulk command visits, in order. -/
def Work.cells (w : Work) : List Nat := segmentCells w.segments

/-- A bulk command that has passed its checks, before its first beat (20_memory.md rule R68, step 2). -/
def Work.start (cmd : Instr) (direction : Direction) (C base n e : Nat) (cursors : Cursors) : Work :=
  { cmd, direction, n, e, segments := Machine.segments C base n, beat := 0, accesses := 0, cursors }

/-- How many beats the streams allow now: what the producer offers on `din`, what the consumer takes
from `dout`, and never more than the command has left (20_memory.md rules R66 and R67). -/
def Work.beatsNow (w : Work) (s : State) : Nat :=
  match w.direction with
  | .toStorage => min (w.n - w.beat) s.din.length
  | .fromStorage =>
    match s.doutLimit with
    | none => w.n - w.beat
    | some k => min (w.n - w.beat) k

/-- The working state after `m` more beats. Going into the storage, each beat taken from `din` has been
written (DESIGN CHOICE, unsafe: notes/assumptions/10.md). Going to `dout`, the byte being offered has been
read although it is not taken yet (20_memory.md rule R67; DEDUCED, unsafe: notes/assumptions/9.md). -/
def Work.afterBeats (w : Work) (m : Nat) : Work :=
  match w.direction with
  | .toStorage => { w with beat := w.beat + m, accesses := w.beat + m }
  | .fromStorage => { w with beat := w.beat + m, accesses := min w.n (w.beat + m + 1) }

/-- The storage and the streams after `m` more beats (40_common_datapath.md rule R115; the order is
that of 20_memory.md rule R60). No register changes (20_memory.md rule R62). -/
def Work.moveBytes (w : Work) (m : Nat) (s : State) : State :=
  match w.direction with
  | .toStorage =>
    { State.writeCells (((w.cells.drop w.beat).take m).zip (s.din.take m)) s with
      din := s.din.drop m }
  | .fromStorage =>
    { s.readCells ((w.cells.drop w.accesses).take ((w.afterBeats m).accesses - w.accesses)) with
      dout := s.dout ++ ((w.cells.drop w.beat).take m).map s.memRead,
      doutLimit := s.doutLimit.map (fun k => k - m) }

/-- The end of a bulk command: the commit edge and the response (20_memory.md rules R62 and R68). -/
def Work.commit (w : Work) (s : State) : State :=
  ({ s.withCursors w.cursors with work := none }).respond w.cmd.opcode .ok (toIdx w.n)

/-- Carry a bulk command on as far as the streams allow. If its last beat is done it commits and
responds; otherwise it stays in progress, with the registers as they were before it
(70_reset_and_hazards.md rule R244). -/
def advance (w : Work) (s : State) : Host.Outcome State Fault Refusal :=
  let m := w.beatsNow s
  let w' := w.afterBeats m
  let s' := w.moveBytes m s
  requireCells w.cells s
    (if w'.beat = w.n then .next (w.commit s') else .next { s' with work := some w' })

/-! ## Hardware reset -/

/-- An edge with `rst == 1` (70_reset_and_hazards.md rule R230, 10_state.md rule R33): every register at
its reset value, a command in progress and an untaken response discarded, the storage kept. The edge falls
between two steps (DESIGN CHOICE, unsafe: notes/assumptions/11.md). -/
def State.hardwareReset (s : State) : State :=
  { s.withCursors Cursors.zero with
    constructed := false, capacity := 0#16, overwriteEnabled := false, work := none, rsp := none }

end Sys2Proof.Machine
end

