-- ==== Sys2Proof/Machine/Lifecycle.lean ====
section
/-!
DEFINITION. CONSTRUCT and RESET (41_lifecycle.md).
-/

namespace Sys2Proof.Machine

/-- CONSTRUCT (41_lifecycle.md rule R130): the only command that does not check `constructed`; a success
on a constructed controller is a new construction. -/
def execConstruct (bufPresent ovw : Bool) (capacity : Idx) (s : State) :
    Host.Outcome State Fault Refusal :=
  let op := (Instr.construct bufPresent ovw capacity).opcode
  whenBuffer op bufPresent s
    (if capacity = 0#16 then reject op .invalidArgument s
     else
      respondOk op 0#16
        { s.withCursors Cursors.zero with constructed := true, capacity, overwriteEnabled := ovw })

/-- RESET (41_lifecycle.md rule R131). -/
def execReset (s : State) : Host.Outcome State Fault Refusal :=
  let op := Instr.reset.opcode
  whenConstructed op s (respondOk op 0#16 (s.withCursors Cursors.zero))

end Sys2Proof.Machine
end

