-- ==== Sys2Proof/Machine/Peek.lean ====
section
/-!
DEFINITION. The peek tracker: PEEK_BYTE, PEEK_BYTES, RESET_PEEK, COMMIT_PEEKED, GET_PEEK_OFFSET and
RESTORE_PEEK_OFFSET (44_peek.md).
-/

namespace Sys2Proof.Machine

/-- PEEK_BYTE (44_peek.md rule R170). -/
def execPeekByte (s : State) : Host.Outcome State Fault Refusal :=
  let op := Instr.peekByte.opcode
  whenConstructed op s
    (if s.isPeekEmpty then reject op .empty s
     else
      requireCells [s.peekCursor.toNat] s
        (respondOk op (byteValue (s.memRead s.peekCursor.toNat))
          ((s.readCells [s.peekCursor.toNat]).withCursors (s.cursors.peeked s.capacity.toNat 1))))

/-- What PEEK_BYTES is going to do on a peek window that is not empty (44_peek.md rule R171). -/
def planPeekBytes (requestedLength : Idx) (s : State) : Work :=
  let C := s.capacity.toNat
  let n := clampRequest requestedLength s.peekLength
  Work.start (.peekBytes true requestedLength) .fromStorage C s.peekCursor.toNat n 0
    (s.cursors.peeked C n)

/-- PEEK_BYTES (44_peek.md rule R171). -/
def execPeekBytes (bufPresent : Bool) (requestedLength : Idx) (s : State) :
    Host.Outcome State Fault Refusal :=
  let op := (Instr.peekBytes bufPresent requestedLength).opcode
  whenConstructed op s
    (whenBuffer op bufPresent s
      (if s.isPeekEmpty then respondOk op 0#16 s
       else advance (planPeekBytes requestedLength s) s))

/-- RESET_PEEK, the rollback (44_peek.md rule R172). -/
def execResetPeek (s : State) : Host.Outcome State Fault Refusal :=
  let op := Instr.resetPeek.opcode
  whenConstructed op s (respondOk op 0#16 (s.withCursors s.cursors.resyncPeek))

/-- COMMIT_PEEKED, also named GET_ALL_PEEKED (44_peek.md rule R173, 30_encoding.md rule R93). -/
def execCommitPeeked (s : State) : Host.Outcome State Fault Refusal :=
  let op := Instr.commitPeeked.opcode
  whenConstructed op s
    (respondOk op 0#16 { s with head := s.peekCursor, length := s.peekLength })

/-- GET_PEEK_OFFSET, the checkpoint: always `length - peek_length`, so `C` on a full queue that has been
peeked entirely (44_peek.md rule R174, 90_conflicts.md C3). -/
def execGetPeekOffset (s : State) : Host.Outcome State Fault Refusal :=
  let op := Instr.getPeekOffset.opcode
  whenConstructed op s (respondOk op (toIdx s.peekOffset) s)

/-- RESTORE_PEEK_OFFSET (44_peek.md rule R175). -/
def execRestorePeekOffset (count : Idx) (s : State) : Host.Outcome State Fault Refusal :=
  let op := (Instr.restorePeekOffset count).opcode
  whenConstructed op s
    (if s.length.toNat < count.toNat then reject op .invalidArgument s
     else
      respondOk op 0#16
        { s with
          peekCursor := toIdx (wrap s.capacity.toNat (s.head.toNat + count.toNat)),
          peekLength := toIdx (s.length.toNat - count.toNat) })

end Sys2Proof.Machine
end

