-- ==== Sys2Proof/Machine/Pop.lean ====
section
/-!
DEFINITION. POP_BYTE and POP_BYTES (43_pop.md).
-/

namespace Sys2Proof.Machine

/-- POP_BYTE (43_pop.md rule R160). -/
def execPopByte (s : State) : Host.Outcome State Fault Refusal :=
  let op := Instr.popByte.opcode
  whenConstructed op s
    (if s.isEmpty then reject op .empty s
     else
      requireCells [s.head.toNat] s
        (respondOk op (byteValue (s.memRead s.head.toNat))
          ((s.readCells [s.head.toNat]).withCursors (s.cursors.popped s.capacity.toNat 1))))

/-- What POP_BYTES is going to do on a queue that is not empty (43_pop.md rule R161). -/
def planPopBytes (requestedLength : Idx) (s : State) : Work :=
  let C := s.capacity.toNat
  let n := clampRequest requestedLength s.length
  Work.start (.popBytes true requestedLength) .fromStorage C s.head.toNat n 0 (s.cursors.popped C n)

/-- POP_BYTES (43_pop.md rule R161). An empty queue answers `OK 0` with no state change; a zero request
on a queue that is not empty still resynchronises the peek window. -/
def execPopBytes (bufPresent : Bool) (requestedLength : Idx) (s : State) :
    Host.Outcome State Fault Refusal :=
  let op := (Instr.popBytes bufPresent requestedLength).opcode
  whenConstructed op s
    (whenBuffer op bufPresent s
      (if s.isEmpty then respondOk op 0#16 s else advance (planPopBytes requestedLength s) s))

end Sys2Proof.Machine
end

