-- ==== Sys2Proof/Machine/Push.lean ====
section
/-!
DEFINITION. PUSH_BYTE and PUSH_BYTES (42_push.md).
-/

namespace Sys2Proof.Machine

/-- PUSH_BYTE (42_push.md rule R140). -/
def execPushByte (byte : Byte) (s : State) : Host.Outcome State Fault Refusal :=
  let op := (Instr.pushByte byte).opcode
  let C := s.capacity.toNat
  let c := if s.isFull then s.cursors.evict C 1 else s.cursors
  whenConstructed op s
    (if s.isFull && !s.overwriteEnabled then reject op .full s
     else
      requireCells [c.tail.toNat] s
        (respondOk op 1#16 ((s.memWrite c.tail.toNat byte).withCursors (c.pushed C 1))))

/-- What PUSH_BYTES is going to do, once its checks have passed: the request clamped to the whole buffer,
the arbiter's counts, the copy from `tail`, and the cursors it will commit (42_push.md rule R141). -/
def planPushBytes (requestedLength : Idx) (s : State) : Work :=
  let C := s.capacity.toNat
  let p := s.arbitrate (clampRequest requestedLength s.capacity)
  Work.start (.pushBytes true requestedLength) .toStorage C s.tail.toNat p.1 p.2
    ((s.cursors.evict C p.2).pushed C p.1)

/-- PUSH_BYTES (42_push.md rule R141). The data operand is what the producer offers on `din`. -/
def execPushBytes (bufPresent : Bool) (requestedLength : Idx) (s : State) :
    Host.Outcome State Fault Refusal :=
  let op := (Instr.pushBytes bufPresent requestedLength).opcode
  whenConstructed op s (whenBuffer op bufPresent s (advance (planPushBytes requestedLength s) s))

end Sys2Proof.Machine
end

