-- ==== Sys2Proof/Machine/Query.lean ====
section
/-!
DEFINITION. IS_EMPTY, COUNT, AVAILABLE_COUNT and IS_PEEK_EMPTY (45_query.md).
-/

namespace Sys2Proof.Machine

/-- IS_EMPTY (45_query.md rule R190). -/
def execIsEmpty (s : State) : Host.Outcome State Fault Refusal :=
  let op := Instr.isEmpty.opcode
  whenConstructed op s (respondOk op (boolValue s.isEmpty) s)

/-- COUNT (45_query.md rule R191). -/
def execCount (s : State) : Host.Outcome State Fault Refusal :=
  let op := Instr.count.opcode
  whenConstructed op s (respondOk op s.length s)

/-- AVAILABLE_COUNT: the free space, whatever the overwrite policy (45_query.md rule R192). -/
def execAvailableCount (s : State) : Host.Outcome State Fault Refusal :=
  let op := Instr.availableCount.opcode
  whenConstructed op s (respondOk op (toIdx s.free) s)

/-- IS_PEEK_EMPTY (45_query.md rule R193). -/
def execIsPeekEmpty (s : State) : Host.Outcome State Fault Refusal :=
  let op := Instr.isPeekEmpty.opcode
  whenConstructed op s (respondOk op (boolValue s.isPeekEmpty) s)

end Sys2Proof.Machine
end

