-- ==== Sys2Proof/Machine/Dispatch.lean ====
section
/-! DEFINITION. One arm for each command of the opcode map (30_encoding.md rule R83). -/

namespace Sys2Proof.Machine

-- a well-formed command, accepted in the state it finds
def exec (i : Instr) (s : State) : Host.Outcome State Fault Refusal :=
  match i with
  -- 41_lifecycle.md
  | .construct bufPresent ovw capacity => Sys2Proof.Machine.execConstruct bufPresent ovw capacity s
  | .reset => Sys2Proof.Machine.execReset s
  -- 42_push.md
  | .pushByte byte => Sys2Proof.Machine.execPushByte byte s
  | .pushBytes bufPresent requestedLength => Sys2Proof.Machine.execPushBytes bufPresent requestedLength s
  -- 43_pop.md
  | .popByte => Sys2Proof.Machine.execPopByte s
  | .popBytes bufPresent requestedLength => Sys2Proof.Machine.execPopBytes bufPresent requestedLength s
  -- 44_peek.md
  | .peekByte => Sys2Proof.Machine.execPeekByte s
  | .peekBytes bufPresent requestedLength => Sys2Proof.Machine.execPeekBytes bufPresent requestedLength s
  | .resetPeek => Sys2Proof.Machine.execResetPeek s
  | .commitPeeked => Sys2Proof.Machine.execCommitPeeked s
  | .getPeekOffset => Sys2Proof.Machine.execGetPeekOffset s
  | .restorePeekOffset count => Sys2Proof.Machine.execRestorePeekOffset count s
  -- 45_query.md
  | .isEmpty => Sys2Proof.Machine.execIsEmpty s
  | .count => Sys2Proof.Machine.execCount s
  | .availableCount => Sys2Proof.Machine.execAvailableCount s
  | .isPeekEmpty => Sys2Proof.Machine.execIsPeekEmpty s

end Sys2Proof.Machine
end

