-- ==== Sys2Proof/Machine/Ports.lean ====
section
/-!
DEFINITION. The controller seen from its ports (20_memory.md rule R50): what it drives between two
steps, how it takes a command word, how a waiting response is taken, and how a command in progress is
resumed (rules R61, R66, R67, R68).
-/

namespace Sys2Proof.Machine

/-- `cmd_ready`: nothing in progress, no response waiting, not in reset (20_memory.md rule R61,
70_reset_and_hazards.md rule R230). -/
def State.cmdReady (s : State) : Bool := !s.rst && s.work.isNone && s.rsp.isNone

/-- `cmd_valid` and `cmd_word`: the word the host offers. -/
def State.cmdOffered (s : State) : Option CmdWord := s.cmds.head?

/-- `rsp_valid` and `rsp_word` (20_memory.md rule R50, 70_reset_and_hazards.md rule R230). -/
def State.rspOffered (s : State) : Option RspWord := if s.rst then none else s.rsp

/-- `din_ready`: a PUSH_BYTES in progress waits for a byte (20_memory.md rule R66). -/
def State.dinReady (s : State) : Bool :=
  !s.rst && (s.work.elim false fun w => w.direction == .toStorage)

/-- `dout_valid` and `dout_data`: the byte a POP_BYTES or PEEK_BYTES in progress offers
(20_memory.md rule R67). -/
def State.doutOffered (s : State) : Option Byte :=
  if s.rst then none
  else s.work.bind fun w =>
    if w.direction = .fromStorage then (w.cells[w.beat]?).map s.memRead else none

/-- `mem_rdata`: the byte of the latest access, if that was a read (20_memory.md rule R64). -/
def State.memRdata (s : State) : Option Byte :=
  s.trace.getLast?.bind fun a => if a.we then none else some a.data

/-- A response is waiting and the host does not take it (70_reset_and_hazards.md rule R244). -/
def State.responseHeld (s : State) : Bool := s.rsp.isSome && !s.rspReady

/-- The host takes the response that is waiting, if there is one (20_memory.md rule R61). -/
def State.takeResponse (s : State) : State :=
  { s with rsp := none, rspLog := s.rspLog ++ s.rsp.toList }

/-- Run an accepted command word: a well-formed word is its command, a malformed one is answered with
`INVALID_ARGUMENT`, its opcode echoed, and changes nothing (30_encoding.md rule R84, 60_exceptions.md
rule R209). -/
def runWord (word : CmdWord) (s : State) : Host.Outcome State Fault Refusal :=
  match decode word with
  | .ok i => exec i s
  | .error (.malformed op) => reject op .invalidArgument s

/-- Accept the command word the host offers and run it; with no word offered the controller is idle and
holds its state (20_memory.md rule R61, 60_exceptions.md rule R216). -/
def acceptCommand (s : State) : Host.Outcome State Fault Refusal :=
  match s.cmds with
  | [] => .next s
  | word :: rest => runWord word { s with cmds := rest }

/-- What happens between two moves of the host. Hardware reset goes before everything else; then a
command in progress goes on as far as the streams allow; then a response the host does not take holds
everything up; otherwise the response is taken and the next command word is accepted
(20_memory.md rules R61 and R68, 70_reset_and_hazards.md rules R230 and R244). That the response is taken
at the beginning of the next step is a DESIGN CHOICE, safe: notes/assumptions/8.md. -/
def stepPorts (s : State) : Host.Outcome State Fault Refusal :=
  if s.rst then .next s.hardwareReset
  else
    match s.work with
    | some w => advance w s
    | none => if s.responseHeld then .next s else acceptCommand s.takeResponse

/-- Offer one command word next, on a controller that will take it: no reset, nothing in progress, no
response waiting. -/
def State.offerWord (s : State) (word : CmdWord) : State :=
  { s with rst := false, work := none, rsp := none, cmds := word :: s.cmds }

end Sys2Proof.Machine
end

