-- ==== Sys2Proof/Machine/Step.lean ====
section
/-! DEFINITION. The step, and how an instruction is placed where the step takes it. -/

namespace Sys2Proof.Machine

/-- One step: one command as one atomic step (20_memory.md rule R63), as far as the host's streams let
it go (DEDUCED, safe: notes/assumptions/2.md). -/
def step (s : State) : Host.Outcome State Fault Refusal := stepPorts s

/-- `s` with the instruction of the opcode table offered on the command port, so that the very next step
accepts and runs exactly it (DEDUCED, safe: notes/assumptions/7.md). Bits that make no 32-bit word are not offered. -/
def State.withFetchWord (s : State) (nbits w : Nat) : State :=
  match tableWord nbits w with
  | none => s
  | some word => s.offerWord word

end Sys2Proof.Machine
end

