-- ==== Sys2Proof/Machine/Env.lean ====
section
/-!
DEFINITION. The host: the two contexts that drive the ports (10_state.md rule R35, 60_exceptions.md
rule R215). What they can do to the ports between two steps, and a program of abstract commands
(10_state.md rule R27, 30_encoding.md rule R90). Nothing here touches the storage
(70_reset_and_hazards.md rule R243; DEDUCED, unsafe: notes/assumptions/16.md).
-/

namespace Sys2Proof.Machine

/-- What the host can do to the ports. It adds to what it offers and never changes a word or byte it is
offering (70_reset_and_hazards.md rule R248). -/
inductive HostMove where
  /-- Drive `rst` (70_reset_and_hazards.md rule R230). -/
  | driveReset (level : Bool)
  /-- Present more command words, after those it presents already. -/
  | present (words : List CmdWord)
  /-- Offer more bytes on `din`. -/
  | offer (bytes : List Byte)
  /-- Stop offering bytes on `din`: what a truncated push did not take stays with the producer
  (20_memory.md rule R66). -/
  | withdraw
  /-- Take responses, or leave them waiting. -/
  | driveRspReady (level : Bool)
  /-- Take at most so many more bytes from `dout`, or (`none`) every one. -/
  | limitDout (limit : Option Nat)
  deriving DecidableEq, Repr

/-- The ports after a move of the host. -/
def HostMove.apply : HostMove → State → State
  | .driveReset level, s => { s with rst := level }
  | .present words, s => { s with cmds := s.cmds ++ words }
  | .offer bytes, s => { s with din := s.din ++ bytes }
  | .withdraw, s => { s with din := [] }
  | .driveRspReady level, s => { s with rspReady := level }
  | .limitDout limit, s => { s with doutLimit := limit }

/-- Present one abstract command to a host that does its duties (70_reset_and_hazards.md rule R244): its
word on the command port, its data operand on `din` (30_encoding.md rule R90), every response and every
byte of `dout` taken. -/
def presentCommand (c : Command) (s : State) : State :=
  { s with
    rst := false, cmds := [encode c.instr], din := c.data, rspReady := true, doutLimit := none }

/-- Run one abstract command; a term that is no command is refused (30_encoding.md rule R90). -/
def runCommand (c : Command) (s : State) : Host.Outcome State Fault Refusal :=
  if c.wellFormed then step (presentCommand c s) else .refused .illFormedCommand

/-- Present no further command, and take the response that waits: what the host does at the end of a run. -/
def presentNothing (s : State) : State :=
  { s with rst := false, cmds := [], rspReady := true }

/-- The end of a run: the step in which the last command's response is taken
(70_reset_and_hazards.md rule R234). -/
def endRun (s : State) : Host.Outcome State Fault Refusal := step (presentNothing s)

/-- A run has ended: no word is offered, no command is in progress, and the last response has been taken
(70_reset_and_hazards.md rule R234). -/
def State.runEnded (s : State) : Bool := s.cmds.isEmpty && s.work.isNone && s.rsp.isNone

/-- A run of a program: the commands of both contexts in the order the host's arbitration gives them, up to
the end of the run, at which the last response has been taken (70_reset_and_hazards.md rule R234,
10_state.md rule R27, 60_exceptions.md rule R215; DEDUCED, safe: notes/assumptions/14.md). -/
def runProgram : List Command → State → Host.Outcome State Fault Refusal
  | [], s => endRun s
  | c :: rest, s =>
    match runCommand c s with
    | .next t => runProgram rest t
    | .fault r => .fault r
    | .refused r => .refused r

/-- Every order in which the commands of a producer and a consumer can reach the controller
(60_exceptions.md rule R215). -/
inductive Merge {α : Type} : List α → List α → List α → Prop where
  | done : Merge [] [] []
  | left {x : α} {xs ys zs : List α} : Merge xs ys zs → Merge (x :: xs) ys (x :: zs)
  | right {y : α} {xs ys zs : List α} : Merge xs ys zs → Merge xs (y :: ys) (y :: zs)

/-- A run of a producer's and a consumer's commands from `s` to `t`, in some order in which they can reach
the controller (70_reset_and_hazards.md rule R234, 60_exceptions.md rule R215). -/
def ContextsRun (producer consumer : List Command) (s t : State) : Prop :=
  ∃ cs, Merge producer consumer cs ∧ runProgram cs s = .next t

end Sys2Proof.Machine
end

