-- ==== Sys2Proof/Safety.lean ====
section
/-!
DEFINITION. What counts as a well-formed state and a safe run, in the terms the claims use: the
invariants of 10_state.md rule R30, the valid window and its logical content (rule R31, 42_push.md rule
R142), the states a run can reach (70_reset_and_hazards.md rule R234), and the bounded queue of bytes
that the controller is to an observer (43_pop.md rule R162).
-/

namespace Sys2Proof.Machine

/-- I1 to I6 of 10_state.md rule R30, of a capacity and five cursors. The bound 65535 of I1 holds of
every 16-bit capacity and is not repeated. -/
abbrev CursorInv (C : Nat) (c : Cursors) : Prop :=
  1 ≤ C ∧
  (c.head.toNat < C ∧ c.tail.toNat < C ∧ c.peekCursor.toNat < C) ∧
  c.length.toNat ≤ C ∧
  c.tail.toNat = (c.head.toNat + c.length.toNat) % C ∧
  c.peekLength.toNat ≤ c.length.toNat ∧
  c.peekCursor.toNat = (c.head.toNat + (c.length.toNat - c.peekLength.toNat)) % C

/-- The registers before construction: everything 0 and nothing in progress (10_state.md rules R26 and
R33). -/
abbrev UnconstructedInv (s : State) : Prop :=
  s.capacity = 0#16 ∧ s.overwriteEnabled = false ∧ s.cursors = Cursors.zero ∧ s.work = none

/-- What a bulk command was going to do when it passed its checks. -/
def planOf (i : Instr) (s : State) : Option Work :=
  match i with
  | .construct _ _ _ => none
  | .reset => none
  | .pushByte _ => none
  | .pushBytes bufPresent requestedLength =>
    if bufPresent then some (planPushBytes requestedLength s) else none
  | .popByte => none
  | .popBytes bufPresent requestedLength =>
    if bufPresent then some (planPopBytes requestedLength s) else none
  | .peekByte => none
  | .peekBytes bufPresent requestedLength =>
    if bufPresent then some (planPeekBytes requestedLength s) else none
  | .resetPeek => none
  | .commitPeeked => none
  | .getPeekOffset => none
  | .restorePeekOffset _ => none
  | .isEmpty => none
  | .count => none
  | .availableCount => none
  | .isPeekEmpty => none

/-- The accesses a bulk command has performed when it waits for its next beat: one for each beat going
into the storage, one more than that going to `dout`. -/
def Work.accessesWaiting (w : Work) : Nat :=
  match w.direction with
  | .toStorage => w.beat
  | .fromStorage => w.beat + 1

/-- The working state is that of a command waiting in the middle: it is the plan made from the registers,
which have not changed since (20_memory.md rule R63), with some of its beats done. -/
def WorkInv (s : State) (w : Work) : Bool :=
  s.constructed && s.rsp.isNone && decide (w.beat < w.n) && decide (w.accesses = w.accessesWaiting) &&
    decide (planOf w.cmd s = some { w with beat := 0, accesses := 0 })

/-- The well-formed states: the storage is in canonical form and lists only cells that can exist; the
registers meet I1 to I6 once constructed and are all 0 before; and a command in progress is as it
should be. -/
abbrev Inv (s : State) : Prop :=
  (Memory.wf s.storage ∧ ∀ cell ∈ s.storage, cell.1 < 65535) ∧
  (s.constructed = true → CursorInv s.capacity.toNat s.cursors) ∧
  (s.constructed = false → UnconstructedInv s) ∧
  s.work.all (WorkInv s) = true

/-- A state a run may start from: a well-formed one with no command in progress. The hardware-reset state
with any storage is one of them (70_reset_and_hazards.md rule R234). -/
abbrev Launch (s : State) : Prop := Inv s ∧ s.work = none

/-- The controller takes the next command word: no reset, nothing in progress, and no response that the
host leaves waiting (20_memory.md rule R61). -/
abbrev TakesCommand (s : State) : Prop :=
  s.rst = false ∧ s.work = none ∧ s.responseHeld = false

/-- The state as a command finds it when its word, the first of the host's list, has been accepted: the
response before it has been taken. -/
def State.accepted (s : State) (rest : List CmdWord) : State :=
  { s with cmds := rest, rsp := none, rspLog := s.rspLog ++ s.rsp.toList }

/-- The consumer takes at least `n` more bytes from `dout` (70_reset_and_hazards.md rule R244). -/
def State.consumerTakes (s : State) (n : Nat) : Bool :=
  match s.doutLimit with
  | none => true
  | some k => decide (n ≤ k)

/-- The host does its stream duties for a command: the producer offers the bytes it will write, the
consumer takes the bytes it will deliver (20_memory.md rules R66 and R67). -/
def State.streamsServe (s : State) (i : Instr) : Bool :=
  match planOf i s with
  | none => true
  | some w =>
    match w.direction with
    | .toStorage => decide (w.n ≤ s.din.length)
    | .fromStorage => s.consumerTakes w.n

/-- What `doutLimit` is once the consumer has taken `n` more bytes from `dout`. -/
def State.doutLimitAfter (s : State) (n : Nat) : Option Nat := s.doutLimit.map (fun k => k - n)

/-! ## The valid window and the logical content -/

/-- The cell at logical position `k`: `(head + k) mod C` (10_state.md rule R31(e)). -/
def State.windowCell (s : State) (k : Nat) : Nat := (s.head.toNat + k) % s.capacity.toNat

/-- A cell is in the valid window (10_state.md rule R31(e)). -/
def State.InWindow (s : State) (a : Nat) : Prop := ∃ k, k < s.length.toNat ∧ s.windowCell k = a

/-- `Q`: the bytes of the valid window, oldest first (42_push.md rule R142). -/
def State.content (s : State) : List Byte :=
  (List.range s.length.toNat).map (fun k => s.memRead (s.windowCell k))

/-- Every cell of the valid window has been written by the controller (20_memory.md rule R58), and so
has every cell that a push in progress has already sent a byte to. -/
def WindowWritten (s : State) : Prop :=
  (∀ k, k < s.length.toNat → (s.storage.read? (s.windowCell k)).isSome = true) ∧
  ∀ w, s.work = some w → w.direction = .toStorage →
    ∀ a ∈ w.cells.take w.beat, (s.storage.read? a).isSome = true

/-! ## Runs -/

/-- The states of a run from hardware reset, whatever the host does to the ports in between
(70_reset_and_hazards.md rule R234, 60_exceptions.md rule R215). -/
inductive Reachable : State → Prop where
  | reset : Reachable State.reset
  | step {s t : State} : Reachable s → Machine.step s = .next t → Reachable t
  | host {s : State} (m : HostMove) : Reachable s → Reachable (m.apply s)

/-- A state is safe if the next step is neither a fault nor a refusal. -/
def Safe (s : State) : Prop := ∃ t, Machine.step s = .next t

/-! ## The bounded queue -/

/-- A bounded queue of bytes with a count of peeked bytes. It knows nothing of indices. -/
structure Fifo where
  capacity : Nat
  overwrite : Bool
  bytes : List Byte
  peeked : Nat
  deriving DecidableEq, Repr

/-- What a command answers, to an observer: the status, the value, the bytes delivered on `dout`. -/
structure Answer where
  status : Status
  value : Nat
  out : List Byte := []
  deriving DecidableEq, Repr

/-- Append as many of the bytes offered as a request for `req` of them may write; with overwrite enabled
drop the oldest bytes first to make room, which ends any look-ahead. -/
def Fifo.push (f : Fifo) (req : Nat) (data : List Byte) : Nat × Fifo :=
  let req := min req f.capacity
  let room := f.capacity - f.bytes.length
  if req ≤ room then (req, { f with bytes := f.bytes ++ data.take req })
  else if f.overwrite then
    (req, { f with bytes := f.bytes.drop (req - room) ++ data.take req, peeked := 0 })
  else (room, { f with bytes := f.bytes ++ data.take room })

/-- What each command does to the queue and what it answers. -/
def Fifo.command (f : Fifo) (i : Instr) (data : List Byte) : Fifo × Answer :=
  match i with
  | .construct bufPresent ovw capacity =>
    if bufPresent && capacity != 0#16 then
      ({ capacity := capacity.toNat, overwrite := ovw, bytes := [], peeked := 0 }, ⟨.ok, 0, []⟩)
    else (f, ⟨.invalidArgument, 0, []⟩)
  | .reset => ({ f with bytes := [], peeked := 0 }, ⟨.ok, 0, []⟩)
  | .pushByte byte =>
    let r := f.push 1 [byte]
    if r.1 = 0 then (f, ⟨.full, 0, []⟩) else (r.2, ⟨.ok, 1, []⟩)
  | .pushBytes bufPresent requestedLength =>
    if bufPresent then
      let r := f.push requestedLength.toNat data
      (r.2, ⟨.ok, r.1, []⟩)
    else (f, ⟨.invalidArgument, 0, []⟩)
  | .popByte =>
    match f.bytes with
    | [] => (f, ⟨.empty, 0, []⟩)
    | b :: rest => ({ f with bytes := rest, peeked := 0 }, ⟨.ok, b.toNat, []⟩)
  | .popBytes bufPresent requestedLength =>
    if bufPresent then
      let n := min requestedLength.toNat f.bytes.length
      ({ f with bytes := f.bytes.drop n, peeked := 0 }, ⟨.ok, n, f.bytes.take n⟩)
    else (f, ⟨.invalidArgument, 0, []⟩)
  | .peekByte =>
    match f.bytes.drop f.peeked with
    | [] => (f, ⟨.empty, 0, []⟩)
    | b :: _ => ({ f with peeked := f.peeked + 1 }, ⟨.ok, b.toNat, []⟩)
  | .peekBytes bufPresent requestedLength =>
    if bufPresent then
      let n := min requestedLength.toNat (f.bytes.length - f.peeked)
      ({ f with peeked := f.peeked + n }, ⟨.ok, n, (f.bytes.drop f.peeked).take n⟩)
    else (f, ⟨.invalidArgument, 0, []⟩)
  | .resetPeek => ({ f with peeked := 0 }, ⟨.ok, 0, []⟩)
  | .commitPeeked => ({ f with bytes := f.bytes.drop f.peeked, peeked := 0 }, ⟨.ok, 0, []⟩)
  | .getPeekOffset => (f, ⟨.ok, f.peeked, []⟩)
  | .restorePeekOffset count =>
    if count.toNat ≤ f.bytes.length then ({ f with peeked := count.toNat }, ⟨.ok, 0, []⟩)
    else (f, ⟨.invalidArgument, 0, []⟩)
  | .isEmpty => (f, ⟨.ok, if f.bytes = [] then 1 else 0, []⟩)
  | .count => (f, ⟨.ok, f.bytes.length, []⟩)
  | .availableCount => (f, ⟨.ok, f.capacity - f.bytes.length, []⟩)
  | .isPeekEmpty => (f, ⟨.ok, if f.peeked = f.bytes.length then 1 else 0, []⟩)

/-- A whole program on the queue: the queue it leaves, the response words in order, and the bytes
delivered in order. -/
def Fifo.run : List Command → Fifo → Fifo × List RspWord × List Byte
  | [], f => (f, [], [])
  | c :: rest, f =>
    let r := f.command c.instr c.data
    let q := Fifo.run rest r.1
    (q.1, responseWord c.instr.opcode r.2.status (toIdx r.2.value) :: q.2.1, r.2.out ++ q.2.2)

/-- The queue that a state is to an observer. -/
def State.fifo (s : State) : Fifo :=
  { capacity := s.capacity.toNat, overwrite := s.overwriteEnabled, bytes := s.content,
    peeked := s.peekOffset }

end Sys2Proof.Machine
end

