-- ==== Sys2Proof/Certificates/Slice0/Obligations.lean ====
section
/-!
DEFINITION. The statements for the provers. Each cites the rule of spec/ it formalises. Where a
statement gives the next state as `{ s with … }`, every field of the state that is not named there is
unchanged; that the storage keeps its bytes is said besides through the model's read of one byte.
-/

open Sys2Proof Sys2Proof.Machine

/-! ## Encoding -/

/-- 30_encoding.md rule R89: the encoder and the decoder are inverse on the commands and on the
well-formed words, that is, the words `w` with `(w & mask) == (k << 28)` for the opcode `k` in bits
31:28. -/
def Obligations.EncodeAndDecodeAreInverse : Prop :=
  (∀ i : Instr, decode (encode i) = .ok i) ∧
  (∀ w : CmdWord, w &&& (rowOf (opField w)).format.mask = (opField w).setWidth 32 <<< 28 →
    ∃ i, decode w = .ok i ∧ encode i = w)

/-- 30_encoding.md rule R84: a word with a 1 in a must-be-zero position of the format its opcode selects
is malformed, with its opcode kept, and no other word is. -/
def Obligations.MalformedWordsHaveABadFixedBit : Prop :=
  ∀ w : CmdWord,
    decode w = .error (.malformed (w.extractLsb' 28 4)) ↔
      w &&& (rowOf (w.extractLsb' 28 4)).format.mask ≠ (w.extractLsb' 28 4).setWidth 32 <<< 28

/-- 30_encoding.md rules R83 and R84: no word matches two rows of the opcode map. -/
def Obligations.NoWordMatchesTwoRows : Prop :=
  ∀ (w : CmdWord) (j k : BitVec 4),
    w &&& (rowOf j).format.mask = j.setWidth 32 <<< 28 →
    w &&& (rowOf k).format.mask = k.setWidth 32 <<< 28 → j = k

/-- 30_encoding.md rule R83: words written out bit by bit decode to the commands they stand for, one of
each format and some malformed ones. -/
def Obligations.WrittenOutWordsDecode : Prop :=
  decode 0b00000011000000001111111111111111#32 = .ok (.construct true true 0xFFFF#16) ∧
  decode 0b00010000000000000000000000000000#32 = .ok .reset ∧
  decode 0b00100000000000000000000001000101#32 = .ok (.pushByte 0x45#8) ∧
  decode 0b00110001000000000000000000000101#32 = .ok (.pushBytes true 5#16) ∧
  decode 0b01010000000000000000000000000000#32 = .ok (.popBytes false 0#16) ∧
  decode 0b10110000000000000000000000000100#32 = .ok (.restorePeekOffset 4#16) ∧
  decode 0b11110000000000000000000000000000#32 = .ok .isPeekEmpty ∧
  decode 0b00100000000000000000000101000001#32 = .error (.malformed 0x2#4) ∧
  decode 0b00110011000000000000000000000101#32 = .error (.malformed 0x3#4)

/-- 30_encoding.md rules R86 and R87: the fields of a response word, and the four status codes. -/
def Obligations.ResponseWordHasItsFields : Prop :=
  (∀ (op : BitVec 4) (st : Status) (v : Idx),
    (responseWord op st v).extractLsb' 28 4 = op ∧
    (responseWord op st v).extractLsb' 26 2 = st.code ∧
    (responseWord op st v).extractLsb' 16 10 = 0#10 ∧
    (responseWord op st v).extractLsb' 0 16 = v) ∧
  Status.ok.code = 0#2 ∧ Status.invalidArgument.code = 1#2 ∧ Status.full.code = 2#2 ∧
    Status.empty.code = 3#2

/-! ## The step -/

/-- When the word the host offers decodes to a command `i` and the controller takes commands, the step
is `exec i` at the state in which the word has left the command port and the response before it has been
taken (20_memory.md rules R61 and R63; that the response is taken in this step is the model's choice,
notes/assumptions/8.md). -/
def Obligations.StepRunsTheDecodedCommand : Prop :=
  ∀ (s : State) (word : CmdWord) (rest : List CmdWord) (i : Instr),
    s.rst = false → s.work = none → (s.rsp = none ∨ s.rspReady = true) →
    s.cmds = word :: rest → decode word = .ok i →
    step s = exec i { s with cmds := rest, rsp := none, rspLog := s.rspLog ++ s.rsp.toList }

/-- 60_exceptions.md rule R209: a malformed word is answered with `INVALID_ARGUMENT` and value 0, `op`
echoing its bits 31:28, in every state that takes a command, constructed or not, and changes nothing. -/
def Obligations.MalformedWordIsAnsweredAndChangesNothing : Prop :=
  ∀ (s : State) (word : CmdWord) (rest : List CmdWord),
    TakesCommand s → s.cmds = word :: rest →
    word &&& (rowOf (word.extractLsb' 28 4)).format.mask ≠ (word.extractLsb' 28 4).setWidth 32 <<< 28 →
    step s = .next { s with
      cmds := rest, rspLog := s.rspLog ++ s.rsp.toList,
      rsp := some (responseWord (word.extractLsb' 28 4) .invalidArgument 0#16) }

/-- 30_encoding.md rule R86: every word the host offers, well-formed or not, gets exactly one response
word, with its opcode echoed, when the host does its stream duties. -/
def Obligations.EveryWordGetsOneResponse : Prop :=
  ∀ (s : State) (word : CmdWord) (rest : List CmdWord),
    Inv s → TakesCommand s → s.cmds = word :: rest →
    (∀ i, decode word = .ok i → s.streamsServe i = true) →
    ∃ t st v, step s = .next t ∧ t.work = none ∧ t.cmds = rest ∧
      t.rsp = some (responseWord (word.extractLsb' 28 4) st v) ∧
      t.rspLog = s.rspLog ++ s.rsp.toList ∧
      (responseWord (word.extractLsb' 28 4) st v).extractLsb' 28 4 = word.extractLsb' 28 4 ∧
      (responseWord (word.extractLsb' 28 4) st v).extractLsb' 26 2 = st.code ∧
      (responseWord (word.extractLsb' 28 4) st v).extractLsb' 16 10 = 0#10 ∧
      (responseWord (word.extractLsb' 28 4) st v).extractLsb' 0 16 = v

/-- 10_state.md rule R33: what every piece of state holds after a hardware reset, after a successful
CONSTRUCT, and after the RESET command. The storage is changed by none of them. -/
def Obligations.ResetsLeaveTheirValues : Prop :=
  (∀ s : State, s.rst = true → ∃ t, step s = .next t ∧
    t.constructed = false ∧ t.capacity = 0#16 ∧ t.overwriteEnabled = false ∧ t.head = 0#16 ∧
    t.tail = 0#16 ∧ t.length = 0#16 ∧ t.peekCursor = 0#16 ∧ t.peekLength = 0#16 ∧
    t.work = none ∧ ∀ a, t.memRead a = s.memRead a) ∧
  (∀ (s : State) (ovw : Bool) (capacity : Idx), capacity ≠ 0#16 → s.work = none →
    ∃ t, exec (.construct true ovw capacity) s = .next t ∧
    t.constructed = true ∧ t.capacity = capacity ∧ t.overwriteEnabled = ovw ∧ t.head = 0#16 ∧
    t.tail = 0#16 ∧ t.length = 0#16 ∧ t.peekCursor = 0#16 ∧ t.peekLength = 0#16 ∧
    t.work = none ∧ ∀ a, t.memRead a = s.memRead a) ∧
  (∀ s : State, s.constructed = true → s.work = none → ∃ t, exec .reset s = .next t ∧
    t.constructed = true ∧ t.capacity = s.capacity ∧ t.overwriteEnabled = s.overwriteEnabled ∧
    t.head = 0#16 ∧ t.tail = 0#16 ∧ t.length = 0#16 ∧ t.peekCursor = 0#16 ∧ t.peekLength = 0#16 ∧
    t.work = none ∧ ∀ a, t.memRead a = s.memRead a)

/-- 70_reset_and_hazards.md rule R230: hardware reset takes priority over everything else; a command in
progress is abandoned and gets no response, and a response that was not taken is gone; what the abandoned
command has already moved stays moved. -/
def Obligations.HardwareResetAbandonsTheCommand : Prop :=
  ∀ s : State, s.rst = true →
    step s = .next { s with
      constructed := false, capacity := 0#16, overwriteEnabled := false, head := 0#16, tail := 0#16,
      length := 0#16, peekCursor := 0#16, peekLength := 0#16, work := none, rsp := none } ∧
    s.cmdReady = false ∧ s.rspOffered = none ∧ s.dinReady = false ∧ s.doutOffered = none

/-- 60_exceptions.md rule R216 and 70_reset_and_hazards.md rules R244 and R248: with no word offered the
controller is idle and holds its state; while the host leaves a response waiting, nothing changes and the
word offered is not taken. -/
def Obligations.ControllerHoldsItsStateWhileItWaits : Prop :=
  (∀ s : State, TakesCommand s → s.cmds = [] →
    step s = .next { s with rsp := none, rspLog := s.rspLog ++ s.rsp.toList }) ∧
  (∀ s : State, s.rst = false → s.work = none → s.rsp.isSome = true → s.rspReady = false →
    step s = .next s ∧ s.cmdReady = false)

/-- 70_reset_and_hazards.md rule R244: while the host withholds the stream a command in progress waits
for, nothing changes: the command does not complete, and `cmd_ready` stays 0. -/
def Obligations.WithheldStreamHoldsTheCommand : Prop :=
  ∀ (s : State) (w : Work), Inv s → s.rst = false → s.work = some w →
    (w.direction = .toStorage → s.din = []) → (w.direction = .fromStorage → s.doutLimit = some 0) →
    step s = .next s ∧ s.cmdReady = false

/-- 20_memory.md rule R63: bytes offered in two pieces, with a wait in between, leave the controller as
the same bytes offered at once do, whether the command completes with them or goes on waiting. -/
def Obligations.BytesOfferedInPiecesGiveTheSameResult : Prop :=
  ∀ (s t : State) (requestedLength : Idx) (a b : List Byte),
    Inv s → s.constructed = true → s.rst = false → s.work = none →
    exec (.pushBytes true requestedLength) { s with din := a } = .next t → t.work ≠ none →
    t.din = [] ∧
    step ((HostMove.offer b).apply t) =
      exec (.pushBytes true requestedLength) { s with din := a ++ b }

/-- 20_memory.md rules R63 and R67: bytes of a POP_BYTES or PEEK_BYTES taken in two pieces, with a wait in
between, leave the controller as the same bytes taken at once do, whether the command completes with them or
goes on waiting: the same bytes on `dout`, the same accesses, the same registers, the same response. The
consumer of the second piece takes `b` more bytes, or every one. -/
def Obligations.BytesTakenInPiecesGiveTheSameResult : Prop :=
  ∀ (i : Instr) (s t : State) (len : Idx) (a b : Nat),
    i = .popBytes true len ∨ i = .peekBytes true len →
    Inv s → s.constructed = true → s.rst = false → s.work = none →
    exec i { s with doutLimit := some a } = .next t → t.work ≠ none →
    t.doutLimit = some 0 ∧
    step ((HostMove.limitDout (some b)).apply t) = exec i { s with doutLimit := some (a + b) } ∧
    step ((HostMove.limitDout none).apply t) = exec i { s with doutLimit := none }

/-- 20_memory.md rules R60, R62 and R67: how a POP_BYTES or PEEK_BYTES that waits after `w.beat` of its `n`
beats goes on. If the consumer takes the rest, the rest is delivered in order, the cursors are committed and
the response counts all `n` bytes; if it takes only `k` more, those are delivered and the command waits
again, with no register changed. (That the byte on offer has been read already, and no later one, is an
inference from rule R67: notes/assumptions/9.md.) -/
def Obligations.WaitingDeliveryGoesOn : Prop :=
  ∀ (s : State) (w : Work) (len : Idx), Inv s → s.rst = false → s.work = some w →
    let C := s.capacity.toNat
    (w.cmd = .popBytes true len →
      let n := min len.toNat s.length.toNat
      w.beat < n ∧
      (s.consumerTakes (n - w.beat) = true →
        ∃ t, step s = .next t ∧ (∀ a, t.memRead a = s.memRead a) ∧
        t = { s with
          head := toIdx ((s.head.toNat + n) % C), length := toIdx (s.length.toNat - n),
          peekCursor := toIdx ((s.head.toNat + n) % C), peekLength := toIdx (s.length.toNat - n),
          work := none, doutLimit := s.doutLimitAfter (n - w.beat),
          dout := s.dout ++ (List.range (n - w.beat)).map
            (fun k => s.memRead ((s.head.toNat + (w.beat + k)) % C)),
          trace := s.trace ++ (List.range (n - w.beat - 1)).map (fun k =>
            ⟨false, toIdx ((s.head.toNat + (w.beat + 1 + k)) % C),
              s.memRead ((s.head.toNat + (w.beat + 1 + k)) % C)⟩),
          rsp := some (responseWord 0x5#4 .ok (toIdx n)) }) ∧
      (∀ k, s.doutLimit = some k → k < n - w.beat →
        ∃ t, step s = .next t ∧ (∀ a, t.memRead a = s.memRead a) ∧
        t = { s with
          work := some { w with beat := w.beat + k, accesses := w.beat + k + 1 },
          doutLimit := some 0,
          dout := s.dout ++ (List.range k).map
            (fun j => s.memRead ((s.head.toNat + (w.beat + j)) % C)),
          trace := s.trace ++ (List.range k).map (fun j =>
            ⟨false, toIdx ((s.head.toNat + (w.beat + 1 + j)) % C),
              s.memRead ((s.head.toNat + (w.beat + 1 + j)) % C)⟩) })) ∧
    (w.cmd = .peekBytes true len →
      let n := min len.toNat s.peekLength.toNat
      w.beat < n ∧
      (s.consumerTakes (n - w.beat) = true →
        ∃ t, step s = .next t ∧ (∀ a, t.memRead a = s.memRead a) ∧
        t = { s with
          peekCursor := toIdx ((s.peekCursor.toNat + n) % C),
          peekLength := toIdx (s.peekLength.toNat - n),
          work := none, doutLimit := s.doutLimitAfter (n - w.beat),
          dout := s.dout ++ (List.range (n - w.beat)).map
            (fun k => s.memRead ((s.peekCursor.toNat + (w.beat + k)) % C)),
          trace := s.trace ++ (List.range (n - w.beat - 1)).map (fun k =>
            ⟨false, toIdx ((s.peekCursor.toNat + (w.beat + 1 + k)) % C),
              s.memRead ((s.peekCursor.toNat + (w.beat + 1 + k)) % C)⟩),
          rsp := some (responseWord 0x7#4 .ok (toIdx n)) }) ∧
      (∀ k, s.doutLimit = some k → k < n - w.beat →
        ∃ t, step s = .next t ∧ (∀ a, t.memRead a = s.memRead a) ∧
        t = { s with
          work := some { w with beat := w.beat + k, accesses := w.beat + k + 1 },
          doutLimit := some 0,
          dout := s.dout ++ (List.range k).map
            (fun j => s.memRead ((s.peekCursor.toNat + (w.beat + j)) % C)),
          trace := s.trace ++ (List.range k).map (fun j =>
            ⟨false, toIdx ((s.peekCursor.toNat + (w.beat + 1 + j)) % C),
              s.memRead ((s.peekCursor.toNat + (w.beat + 1 + j)) % C)⟩) }))

/-! ## Invariants -/

/-- The machine right after hardware reset is well formed (10_state.md rule R33), and its registers, the
storage and the working state are as that rule says. -/
def Obligations.ResetStateIsWellFormed : Prop :=
  Inv State.reset ∧ State.reset.constructed = false ∧ State.reset.capacity = 0#16 ∧
  State.reset.overwriteEnabled = false ∧ State.reset.cursors = ⟨0#16, 0#16, 0#16, 0#16, 0#16⟩ ∧
  State.reset.work = none ∧ State.reset.storage = []

/-- Every step keeps the well-formed states (10_state.md rule R30), whatever stands on the ports: the
storage stays in canonical form, I1 to I6 hold once constructed, every register is 0 before, and a command
in progress stays as its plan says. -/
def Obligations.StepKeepsInvariants : Prop :=
  ∀ s t : State, Inv s → step s = .next t → Inv t

/-- 60_exceptions.md rule R202 and 20_memory.md rule R57: from a well-formed state no step is a fault or a
refusal: there is no lock-up state, and no index of `C` or more is presented. -/
def Obligations.NoStepStopsTheController : Prop :=
  ∀ s : State, Inv s → Safe s

/-- Every state of a run from hardware reset, whatever words and bytes the host offers, whatever it
withholds, and whenever it drives `rst`, is well formed and safe. -/
def Obligations.ReachableStatesAreSafe : Prop :=
  ∀ s : State, Reachable s → Inv s ∧ Safe s

/-- 10_state.md rule R30: the invariants I1 to I6 hold in every reachable state that is constructed, and
they are exact: for a given `C` every tuple of cursors that satisfies I2 to I6 is reachable. -/
def Obligations.CursorInvariantsAreExact : Prop :=
  (∀ s : State, Reachable s → s.constructed = true →
    (1 ≤ s.capacity.toNat ∧ s.capacity.toNat ≤ 65535) ∧
    (s.head.toNat < s.capacity.toNat ∧ s.tail.toNat < s.capacity.toNat ∧
      s.peekCursor.toNat < s.capacity.toNat) ∧
    s.length.toNat ≤ s.capacity.toNat ∧
    s.tail.toNat = (s.head.toNat + s.length.toNat) % s.capacity.toNat ∧
    s.peekLength.toNat ≤ s.length.toNat ∧
    s.peekCursor.toNat =
      (s.head.toNat + (s.length.toNat - s.peekLength.toNat)) % s.capacity.toNat) ∧
  (∀ (capacity : Idx) (ovw : Bool) (c : Cursors), CursorInv capacity.toNat c →
    ∃ s, Reachable s ∧ s.constructed = true ∧ s.capacity = capacity ∧ s.overwriteEnabled = ovw ∧
      s.cursors = c)

/-- 10_state.md rule R31: the consequences (a) to (f) of the invariants. -/
def Obligations.CursorInvariantConsequences : Prop :=
  ∀ s : State, Inv s → s.constructed = true →
    ((s.head = s.tail ↔ s.length = 0#16 ∨ s.length = s.capacity) ∧
      (s.head = s.tail ∧ s.length ≠ 0#16 ↔ s.length = s.capacity) ∧
      (s.capacity = 1#16 → s.head = 0#16 ∧ s.tail = 0#16)) ∧
    (s.length = 0#16 → s.peekLength = 0#16 ∧ s.peekCursor = s.head ∧ s.head = s.tail) ∧
    ((s.peekLength = s.length ↔ s.length.toNat - s.peekLength.toNat = 0) ∧
      (s.peekLength = s.length → s.peekCursor = s.head)) ∧
    ((s.peekLength = 0#16 → s.peekCursor = s.tail) ∧
      (s.peekLength = 0#16 → s.length = s.capacity →
        s.peekCursor = s.tail ∧ s.tail = s.head ∧
        s.length.toNat - s.peekLength.toNat = s.capacity.toNat)) ∧
    ((∀ j k, j < s.length.toNat → k < s.length.toNat → s.windowCell j = s.windowCell k → j = k) ∧
      (∀ k, k < s.peekLength.toNat →
        (s.peekCursor.toNat + k) % s.capacity.toNat =
          s.windowCell (s.length.toNat - s.peekLength.toNat + k))) ∧
    (∀ a, a < s.capacity.toNat →
      (∃ k, k < s.length.toNat ∧ s.windowCell k = a ∧
        ∀ j, j < s.capacity.toNat - s.length.toNat → (s.tail.toNat + j) % s.capacity.toNat ≠ a) ∨
      (∃ k, k < s.capacity.toNat - s.length.toNat ∧ (s.tail.toNat + k) % s.capacity.toNat = a ∧
        (∀ j, j < s.capacity.toNat - s.length.toNat →
          (s.tail.toNat + j) % s.capacity.toNat = a → j = k) ∧
        ∀ j, j < s.length.toNat → s.windowCell j ≠ a))

/-- 40_common_datapath.md rule R112: the four tests, and the three forms of `is_full` agree. -/
def Obligations.FullAndEmptyTestsAgree : Prop :=
  ∀ s : State, Inv s → s.constructed = true →
    (s.isEmpty = true ↔ s.length.toNat = 0) ∧
    (s.isFull = true ↔ s.head = s.tail ∧ s.length.toNat ≠ 0) ∧
    (s.isPeekEmpty = true ↔ s.peekLength.toNat = 0) ∧
    s.free + s.length.toNat = s.capacity.toNat ∧
    (s.isFull = true ↔ s.length = s.capacity) ∧ (s.isFull = true ↔ s.free = 0) ∧
    (s.capacity = 1#16 → (s.isFull = true ↔ s.length = 1#16))

/-- 70_reset_and_hazards.md rule R234: a run of the producer's and the consumer's commands, in whatever order
they reach the controller, from the hardware-reset state or any other well-formed state with no command in
progress, comes to its end: the last response has been taken, no command is in progress, no word is offered.
The responses taken are one for each command, in the order of the run, and the state at the end may start
another run. -/
def Obligations.RunsEndWithEveryResponseTaken : Prop :=
  (Launch State.reset) ∧
  ∀ (producer consumer cs : List Command) (s : State),
    (∀ c ∈ producer, c.wellFormed = true) → (∀ c ∈ consumer, c.wellFormed = true) →
    Merge producer consumer cs → Launch s →
    ∃ t words, runProgram cs s = .next t ∧ ContextsRun producer consumer s t ∧
      t.runEnded = true ∧ t.cmdReady = true ∧ Launch t ∧
      t.rspLog = s.rspLog ++ s.rsp.toList ++ words ∧
      words.map (fun word => word.extractLsb' 28 4) = cs.map (fun c => c.instr.opcode)

/-! ## The datapath -/

/-- 40_common_datapath.md rules R113 and R114: a copy is no segment, one, or two; each segment has at
least one cell and stays inside the storage; the counts add up; the cells are those at logical positions
`0` to `n - 1`; and the two segments of a split copy share no cell. -/
def Obligations.SegmentsCoverTheCopy : Prop :=
  ∀ C base n : Nat, base < C → n ≤ C →
    (n = 0 → segments C base n = []) ∧
    (0 < n → base + n ≤ C → segments C base n = [⟨base, n⟩]) ∧
    (C < base + n → segments C base n = [⟨base, C - base⟩, ⟨0, n - (C - base)⟩] ∧
      1 ≤ C - base ∧ 1 ≤ n - (C - base) ∧ n - (C - base) ≤ base) ∧
    (∀ g ∈ segments C base n, 1 ≤ g.count ∧ g.start + g.count ≤ C) ∧
    ((segments C base n).map Segment.count).sum = n ∧
    segmentCells (segments C base n) = (List.range n).map (fun k => (base + k) % C) ∧
    (segmentCells (segments C base n)).Nodup

/-- 40_common_datapath.md rule R116: the three arms of the arbiter and its properties. -/
def Obligations.ArbiterCountsAreBounded : Prop :=
  ∀ (s : State) (req : Nat), Inv s → s.constructed = true → req ≤ s.capacity.toNat →
    let free := s.capacity.toNat - s.length.toNat
    let n := (s.arbitrate req).1
    let e := (s.arbitrate req).2
    (req ≤ free → (n, e) = (req, 0)) ∧
    (free < req → s.overwriteEnabled = true → (n, e) = (req, req - free)) ∧
    (free < req → s.overwriteEnabled = false → (n, e) = (free, 0)) ∧
    n ≤ req ∧ e ≤ s.length.toNat ∧ (0 < e → s.overwriteEnabled = true) ∧
    s.length.toNat - e + n ≤ s.capacity.toNat ∧
    (0 < e → s.length.toNat - e + n = s.capacity.toNat) ∧
    (s.overwriteEnabled = true → n = req) ∧
    (req = 0 → (n, e) = (0, 0)) ∧
    (req = s.capacity.toNat → s.overwriteEnabled = true → e = s.length.toNat)

/-- 40_common_datapath.md rules R117 and R118: what an eviction and a resynchronisation do to the cursors;
an eviction of nothing does nothing. -/
def Obligations.EvictionAdvancesHeadAndResyncs : Prop :=
  ∀ (C e : Nat) (c : Cursors), C ≤ 65535 → CursorInv C c → e ≤ c.length.toNat →
    (e = 0 → c.evict C e = c) ∧
    (0 < e →
      (c.evict C e).head.toNat = (c.head.toNat + e) % C ∧
      (c.evict C e).length.toNat = c.length.toNat - e ∧
      (c.evict C e).peekCursor = (c.evict C e).head ∧
      (c.evict C e).peekLength = (c.evict C e).length) ∧
    (c.evict C e).tail = c.tail ∧
    c.resyncPeek = ⟨c.head, c.tail, c.length, c.head, c.length⟩ ∧
    CursorInv C (c.evict C e) ∧ CursorInv C c.resyncPeek

/-- 40_common_datapath.md rule R111 and 44_peek.md rule R174: `dist` is the circular distance, and the peek
offset is the distance from `head` to `peek_cursor` in every state but one, the full queue that has been
peeked entirely, where the distance is 0 and the offset is `C`. -/
def Obligations.PeekOffsetIsTheDistanceButForOneState : Prop :=
  (∀ C a b : Nat, a < C → b < C → dist C a b < C ∧ (a + dist C a b) % C = b) ∧
  (∀ s : State, Inv s → s.constructed = true →
    (¬(s.length = s.capacity ∧ s.peekLength = 0#16) →
      dist s.capacity.toNat s.head.toNat s.peekCursor.toNat = s.length.toNat - s.peekLength.toNat) ∧
    (s.length = s.capacity → s.peekLength = 0#16 →
      dist s.capacity.toNat s.head.toNat s.peekCursor.toNat = 0 ∧
      s.length.toNat - s.peekLength.toNat = s.capacity.toNat))

/-! ## Errors -/

/-- 60_exceptions.md rule R207: a command that responds with a status other than `OK` changes nothing: no
register, no storage cell; it takes no byte from `din` and offers none on `dout`. -/
def Obligations.NonOkResponseChangesNothing : Prop :=
  ∀ (i : Instr) (s t : State) (st : Status) (v : Idx),
    s.rsp = none → exec i s = .next t → t.rsp = some (responseWord i.opcode st v) → st ≠ .ok →
    v = 0#16 ∧ t = { s with rsp := t.rsp } ∧ ∀ a, t.memRead a = s.memRead a

/-- 60_exceptions.md rule R200: the complete list of the conditions under which a command responds with a
status other than `OK`. (The row for a malformed word is the last clause.) -/
def Obligations.NonOkStatusesHaveTheirConditions : Prop :=
  (∀ (i : Instr) (s : State), Inv s → s.rsp = none →
    (exec i s = .next { s with rsp := some (responseWord i.opcode .invalidArgument 0#16) } ↔
      (s.constructed = false ∧ ∀ bufPresent ovw capacity, i ≠ .construct bufPresent ovw capacity) ∨
      (∃ ovw capacity, i = .construct false ovw capacity) ∨
      (∃ bufPresent ovw, i = .construct bufPresent ovw 0#16) ∨
      (∃ len, i = .popBytes false len ∨ i = .peekBytes false len ∨ i = .pushBytes false len) ∨
      (∃ count, i = .restorePeekOffset count ∧ s.length.toNat < count.toNat)) ∧
    (exec i s = .next { s with rsp := some (responseWord i.opcode .full 0#16) } ↔
      s.constructed = true ∧ s.isFull = true ∧ s.overwriteEnabled = false ∧ ∃ b, i = .pushByte b) ∧
    (exec i s = .next { s with rsp := some (responseWord i.opcode .empty 0#16) } ↔
      s.constructed = true ∧
        ((i = .popByte ∧ s.length = 0#16) ∨ (i = .peekByte ∧ s.peekLength = 0#16))) ∧
    (∀ t st v, exec i s = .next t → t.rsp = some (responseWord i.opcode st v) → st ≠ .ok →
      v = 0#16 ∧ t = { s with rsp := t.rsp })) ∧
  (∀ (s : State) (word : CmdWord) (rest : List CmdWord),
    TakesCommand s → s.cmds = word :: rest → wellFormedWord word = false →
    step s = .next { s with
      cmds := rest, rspLog := s.rspLog ++ s.rsp.toList,
      rsp := some (responseWord (opField word) .invalidArgument 0#16) })

/-- 60_exceptions.md rule R210: while `constructed == 0` every well-formed command other than CONSTRUCT is
answered with `INVALID_ARGUMENT` and value 0, and changes nothing. -/
def Obligations.UnconstructedRejectsAllButConstruct : Prop :=
  ∀ (i : Instr) (s : State), s.constructed = false →
    (∀ bufPresent ovw capacity, i ≠ .construct bufPresent ovw capacity) →
    exec i s = .next { s with rsp := some (responseWord i.opcode .invalidArgument 0#16) }

/-- 00_scope.md rule R6: the capacity, the policy flag (and the record that a construction succeeded)
change only by a successful CONSTRUCT, to its operands, or by a hardware reset. -/
def Obligations.OnlyConstructAndResetChangeTheConfiguration : Prop :=
  ∀ s t : State, step s = .next t →
    (t.constructed ≠ s.constructed ∨ t.capacity ≠ s.capacity ∨
      t.overwriteEnabled ≠ s.overwriteEnabled) →
    s.rst = true ∨
    (TakesCommand s ∧ ∃ word rest ovw capacity, s.cmds = word :: rest ∧
      decode word = .ok (.construct true ovw capacity) ∧ capacity ≠ 0#16 ∧
      t.constructed = true ∧ t.capacity = capacity ∧ t.overwriteEnabled = ovw)

/-! ## Lifecycle commands -/

/-- 41_lifecycle.md rule R130: CONSTRUCT, in every state, constructed or not. -/
def Obligations.ConstructRule : Prop :=
  ∀ (bufPresent ovw : Bool) (capacity : Idx) (s : State),
    (bufPresent = false ∨ capacity = 0#16 →
      exec (.construct bufPresent ovw capacity) s =
        .next { s with rsp := some (responseWord 0x0#4 .invalidArgument 0#16) }) ∧
    (bufPresent = true → capacity ≠ 0#16 →
      ∃ t, exec (.construct bufPresent ovw capacity) s = .next t ∧
      t = { s with
        constructed := true, capacity := capacity, overwriteEnabled := ovw, head := 0#16,
        tail := 0#16, length := 0#16, peekCursor := 0#16, peekLength := 0#16,
        rsp := some (responseWord 0x0#4 .ok 0#16) } ∧
      (∀ a, t.memRead a = s.memRead a) ∧
      t.stConstructed = true ∧ t.stEmpty = true ∧ t.stFull = false ∧ t.stPeekEmpty = true ∧
      t.stCount = 0#16 ∧ t.stAvail = capacity)

/-- 41_lifecycle.md rule R131: RESET. -/
def Obligations.ResetRule : Prop :=
  ∀ s : State,
    (s.constructed = false →
      exec .reset s = .next { s with rsp := some (responseWord 0x1#4 .invalidArgument 0#16) }) ∧
    (s.constructed = true →
      ∃ t, exec .reset s = .next t ∧
      t = { s with
        head := 0#16, tail := 0#16, length := 0#16, peekCursor := 0#16, peekLength := 0#16,
        rsp := some (responseWord 0x1#4 .ok 0#16) } ∧
      (∀ a, t.memRead a = s.memRead a) ∧
      t.stEmpty = true ∧ t.stPeekEmpty = true ∧ t.stCount = 0#16 ∧ t.stAvail = s.capacity ∧
      (s.capacity ≠ 0#16 → t.stFull = false))

/-! ## Push commands -/

/-- 42_push.md rule R140: PUSH_BYTE. The cell written is the one `tail` points to before the advance; in the
eviction case that is the cell of the byte just evicted. -/
def Obligations.PushByteRule : Prop :=
  ∀ (byte : Byte) (s : State), Inv s →
    (s.constructed = false →
      exec (.pushByte byte) s =
        .next { s with rsp := some (responseWord 0x2#4 .invalidArgument 0#16) }) ∧
    (s.constructed = true → s.length = s.capacity → s.overwriteEnabled = false →
      exec (.pushByte byte) s = .next { s with rsp := some (responseWord 0x2#4 .full 0#16) }) ∧
    (s.constructed = true → s.length ≠ s.capacity →
      ∃ t, exec (.pushByte byte) s = .next t ∧
      t = { s with
        tail := toIdx ((s.tail.toNat + 1) % s.capacity.toNat),
        length := toIdx (s.length.toNat + 1), peekLength := toIdx (s.peekLength.toNat + 1),
        storage := t.storage, trace := s.trace ++ [⟨true, s.tail, byte⟩],
        rsp := some (responseWord 0x2#4 .ok 1#16) } ∧
      t.memRead s.tail.toNat = byte ∧ (∀ a, a ≠ s.tail.toNat → t.memRead a = s.memRead a) ∧
      t.stCount.toNat = s.stCount.toNat + 1 ∧ t.stAvail.toNat + 1 = s.stAvail.toNat ∧
      t.stEmpty = false ∧ t.stPeekEmpty = false ∧
      (t.stFull = true ↔ s.length.toNat + 1 = s.capacity.toNat)) ∧
    (s.constructed = true → s.length = s.capacity → s.overwriteEnabled = true →
      ∃ t, exec (.pushByte byte) s = .next t ∧
      t = { s with
        head := toIdx ((s.head.toNat + 1) % s.capacity.toNat),
        tail := toIdx ((s.tail.toNat + 1) % s.capacity.toNat),
        peekCursor := toIdx ((s.head.toNat + 1) % s.capacity.toNat), peekLength := s.length,
        storage := t.storage, trace := s.trace ++ [⟨true, s.tail, byte⟩],
        rsp := some (responseWord 0x2#4 .ok 1#16) } ∧
      s.tail = s.head ∧
      t.memRead s.tail.toNat = byte ∧ (∀ a, a ≠ s.tail.toNat → t.memRead a = s.memRead a) ∧
      t.stCount = s.capacity ∧ t.stAvail = 0#16 ∧ t.stEmpty = false ∧ t.stPeekEmpty = false ∧
      t.stFull = true)

/-- 42_push.md rule R141: PUSH_BYTES, when the producer offers the bytes it will write. The request is
clamped to `C`; `n` bytes are written and `e` evicted as the arbiter of rule R116 says; the first `n`
bytes of the operand are taken and the rest stay on `din`; the cells written are those at logical
positions `0` to `n - 1` from `tail`, in that order. -/
def Obligations.PushBytesRule : Prop :=
  ∀ (bufPresent : Bool) (requestedLength : Idx) (s : State), Inv s →
    (s.constructed = false ∨ bufPresent = false →
      exec (.pushBytes bufPresent requestedLength) s =
        .next { s with rsp := some (responseWord 0x3#4 .invalidArgument 0#16) }) ∧
    (s.constructed = true → bufPresent = true →
      let C := s.capacity.toNat
      let free := C - s.length.toNat
      let req := min requestedLength.toNat C
      let n := if req ≤ free then req else if s.overwriteEnabled = true then req else free
      let e := if req ≤ free then 0 else if s.overwriteEnabled = true then req - free else 0
      n ≤ s.din.length →
      ∃ t, exec (.pushBytes bufPresent requestedLength) s = .next t ∧
      t = { s with
        head := toIdx ((s.head.toNat + e) % C),
        tail := toIdx ((s.tail.toNat + n) % C),
        length := toIdx (s.length.toNat - e + n),
        peekCursor := if e = 0 then s.peekCursor else toIdx ((s.head.toNat + e) % C),
        peekLength := if e = 0 then toIdx (s.peekLength.toNat + n) else toIdx (s.length.toNat - e + n),
        storage := t.storage, work := none, din := s.din.drop n,
        trace := s.trace ++ (List.range n).map
          (fun k => ⟨true, toIdx ((s.tail.toNat + k) % C), (s.din[k]?).getD 0#8⟩),
        rsp := some (responseWord 0x3#4 .ok (toIdx n)) } ∧
      (∀ k, k < n → s.din[k]? = some (t.memRead ((s.tail.toNat + k) % C))) ∧
      (∀ a, (∀ k, k < n → a ≠ (s.tail.toNat + k) % C) → t.memRead a = s.memRead a) ∧
      t.stCount.toNat = s.length.toNat - e + n ∧
      (t.stFull = true ↔ s.length.toNat - e + n = C) ∧
      (0 < n → t.stEmpty = false ∧ t.stPeekEmpty = false))

/-- 20_memory.md rule R66 and 70_reset_and_hazards.md rule R244: a PUSH_BYTES for which the producer offers
fewer bytes than it will write takes them all, writes them, waits for more, and changes no register; the
status outputs stay as they were. (How many of the cells have been written at such a moment the spec leaves
open: notes/assumptions/10.md.) -/
def Obligations.PushBytesWaitsForTheProducer : Prop :=
  ∀ (requestedLength : Idx) (s : State), Inv s → s.constructed = true →
    let C := s.capacity.toNat
    let n := (s.arbitrate (min requestedLength.toNat C)).1
    s.din.length < n →
    ∃ t w, exec (.pushBytes true requestedLength) s = .next t ∧
      t = { s with
        storage := t.storage, work := some w, din := [],
        trace := s.trace ++ (List.range s.din.length).map
          (fun k => ⟨true, toIdx ((s.tail.toNat + k) % C), (s.din[k]?).getD 0#8⟩) } ∧
      (∀ k, k < s.din.length → s.din[k]? = some (t.memRead ((s.tail.toNat + k) % C))) ∧
      (∀ a, (∀ k, k < s.din.length → a ≠ (s.tail.toNat + k) % C) → t.memRead a = s.memRead a) ∧
      w.beat = s.din.length ∧ w.n = n ∧ t.cmdReady = false ∧
      (s.rst = false → t.dinReady = true)

/-- 20_memory.md rule R59, of the accesses a push adds to the trace: the `k`-th is a write of cell
`(tail + k) mod C`; the first `C - length` land on cells outside the valid window, the later ones on the `e`
oldest cells of the window, in their order; and none lands on a cell of the bytes that the push keeps, which
are the bytes from logical position `e` on (notes/assumptions/19.md). A push that completes makes all `n`
writes, and then the kept cells are the first of the new window. PUSH_BYTES is covered also while it waits
for its producer. -/
def Obligations.PushWritesFreeOrEvictedCells : Prop :=
  ∀ (i : Instr) (req : Nat) (s : State), Inv s → s.constructed = true →
    ((∃ byte, i = .pushByte byte) ∧ req = 1) ∨
      (∃ len, i = .pushBytes true len ∧ req = min len.toNat s.capacity.toNat) →
    let C := s.capacity.toNat
    let n := (s.arbitrate req).1
    let e := (s.arbitrate req).2
    ∃ t new, exec i s = .next t ∧ t.trace = s.trace ++ new ∧
      new.length ≤ n ∧ (t.work = none → new.length = n) ∧
      (∀ k access, new[k]? = some access →
        access.we = true ∧ access.addr.toNat = (s.tail.toNat + k) % C ∧
        (k < C - s.length.toNat → ¬s.InWindow access.addr.toNat) ∧
        (C - s.length.toNat ≤ k →
          k - (C - s.length.toNat) < e ∧
          access.addr.toNat = s.windowCell (k - (C - s.length.toNat))) ∧
        ∀ j, j < s.length.toNat - e → s.windowCell (e + j) ≠ access.addr.toNat) ∧
      (t.work = none → ∀ j, j < s.length.toNat - e → t.windowCell j = s.windowCell (e + j))

/-- 20_memory.md rule R59, the count and the place of the cells, before any push runs: without eviction the
arbiter's `n` is at most `C - length`; with eviction of `e` bytes it is `C - length + e`; of the `n` cells
from `tail` on, the first `C - length` are free, and the others are the `e` oldest cells of the valid window,
in their order. -/
def Obligations.CellsFromTailAreFreeOrOldest : Prop :=
  ∀ (s : State) (req : Nat), Inv s → s.constructed = true → req ≤ s.capacity.toNat →
    let C := s.capacity.toNat
    let n := (s.arbitrate req).1
    let e := (s.arbitrate req).2
    (e = 0 → n ≤ C - s.length.toNat) ∧ (0 < e → n = C - s.length.toNat + e) ∧
    (∀ k, k < n → k < C - s.length.toNat → ¬s.InWindow ((s.tail.toNat + k) % C)) ∧
    (∀ k, k < n → C - s.length.toNat ≤ k →
      k - (C - s.length.toNat) < e ∧
      (s.tail.toNat + k) % C = s.windowCell (k - (C - s.length.toNat)))

/-! ## Pop commands -/

/-- 43_pop.md rule R160: POP_BYTE. -/
def Obligations.PopByteRule : Prop :=
  ∀ s : State, Inv s →
    (s.constructed = false →
      exec .popByte s = .next { s with rsp := some (responseWord 0x4#4 .invalidArgument 0#16) }) ∧
    (s.constructed = true → s.length = 0#16 →
      exec .popByte s = .next { s with rsp := some (responseWord 0x4#4 .empty 0#16) }) ∧
    (s.constructed = true → s.length ≠ 0#16 →
      ∃ t, exec .popByte s = .next t ∧
      t = { s with
        head := toIdx ((s.head.toNat + 1) % s.capacity.toNat),
        length := toIdx (s.length.toNat - 1),
        peekCursor := toIdx ((s.head.toNat + 1) % s.capacity.toNat),
        peekLength := toIdx (s.length.toNat - 1),
        trace := s.trace ++ [⟨false, s.head, s.memRead s.head.toNat⟩],
        rsp := some (responseWord 0x4#4 .ok (BitVec.setWidth 16 (s.memRead s.head.toNat))) } ∧
      (∀ a, t.memRead a = s.memRead a) ∧
      t.stCount.toNat + 1 = s.stCount.toNat ∧ t.stAvail.toNat = s.stAvail.toNat + 1 ∧
      t.stFull = false ∧
      (s.length = 1#16 → t.stEmpty = true ∧ t.stPeekEmpty = true))

/-- 43_pop.md rule R161: POP_BYTES, when the consumer takes the bytes it will deliver. A zero request on a
queue that is not empty still resynchronises the peek window. -/
def Obligations.PopBytesRule : Prop :=
  ∀ (bufPresent : Bool) (requestedLength : Idx) (s : State), Inv s →
    (s.constructed = false ∨ bufPresent = false →
      exec (.popBytes bufPresent requestedLength) s =
        .next { s with rsp := some (responseWord 0x5#4 .invalidArgument 0#16) }) ∧
    (s.constructed = true → bufPresent = true → s.length = 0#16 →
      exec (.popBytes bufPresent requestedLength) s =
        .next { s with rsp := some (responseWord 0x5#4 .ok 0#16) }) ∧
    (s.constructed = true → bufPresent = true → s.length ≠ 0#16 →
      let C := s.capacity.toNat
      let n := min requestedLength.toNat s.length.toNat
      s.consumerTakes n = true →
      ∃ t, exec (.popBytes bufPresent requestedLength) s = .next t ∧
      t = { s with
        head := toIdx ((s.head.toNat + n) % C),
        length := toIdx (s.length.toNat - n),
        peekCursor := toIdx ((s.head.toNat + n) % C),
        peekLength := toIdx (s.length.toNat - n),
        work := none, doutLimit := s.doutLimitAfter n,
        dout := s.dout ++ (List.range n).map (fun k => s.memRead ((s.head.toNat + k) % C)),
        trace := s.trace ++ (List.range n).map (fun k =>
          ⟨false, toIdx ((s.head.toNat + k) % C), s.memRead ((s.head.toNat + k) % C)⟩),
        rsp := some (responseWord 0x5#4 .ok (toIdx n)) } ∧
      (∀ a, t.memRead a = s.memRead a) ∧
      t.stCount.toNat = s.stCount.toNat - n ∧ t.stAvail.toNat = s.stAvail.toNat + n ∧
      (0 < n → t.stFull = false) ∧
      (n = s.length.toNat → t.stEmpty = true ∧ t.stPeekEmpty = true))

/-! ## Peek commands -/

/-- 44_peek.md rule R170: PEEK_BYTE. -/
def Obligations.PeekByteRule : Prop :=
  ∀ s : State, Inv s →
    (s.constructed = false →
      exec .peekByte s = .next { s with rsp := some (responseWord 0x6#4 .invalidArgument 0#16) }) ∧
    (s.constructed = true → s.peekLength = 0#16 →
      exec .peekByte s = .next { s with rsp := some (responseWord 0x6#4 .empty 0#16) }) ∧
    (s.constructed = true → s.peekLength ≠ 0#16 →
      ∃ t, exec .peekByte s = .next t ∧
      t = { s with
        peekCursor := toIdx ((s.peekCursor.toNat + 1) % s.capacity.toNat),
        peekLength := toIdx (s.peekLength.toNat - 1),
        trace := s.trace ++ [⟨false, s.peekCursor, s.memRead s.peekCursor.toNat⟩],
        rsp := some (responseWord 0x6#4 .ok (BitVec.setWidth 16 (s.memRead s.peekCursor.toNat))) } ∧
      (∀ a, t.memRead a = s.memRead a) ∧
      (s.peekLength = 1#16 → t.stPeekEmpty = true) ∧
      t.stEmpty = s.stEmpty ∧ t.stFull = s.stFull ∧ t.stCount = s.stCount ∧ t.stAvail = s.stAvail)

/-- 44_peek.md rule R171: PEEK_BYTES, when the consumer takes the bytes it will deliver. -/
def Obligations.PeekBytesRule : Prop :=
  ∀ (bufPresent : Bool) (requestedLength : Idx) (s : State), Inv s →
    (s.constructed = false ∨ bufPresent = false →
      exec (.peekBytes bufPresent requestedLength) s =
        .next { s with rsp := some (responseWord 0x7#4 .invalidArgument 0#16) }) ∧
    (s.constructed = true → bufPresent = true → s.peekLength = 0#16 →
      exec (.peekBytes bufPresent requestedLength) s =
        .next { s with rsp := some (responseWord 0x7#4 .ok 0#16) }) ∧
    (s.constructed = true → bufPresent = true → s.peekLength ≠ 0#16 →
      let C := s.capacity.toNat
      let n := min requestedLength.toNat s.peekLength.toNat
      s.consumerTakes n = true →
      ∃ t, exec (.peekBytes bufPresent requestedLength) s = .next t ∧
      t = { s with
        peekCursor := toIdx ((s.peekCursor.toNat + n) % C),
        peekLength := toIdx (s.peekLength.toNat - n),
        work := none, doutLimit := s.doutLimitAfter n,
        dout := s.dout ++ (List.range n).map (fun k => s.memRead ((s.peekCursor.toNat + k) % C)),
        trace := s.trace ++ (List.range n).map (fun k =>
          ⟨false, toIdx ((s.peekCursor.toNat + k) % C), s.memRead ((s.peekCursor.toNat + k) % C)⟩),
        rsp := some (responseWord 0x7#4 .ok (toIdx n)) } ∧
      (∀ a, t.memRead a = s.memRead a) ∧
      (n = s.peekLength.toNat → t.stPeekEmpty = true) ∧
      t.stEmpty = s.stEmpty ∧ t.stFull = s.stFull ∧ t.stCount = s.stCount ∧ t.stAvail = s.stAvail)

/-- 20_memory.md rule R67 and 70_reset_and_hazards.md rule R244: a POP_BYTES or PEEK_BYTES of which the
consumer takes only `k` bytes delivers those, offers the next one, waits, and changes no register. (That
the byte offered has been read already, and no later one, is an inference from rule R67:
notes/assumptions/9.md.) -/
def Obligations.DeliveryWaitsForTheConsumer : Prop :=
  ∀ (requestedLength : Idx) (s : State) (k : Nat), Inv s → s.constructed = true →
    s.doutLimit = some k →
    let C := s.capacity.toNat
    (k < min requestedLength.toNat s.length.toNat →
      ∃ t w, exec (.popBytes true requestedLength) s = .next t ∧
        t = { s with
          work := some w, doutLimit := some 0,
          dout := s.dout ++ (List.range k).map (fun j => s.memRead ((s.head.toNat + j) % C)),
          trace := s.trace ++ (List.range (k + 1)).map (fun j =>
            ⟨false, toIdx ((s.head.toNat + j) % C), s.memRead ((s.head.toNat + j) % C)⟩) } ∧
        (∀ a, t.memRead a = s.memRead a) ∧ t.cmdReady = false ∧
        (s.rst = false → t.doutOffered = some (s.memRead ((s.head.toNat + k) % C)))) ∧
    (k < min requestedLength.toNat s.peekLength.toNat →
      ∃ t w, exec (.peekBytes true requestedLength) s = .next t ∧
        t = { s with
          work := some w, doutLimit := some 0,
          dout := s.dout ++ (List.range k).map (fun j => s.memRead ((s.peekCursor.toNat + j) % C)),
          trace := s.trace ++ (List.range (k + 1)).map (fun j =>
            ⟨false, toIdx ((s.peekCursor.toNat + j) % C),
              s.memRead ((s.peekCursor.toNat + j) % C)⟩) } ∧
        (∀ a, t.memRead a = s.memRead a) ∧ t.cmdReady = false ∧
        (s.rst = false → t.doutOffered = some (s.memRead ((s.peekCursor.toNat + k) % C))))

/-- 44_peek.md rule R172: RESET_PEEK, the rollback. -/
def Obligations.ResetPeekRule : Prop :=
  ∀ s : State,
    (s.constructed = false →
      exec .resetPeek s = .next { s with rsp := some (responseWord 0x8#4 .invalidArgument 0#16) }) ∧
    (s.constructed = true →
      ∃ t, exec .resetPeek s = .next t ∧
      t = { s with
        peekCursor := s.head, peekLength := s.length, rsp := some (responseWord 0x8#4 .ok 0#16) } ∧
      (∀ a, t.memRead a = s.memRead a) ∧
      t.stPeekEmpty = s.stEmpty ∧ t.stEmpty = s.stEmpty ∧ t.stFull = s.stFull ∧
      t.stCount = s.stCount ∧ t.stAvail = s.stAvail)

/-- 44_peek.md rule R173: COMMIT_PEEKED, the commit. -/
def Obligations.CommitPeekedRule : Prop :=
  ∀ s : State, Inv s →
    (s.constructed = false →
      exec .commitPeeked s = .next { s with rsp := some (responseWord 0x9#4 .invalidArgument 0#16) }) ∧
    (s.constructed = true →
      ∃ t, exec .commitPeeked s = .next t ∧
      t = { s with
        head := s.peekCursor, length := s.peekLength, rsp := some (responseWord 0x9#4 .ok 0#16) } ∧
      (∀ a, t.memRead a = s.memRead a) ∧
      t.peekOffset = 0 ∧
      t.stCount = s.peekLength ∧ t.stAvail.toNat = s.stAvail.toNat + s.peekOffset ∧
      t.stEmpty = s.stPeekEmpty ∧ (s.peekOffset ≠ 0 → t.stFull = false) ∧
      (s.peekOffset = 0 → t.head = s.head ∧ t.length = s.length) ∧
      t.tail.toNat = (t.head.toNat + t.length.toNat) % s.capacity.toNat)

/-- 44_peek.md rule R174: GET_PEEK_OFFSET answers `length - peek_length` and changes nothing else; the value
is at most `C`. -/
def Obligations.GetPeekOffsetRule : Prop :=
  ∀ s : State, Inv s →
    (s.constructed = false →
      exec .getPeekOffset s =
        .next { s with rsp := some (responseWord 0xA#4 .invalidArgument 0#16) }) ∧
    (s.constructed = true →
      ∃ (t : State) (v : Idx), exec .getPeekOffset s = .next t ∧
      t = { s with rsp := some (responseWord 0xA#4 .ok v) } ∧
      (∀ a, t.memRead a = s.memRead a) ∧
      v.toNat + s.peekLength.toNat = s.length.toNat ∧ v.toNat ≤ s.capacity.toNat ∧
      (s.length = s.capacity → s.peekLength = 0#16 → v = s.capacity))

/-- 44_peek.md rule R175: RESTORE_PEEK_OFFSET. -/
def Obligations.RestorePeekOffsetRule : Prop :=
  ∀ (count : Idx) (s : State), Inv s →
    (s.constructed = false ∨ s.length.toNat < count.toNat →
      exec (.restorePeekOffset count) s =
        .next { s with rsp := some (responseWord 0xB#4 .invalidArgument 0#16) }) ∧
    (s.constructed = true → count.toNat ≤ s.length.toNat →
      ∃ t, exec (.restorePeekOffset count) s = .next t ∧
      t = { s with
        peekCursor := toIdx ((s.head.toNat + count.toNat) % s.capacity.toNat),
        peekLength := toIdx (s.length.toNat - count.toNat),
        rsp := some (responseWord 0xB#4 .ok 0#16) } ∧
      (∀ a, t.memRead a = s.memRead a) ∧
      (t.stPeekEmpty = true ↔ count = s.length) ∧
      (count = 0#16 → t.peekCursor = s.head ∧ t.peekLength = s.length) ∧
      (count = s.length → t.peekCursor = s.tail ∧ t.peekLength = 0#16))

/-! ## Queries -/

/-- 45_query.md rules R190 to R193: IS_EMPTY, COUNT, AVAILABLE_COUNT and IS_PEEK_EMPTY answer from the
registers and change nothing else. -/
def Obligations.QueriesAnswerFromTheRegisters : Prop :=
  (∀ (i : Instr) (s : State), s.constructed = false →
    i = .isEmpty ∨ i = .count ∨ i = .availableCount ∨ i = .isPeekEmpty →
    exec i s = .next { s with rsp := some (responseWord i.opcode .invalidArgument 0#16) }) ∧
  (∀ s : State, Inv s → s.constructed = true →
    exec .isEmpty s = .next { s with
      rsp := some (responseWord 0xC#4 .ok (if s.length = 0#16 then 1#16 else 0#16)) } ∧
    exec .count s = .next { s with rsp := some (responseWord 0xD#4 .ok s.length) } ∧
    (∃ v : Idx, exec .availableCount s = .next { s with rsp := some (responseWord 0xE#4 .ok v) } ∧
      v.toNat + s.length.toNat = s.capacity.toNat) ∧
    exec .isPeekEmpty s = .next { s with
      rsp := some (responseWord 0xF#4 .ok (if s.peekLength = 0#16 then 1#16 else 0#16)) })

/-- 10_state.md rule R28: the six status outputs as functions of the registers, their values after
hardware reset, and that a step which does not complete a command or reset the controller changes none. -/
def Obligations.StatusOutputsFollowTheRegisters : Prop :=
  (∀ s : State, Inv s →
    s.stConstructed = s.constructed ∧ (s.stEmpty = true ↔ s.length = 0#16) ∧
    (s.stFull = true ↔ s.constructed = true ∧ s.length = s.capacity) ∧
    (s.stPeekEmpty = true ↔ s.peekLength = 0#16) ∧ s.stCount = s.length ∧
    s.stAvail.toNat + s.length.toNat = s.capacity.toNat) ∧
  (∀ s t : State, s.rst = true → step s = .next t →
    t.stConstructed = false ∧ t.stEmpty = true ∧ t.stFull = false ∧ t.stPeekEmpty = true ∧
    t.stCount = 0#16 ∧ t.stAvail = 0#16) ∧
  (∀ s t : State, s.rst = false → step s = .next t → t.rsp = none ∨ t.work ≠ none →
    t.stConstructed = s.stConstructed ∧ t.stEmpty = s.stEmpty ∧ t.stFull = s.stFull ∧
    t.stPeekEmpty = s.stPeekEmpty ∧ t.stCount = s.stCount ∧ t.stAvail = s.stAvail)

/-! ## The logical content -/

/-- 42_push.md rule R142: after a push that responds `OK` the valid window holds what it held, less its
first `e` bytes, followed by the first `n` bytes pushed; the peek offset is kept if nothing was evicted,
and 0 otherwise. -/
def Obligations.PushAppendsToTheContent : Prop :=
  (∀ (byte : Byte) (s t : State), Inv s → s.constructed = true →
    exec (.pushByte byte) s = .next t → t.rsp = some (responseWord 0x2#4 .ok 1#16) →
    t.content = s.content.drop (s.arbitrate 1).2 ++ [byte] ∧
    t.peekOffset = if (s.arbitrate 1).2 = 0 then s.peekOffset else 0) ∧
  (∀ (requestedLength : Idx) (s t : State), Inv s → s.constructed = true →
    exec (.pushBytes true requestedLength) s = .next t → t.work = none →
    let p := s.arbitrate (min requestedLength.toNat s.capacity.toNat)
    t.content = s.content.drop p.2 ++ s.din.take p.1 ∧
    t.peekOffset = if p.2 = 0 then s.peekOffset else 0)

/-- 43_pop.md rule R162: a pop that reads `n` bytes answers with the first `n` bytes of the content, in
order, and leaves the rest; the peek offset afterwards is 0. -/
def Obligations.PopTakesFromTheContent : Prop :=
  (∀ s t : State, Inv s → s.constructed = true → s.length ≠ 0#16 → exec .popByte s = .next t →
    ∃ b, s.content = b :: t.content ∧ t.peekOffset = 0 ∧
      t.rsp = some (responseWord 0x4#4 .ok (BitVec.setWidth 16 b))) ∧
  (∀ (requestedLength : Idx) (s t : State), Inv s → s.constructed = true → s.length ≠ 0#16 →
    exec (.popBytes true requestedLength) s = .next t → t.work = none →
    ∃ out, out.length = min requestedLength.toNat s.length.toNat ∧ s.content = out ++ t.content ∧
      t.dout = s.dout ++ out ∧ t.peekOffset = 0 ∧
      t.rsp = some (responseWord 0x5#4 .ok (toIdx out.length)))

/-- 44_peek.md rule R176(d): a peek of `n` bytes at offset `p` delivers the bytes `p` to `p + n - 1` of the
content, and the offset becomes `p + n`; the content does not change. -/
def Obligations.PeekReadsTheContentAtTheOffset : Prop :=
  (∀ s t : State, Inv s → s.constructed = true → s.peekLength ≠ 0#16 → exec .peekByte s = .next t →
    ∃ b, s.content[s.peekOffset]? = some b ∧ t.content = s.content ∧
      t.peekOffset = s.peekOffset + 1 ∧
      t.rsp = some (responseWord 0x6#4 .ok (BitVec.setWidth 16 b))) ∧
  (∀ (requestedLength : Idx) (s t : State), Inv s → s.constructed = true → s.peekLength ≠ 0#16 →
    exec (.peekBytes true requestedLength) s = .next t → t.work = none →
    let n := min requestedLength.toNat s.peekLength.toNat
    t.dout = s.dout ++ (s.content.drop s.peekOffset).take n ∧ t.content = s.content ∧
    t.peekOffset = s.peekOffset + n)

/-- 44_peek.md rule R176(a): any sequence of peeks followed by RESET_PEEK leaves `head`, `tail`, `length`
and every cell unchanged, and all five cursors as they were if nothing was peeked before. -/
def Obligations.PeeksThenRollbackChangeNothing : Prop :=
  ∀ (cs : List Command) (s : State),
    (∀ c ∈ cs, c.instr = .peekByte ∨ ∃ len, c.instr = .peekBytes true len) →
    (∀ c ∈ cs, c.data = []) →
    Inv s → s.constructed = true → s.work = none →
    ∃ t, runProgram (cs ++ [⟨.resetPeek, []⟩]) s = .next t ∧
      t.head = s.head ∧ t.tail = s.tail ∧ t.length = s.length ∧ (∀ a, t.memRead a = s.memRead a) ∧
      (s.peekLength = s.length → t.cursors = s.cursors)

/-- 44_peek.md rule R176(b): from peek offset 0, a PEEK_BYTES of `n` bytes, `1 ≤ n ≤ length`, and then
COMMIT_PEEKED leave the same registers and storage as POP_BYTES of `n`, and deliver the same bytes. -/
def Obligations.PeekThenCommitIsPop : Prop :=
  ∀ (n : Idx) (s : State), Inv s → s.constructed = true → s.work = none → s.doutLimit = none →
    s.peekLength = s.length → n ≠ 0#16 → n.toNat ≤ s.length.toNat →
    ∃ t1 t2 t3, exec (.peekBytes true n) s = .next t1 ∧ exec .commitPeeked t1 = .next t2 ∧
      exec (.popBytes true n) s = .next t3 ∧
      t2.cursors = t3.cursors ∧ t2.storage = t3.storage ∧ t2.dout = t3.dout ∧
      t2.capacity = t3.capacity ∧ t2.overwriteEnabled = t3.overwriteEnabled ∧
      t2.constructed = t3.constructed

/-- 44_peek.md rule R176(c): GET_PEEK_OFFSET immediately followed by RESTORE_PEEK_OFFSET with that same value
is a no-op on the registers, in every well-formed state. -/
def Obligations.CheckpointThenRestoreIsNoOp : Prop :=
  ∀ s : State, Inv s → s.constructed = true →
    ∃ (v : Idx) (t u : State), exec .getPeekOffset s = .next t ∧
      t.rsp = some (responseWord 0xA#4 .ok v) ∧
      exec (.restorePeekOffset v) t = .next u ∧ u.cursors = s.cursors ∧ u.storage = s.storage ∧
      u.rsp = some (responseWord 0xB#4 .ok 0#16)

/-- 20_memory.md rules R57 and R58: in every step each new access is to a cell below `C`; each read is of a
cell in the valid window that the controller has written, and gives the byte written; and the next state's
window is written again. So no byte of the storage's initial content is ever delivered. -/
def Obligations.ReadsStayInTheWrittenWindow : Prop :=
  WindowWritten State.reset ∧
  ∀ s t : State, Inv s → WindowWritten s → step s = .next t →
    WindowWritten t ∧
    ∃ new, t.trace = s.trace ++ new ∧ ∀ a ∈ new, a.addr.toNat < s.capacity.toNat ∧
      (a.we = false →
        s.InWindow a.addr.toNat ∧ s.storage.read? a.addr.toNat = some a.data)

/-! ## The bounded queue -/

/-- 43_pop.md rule R162: to an observer the controller is a bounded queue of bytes: each command, when the
host does its stream duties, does to the content and the peek offset what it does to the queue, and answers
what the queue answers. -/
def Obligations.CommandsActAsOnABoundedQueue : Prop :=
  ∀ (i : Instr) (s : State), Inv s → s.constructed = true → s.work = none →
    s.streamsServe i = true →
    ∃ t, exec i s = .next t ∧ t.constructed = true ∧ t.work = none ∧
      t.fifo = (s.fifo.command i s.din).1 ∧
      t.rsp = some (responseWord i.opcode (s.fifo.command i s.din).2.status
        (toIdx (s.fifo.command i s.din).2.value)) ∧
      t.dout = s.dout ++ (s.fifo.command i s.din).2.out

/-- 43_pop.md rule R162 over whole programs: a program of well-formed commands on a constructed controller
leaves the content, the responses and the bytes delivered that the bounded queue gives, every response
taken. -/
def Obligations.ProgramsRunAsOnABoundedQueue : Prop :=
  ∀ (cs : List Command) (s : State), (∀ c ∈ cs, c.wellFormed = true) →
    Inv s → s.constructed = true → s.work = none →
    ∃ t, runProgram cs s = .next t ∧ Inv t ∧ t.constructed = true ∧ t.work = none ∧
      t.fifo = (s.fifo.run cs).1 ∧ t.rsp = none ∧
      t.rspLog = s.rspLog ++ s.rsp.toList ++ (s.fifo.run cs).2.1 ∧
      t.dout = s.dout ++ (s.fifo.run cs).2.2

/-- 42_push.md rule R142, the overwrite policy: of bytes pushed one at a time, with overwrite enabled the
last `C` of all that were queued or pushed remain, and with overwrite disabled the first `C`. -/
def Obligations.OverwriteKeepsTheLatestBytes : Prop :=
  ∀ (bytes : List Byte) (s : State), Inv s → s.constructed = true → s.work = none →
    ∃ t, runProgram (bytes.map fun b => ⟨.pushByte b, []⟩) s = .next t ∧
      (s.overwriteEnabled = true →
        t.content = (s.content ++ bytes).drop
          (s.length.toNat + bytes.length - s.capacity.toNat)) ∧
      (s.overwriteEnabled = false →
        t.content = (s.content ++ bytes).take s.capacity.toNat)
end

