-- ==== Sys2Proof/Laws/State.lean ====
section
/-!
SUPPORT. One lemma for each field and each named update of the state, so that no proof unfolds a record
update; then the same for the runs of writes, and what the updates leave of the derived views.
-/

namespace Sys2Proof.Machine

/-! ## `withCursors` -/

@[simp] theorem State.withCursors_constructed (s : State) (c : Cursors) :
    (s.withCursors c).constructed = s.constructed := rfl

@[simp] theorem State.withCursors_capacity (s : State) (c : Cursors) :
    (s.withCursors c).capacity = s.capacity := rfl

@[simp] theorem State.withCursors_overwriteEnabled (s : State) (c : Cursors) :
    (s.withCursors c).overwriteEnabled = s.overwriteEnabled := rfl

@[simp] theorem State.withCursors_head (s : State) (c : Cursors) :
    (s.withCursors c).head = c.head := rfl

@[simp] theorem State.withCursors_tail (s : State) (c : Cursors) :
    (s.withCursors c).tail = c.tail := rfl

@[simp] theorem State.withCursors_length (s : State) (c : Cursors) :
    (s.withCursors c).length = c.length := rfl

@[simp] theorem State.withCursors_peekCursor (s : State) (c : Cursors) :
    (s.withCursors c).peekCursor = c.peekCursor := rfl

@[simp] theorem State.withCursors_peekLength (s : State) (c : Cursors) :
    (s.withCursors c).peekLength = c.peekLength := rfl

@[simp] theorem State.withCursors_storage (s : State) (c : Cursors) :
    (s.withCursors c).storage = s.storage := rfl

@[simp] theorem State.withCursors_work (s : State) (c : Cursors) :
    (s.withCursors c).work = s.work := rfl

@[simp] theorem State.withCursors_rst (s : State) (c : Cursors) :
    (s.withCursors c).rst = s.rst := rfl

@[simp] theorem State.withCursors_cmds (s : State) (c : Cursors) :
    (s.withCursors c).cmds = s.cmds := rfl

@[simp] theorem State.withCursors_din (s : State) (c : Cursors) :
    (s.withCursors c).din = s.din := rfl

@[simp] theorem State.withCursors_rspReady (s : State) (c : Cursors) :
    (s.withCursors c).rspReady = s.rspReady := rfl

@[simp] theorem State.withCursors_doutLimit (s : State) (c : Cursors) :
    (s.withCursors c).doutLimit = s.doutLimit := rfl

@[simp] theorem State.withCursors_rsp (s : State) (c : Cursors) :
    (s.withCursors c).rsp = s.rsp := rfl

@[simp] theorem State.withCursors_rspLog (s : State) (c : Cursors) :
    (s.withCursors c).rspLog = s.rspLog := rfl

@[simp] theorem State.withCursors_dout (s : State) (c : Cursors) :
    (s.withCursors c).dout = s.dout := rfl

@[simp] theorem State.withCursors_trace (s : State) (c : Cursors) :
    (s.withCursors c).trace = s.trace := rfl

/-! ## `respond` -/

@[simp] theorem State.respond_constructed (s : State) (op : BitVec 4) (st : Status) (v : Idx) :
    (s.respond op st v).constructed = s.constructed := rfl

@[simp] theorem State.respond_capacity (s : State) (op : BitVec 4) (st : Status) (v : Idx) :
    (s.respond op st v).capacity = s.capacity := rfl

@[simp] theorem State.respond_overwriteEnabled (s : State) (op : BitVec 4) (st : Status) (v : Idx) :
    (s.respond op st v).overwriteEnabled = s.overwriteEnabled := rfl

@[simp] theorem State.respond_head (s : State) (op : BitVec 4) (st : Status) (v : Idx) :
    (s.respond op st v).head = s.head := rfl

@[simp] theorem State.respond_tail (s : State) (op : BitVec 4) (st : Status) (v : Idx) :
    (s.respond op st v).tail = s.tail := rfl

@[simp] theorem State.respond_length (s : State) (op : BitVec 4) (st : Status) (v : Idx) :
    (s.respond op st v).length = s.length := rfl

@[simp] theorem State.respond_peekCursor (s : State) (op : BitVec 4) (st : Status) (v : Idx) :
    (s.respond op st v).peekCursor = s.peekCursor := rfl

@[simp] theorem State.respond_peekLength (s : State) (op : BitVec 4) (st : Status) (v : Idx) :
    (s.respond op st v).peekLength = s.peekLength := rfl

@[simp] theorem State.respond_storage (s : State) (op : BitVec 4) (st : Status) (v : Idx) :
    (s.respond op st v).storage = s.storage := rfl

@[simp] theorem State.respond_work (s : State) (op : BitVec 4) (st : Status) (v : Idx) :
    (s.respond op st v).work = s.work := rfl

@[simp] theorem State.respond_rst (s : State) (op : BitVec 4) (st : Status) (v : Idx) :
    (s.respond op st v).rst = s.rst := rfl

@[simp] theorem State.respond_cmds (s : State) (op : BitVec 4) (st : Status) (v : Idx) :
    (s.respond op st v).cmds = s.cmds := rfl

@[simp] theorem State.respond_din (s : State) (op : BitVec 4) (st : Status) (v : Idx) :
    (s.respond op st v).din = s.din := rfl

@[simp] theorem State.respond_rspReady (s : State) (op : BitVec 4) (st : Status) (v : Idx) :
    (s.respond op st v).rspReady = s.rspReady := rfl

@[simp] theorem State.respond_doutLimit (s : State) (op : BitVec 4) (st : Status) (v : Idx) :
    (s.respond op st v).doutLimit = s.doutLimit := rfl

@[simp] theorem State.respond_rsp (s : State) (op : BitVec 4) (st : Status) (v : Idx) :
    (s.respond op st v).rsp = some (responseWord op st v) := rfl

@[simp] theorem State.respond_rspLog (s : State) (op : BitVec 4) (st : Status) (v : Idx) :
    (s.respond op st v).rspLog = s.rspLog := rfl

@[simp] theorem State.respond_dout (s : State) (op : BitVec 4) (st : Status) (v : Idx) :
    (s.respond op st v).dout = s.dout := rfl

@[simp] theorem State.respond_trace (s : State) (op : BitVec 4) (st : Status) (v : Idx) :
    (s.respond op st v).trace = s.trace := rfl

/-! ## `memWrite` -/

@[simp] theorem State.memWrite_constructed (s : State) (i : Nat) (b : Byte) :
    (s.memWrite i b).constructed = s.constructed := rfl

@[simp] theorem State.memWrite_capacity (s : State) (i : Nat) (b : Byte) :
    (s.memWrite i b).capacity = s.capacity := rfl

@[simp] theorem State.memWrite_overwriteEnabled (s : State) (i : Nat) (b : Byte) :
    (s.memWrite i b).overwriteEnabled = s.overwriteEnabled := rfl

@[simp] theorem State.memWrite_head (s : State) (i : Nat) (b : Byte) :
    (s.memWrite i b).head = s.head := rfl

@[simp] theorem State.memWrite_tail (s : State) (i : Nat) (b : Byte) :
    (s.memWrite i b).tail = s.tail := rfl

@[simp] theorem State.memWrite_length (s : State) (i : Nat) (b : Byte) :
    (s.memWrite i b).length = s.length := rfl

@[simp] theorem State.memWrite_peekCursor (s : State) (i : Nat) (b : Byte) :
    (s.memWrite i b).peekCursor = s.peekCursor := rfl

@[simp] theorem State.memWrite_peekLength (s : State) (i : Nat) (b : Byte) :
    (s.memWrite i b).peekLength = s.peekLength := rfl

@[simp] theorem State.memWrite_storage (s : State) (i : Nat) (b : Byte) :
    (s.memWrite i b).storage = s.storage.write i b := rfl

@[simp] theorem State.memWrite_work (s : State) (i : Nat) (b : Byte) :
    (s.memWrite i b).work = s.work := rfl

@[simp] theorem State.memWrite_rst (s : State) (i : Nat) (b : Byte) :
    (s.memWrite i b).rst = s.rst := rfl

@[simp] theorem State.memWrite_cmds (s : State) (i : Nat) (b : Byte) :
    (s.memWrite i b).cmds = s.cmds := rfl

@[simp] theorem State.memWrite_din (s : State) (i : Nat) (b : Byte) :
    (s.memWrite i b).din = s.din := rfl

@[simp] theorem State.memWrite_rspReady (s : State) (i : Nat) (b : Byte) :
    (s.memWrite i b).rspReady = s.rspReady := rfl

@[simp] theorem State.memWrite_doutLimit (s : State) (i : Nat) (b : Byte) :
    (s.memWrite i b).doutLimit = s.doutLimit := rfl

@[simp] theorem State.memWrite_rsp (s : State) (i : Nat) (b : Byte) :
    (s.memWrite i b).rsp = s.rsp := rfl

@[simp] theorem State.memWrite_rspLog (s : State) (i : Nat) (b : Byte) :
    (s.memWrite i b).rspLog = s.rspLog := rfl

@[simp] theorem State.memWrite_dout (s : State) (i : Nat) (b : Byte) :
    (s.memWrite i b).dout = s.dout := rfl

@[simp] theorem State.memWrite_trace (s : State) (i : Nat) (b : Byte) :
    (s.memWrite i b).trace = s.trace ++ [⟨true, toIdx i, b⟩] := rfl

/-! ## `readCells` -/

@[simp] theorem State.readCells_constructed (s : State) (cells : List Nat) :
    (s.readCells cells).constructed = s.constructed := rfl

@[simp] theorem State.readCells_capacity (s : State) (cells : List Nat) :
    (s.readCells cells).capacity = s.capacity := rfl

@[simp] theorem State.readCells_overwriteEnabled (s : State) (cells : List Nat) :
    (s.readCells cells).overwriteEnabled = s.overwriteEnabled := rfl

@[simp] theorem State.readCells_head (s : State) (cells : List Nat) :
    (s.readCells cells).head = s.head := rfl

@[simp] theorem State.readCells_tail (s : State) (cells : List Nat) :
    (s.readCells cells).tail = s.tail := rfl

@[simp] theorem State.readCells_length (s : State) (cells : List Nat) :
    (s.readCells cells).length = s.length := rfl

@[simp] theorem State.readCells_peekCursor (s : State) (cells : List Nat) :
    (s.readCells cells).peekCursor = s.peekCursor := rfl

@[simp] theorem State.readCells_peekLength (s : State) (cells : List Nat) :
    (s.readCells cells).peekLength = s.peekLength := rfl

@[simp] theorem State.readCells_storage (s : State) (cells : List Nat) :
    (s.readCells cells).storage = s.storage := rfl

@[simp] theorem State.readCells_work (s : State) (cells : List Nat) :
    (s.readCells cells).work = s.work := rfl

@[simp] theorem State.readCells_rst (s : State) (cells : List Nat) :
    (s.readCells cells).rst = s.rst := rfl

@[simp] theorem State.readCells_cmds (s : State) (cells : List Nat) :
    (s.readCells cells).cmds = s.cmds := rfl

@[simp] theorem State.readCells_din (s : State) (cells : List Nat) :
    (s.readCells cells).din = s.din := rfl

@[simp] theorem State.readCells_rspReady (s : State) (cells : List Nat) :
    (s.readCells cells).rspReady = s.rspReady := rfl

@[simp] theorem State.readCells_doutLimit (s : State) (cells : List Nat) :
    (s.readCells cells).doutLimit = s.doutLimit := rfl

@[simp] theorem State.readCells_rsp (s : State) (cells : List Nat) :
    (s.readCells cells).rsp = s.rsp := rfl

@[simp] theorem State.readCells_rspLog (s : State) (cells : List Nat) :
    (s.readCells cells).rspLog = s.rspLog := rfl

@[simp] theorem State.readCells_dout (s : State) (cells : List Nat) :
    (s.readCells cells).dout = s.dout := rfl

@[simp] theorem State.readCells_trace (s : State) (cells : List Nat) :
    (s.readCells cells).trace = s.trace ++ cells.map (fun i => ⟨false, toIdx i, s.memRead i⟩) := rfl

/-! ## `takeResponse` -/

@[simp] theorem State.takeResponse_constructed (s : State) :
    (s.takeResponse).constructed = s.constructed := rfl

@[simp] theorem State.takeResponse_capacity (s : State) :
    (s.takeResponse).capacity = s.capacity := rfl

@[simp] theorem State.takeResponse_overwriteEnabled (s : State) :
    (s.takeResponse).overwriteEnabled = s.overwriteEnabled := rfl

@[simp] theorem State.takeResponse_head (s : State) :
    (s.takeResponse).head = s.head := rfl

@[simp] theorem State.takeResponse_tail (s : State) :
    (s.takeResponse).tail = s.tail := rfl

@[simp] theorem State.takeResponse_length (s : State) :
    (s.takeResponse).length = s.length := rfl

@[simp] theorem State.takeResponse_peekCursor (s : State) :
    (s.takeResponse).peekCursor = s.peekCursor := rfl

@[simp] theorem State.takeResponse_peekLength (s : State) :
    (s.takeResponse).peekLength = s.peekLength := rfl

@[simp] theorem State.takeResponse_storage (s : State) :
    (s.takeResponse).storage = s.storage := rfl

@[simp] theorem State.takeResponse_work (s : State) :
    (s.takeResponse).work = s.work := rfl

@[simp] theorem State.takeResponse_rst (s : State) :
    (s.takeResponse).rst = s.rst := rfl

@[simp] theorem State.takeResponse_cmds (s : State) :
    (s.takeResponse).cmds = s.cmds := rfl

@[simp] theorem State.takeResponse_din (s : State) :
    (s.takeResponse).din = s.din := rfl

@[simp] theorem State.takeResponse_rspReady (s : State) :
    (s.takeResponse).rspReady = s.rspReady := rfl

@[simp] theorem State.takeResponse_doutLimit (s : State) :
    (s.takeResponse).doutLimit = s.doutLimit := rfl

@[simp] theorem State.takeResponse_rsp (s : State) :
    (s.takeResponse).rsp = none := rfl

@[simp] theorem State.takeResponse_rspLog (s : State) :
    (s.takeResponse).rspLog = s.rspLog ++ s.rsp.toList := rfl

@[simp] theorem State.takeResponse_dout (s : State) :
    (s.takeResponse).dout = s.dout := rfl

@[simp] theorem State.takeResponse_trace (s : State) :
    (s.takeResponse).trace = s.trace := rfl

/-! ## `hardwareReset` -/

@[simp] theorem State.hardwareReset_constructed (s : State) :
    (s.hardwareReset).constructed = false := rfl

@[simp] theorem State.hardwareReset_capacity (s : State) :
    (s.hardwareReset).capacity = 0#16 := rfl

@[simp] theorem State.hardwareReset_overwriteEnabled (s : State) :
    (s.hardwareReset).overwriteEnabled = false := rfl

@[simp] theorem State.hardwareReset_head (s : State) :
    (s.hardwareReset).head = 0#16 := rfl

@[simp] theorem State.hardwareReset_tail (s : State) :
    (s.hardwareReset).tail = 0#16 := rfl

@[simp] theorem State.hardwareReset_length (s : State) :
    (s.hardwareReset).length = 0#16 := rfl

@[simp] theorem State.hardwareReset_peekCursor (s : State) :
    (s.hardwareReset).peekCursor = 0#16 := rfl

@[simp] theorem State.hardwareReset_peekLength (s : State) :
    (s.hardwareReset).peekLength = 0#16 := rfl

@[simp] theorem State.hardwareReset_storage (s : State) :
    (s.hardwareReset).storage = s.storage := rfl

@[simp] theorem State.hardwareReset_work (s : State) :
    (s.hardwareReset).work = none := rfl

@[simp] theorem State.hardwareReset_rst (s : State) :
    (s.hardwareReset).rst = s.rst := rfl

@[simp] theorem State.hardwareReset_cmds (s : State) :
    (s.hardwareReset).cmds = s.cmds := rfl

@[simp] theorem State.hardwareReset_din (s : State) :
    (s.hardwareReset).din = s.din := rfl

@[simp] theorem State.hardwareReset_rspReady (s : State) :
    (s.hardwareReset).rspReady = s.rspReady := rfl

@[simp] theorem State.hardwareReset_doutLimit (s : State) :
    (s.hardwareReset).doutLimit = s.doutLimit := rfl

@[simp] theorem State.hardwareReset_rsp (s : State) :
    (s.hardwareReset).rsp = none := rfl

@[simp] theorem State.hardwareReset_rspLog (s : State) :
    (s.hardwareReset).rspLog = s.rspLog := rfl

@[simp] theorem State.hardwareReset_dout (s : State) :
    (s.hardwareReset).dout = s.dout := rfl

@[simp] theorem State.hardwareReset_trace (s : State) :
    (s.hardwareReset).trace = s.trace := rfl

/-! ## `offerWord` -/

@[simp] theorem State.offerWord_constructed (s : State) (word : CmdWord) :
    (s.offerWord word).constructed = s.constructed := rfl

@[simp] theorem State.offerWord_capacity (s : State) (word : CmdWord) :
    (s.offerWord word).capacity = s.capacity := rfl

@[simp] theorem State.offerWord_overwriteEnabled (s : State) (word : CmdWord) :
    (s.offerWord word).overwriteEnabled = s.overwriteEnabled := rfl

@[simp] theorem State.offerWord_head (s : State) (word : CmdWord) :
    (s.offerWord word).head = s.head := rfl

@[simp] theorem State.offerWord_tail (s : State) (word : CmdWord) :
    (s.offerWord word).tail = s.tail := rfl

@[simp] theorem State.offerWord_length (s : State) (word : CmdWord) :
    (s.offerWord word).length = s.length := rfl

@[simp] theorem State.offerWord_peekCursor (s : State) (word : CmdWord) :
    (s.offerWord word).peekCursor = s.peekCursor := rfl

@[simp] theorem State.offerWord_peekLength (s : State) (word : CmdWord) :
    (s.offerWord word).peekLength = s.peekLength := rfl

@[simp] theorem State.offerWord_storage (s : State) (word : CmdWord) :
    (s.offerWord word).storage = s.storage := rfl

@[simp] theorem State.offerWord_work (s : State) (word : CmdWord) :
    (s.offerWord word).work = none := rfl

@[simp] theorem State.offerWord_rst (s : State) (word : CmdWord) :
    (s.offerWord word).rst = false := rfl

@[simp] theorem State.offerWord_cmds (s : State) (word : CmdWord) :
    (s.offerWord word).cmds = word :: s.cmds := rfl

@[simp] theorem State.offerWord_din (s : State) (word : CmdWord) :
    (s.offerWord word).din = s.din := rfl

@[simp] theorem State.offerWord_rspReady (s : State) (word : CmdWord) :
    (s.offerWord word).rspReady = s.rspReady := rfl

@[simp] theorem State.offerWord_doutLimit (s : State) (word : CmdWord) :
    (s.offerWord word).doutLimit = s.doutLimit := rfl

@[simp] theorem State.offerWord_rsp (s : State) (word : CmdWord) :
    (s.offerWord word).rsp = none := rfl

@[simp] theorem State.offerWord_rspLog (s : State) (word : CmdWord) :
    (s.offerWord word).rspLog = s.rspLog := rfl

@[simp] theorem State.offerWord_dout (s : State) (word : CmdWord) :
    (s.offerWord word).dout = s.dout := rfl

@[simp] theorem State.offerWord_trace (s : State) (word : CmdWord) :
    (s.offerWord word).trace = s.trace := rfl

/-! ## `accepted` -/

@[simp] theorem State.accepted_constructed (s : State) (rest : List CmdWord) :
    (s.accepted rest).constructed = s.constructed := rfl

@[simp] theorem State.accepted_capacity (s : State) (rest : List CmdWord) :
    (s.accepted rest).capacity = s.capacity := rfl

@[simp] theorem State.accepted_overwriteEnabled (s : State) (rest : List CmdWord) :
    (s.accepted rest).overwriteEnabled = s.overwriteEnabled := rfl

@[simp] theorem State.accepted_head (s : State) (rest : List CmdWord) :
    (s.accepted rest).head = s.head := rfl

@[simp] theorem State.accepted_tail (s : State) (rest : List CmdWord) :
    (s.accepted rest).tail = s.tail := rfl

@[simp] theorem State.accepted_length (s : State) (rest : List CmdWord) :
    (s.accepted rest).length = s.length := rfl

@[simp] theorem State.accepted_peekCursor (s : State) (rest : List CmdWord) :
    (s.accepted rest).peekCursor = s.peekCursor := rfl

@[simp] theorem State.accepted_peekLength (s : State) (rest : List CmdWord) :
    (s.accepted rest).peekLength = s.peekLength := rfl

@[simp] theorem State.accepted_storage (s : State) (rest : List CmdWord) :
    (s.accepted rest).storage = s.storage := rfl

@[simp] theorem State.accepted_work (s : State) (rest : List CmdWord) :
    (s.accepted rest).work = s.work := rfl

@[simp] theorem State.accepted_rst (s : State) (rest : List CmdWord) :
    (s.accepted rest).rst = s.rst := rfl

@[simp] theorem State.accepted_cmds (s : State) (rest : List CmdWord) :
    (s.accepted rest).cmds = rest := rfl

@[simp] theorem State.accepted_din (s : State) (rest : List CmdWord) :
    (s.accepted rest).din = s.din := rfl

@[simp] theorem State.accepted_rspReady (s : State) (rest : List CmdWord) :
    (s.accepted rest).rspReady = s.rspReady := rfl

@[simp] theorem State.accepted_doutLimit (s : State) (rest : List CmdWord) :
    (s.accepted rest).doutLimit = s.doutLimit := rfl

@[simp] theorem State.accepted_rsp (s : State) (rest : List CmdWord) :
    (s.accepted rest).rsp = none := rfl

@[simp] theorem State.accepted_rspLog (s : State) (rest : List CmdWord) :
    (s.accepted rest).rspLog = s.rspLog ++ s.rsp.toList := rfl

@[simp] theorem State.accepted_dout (s : State) (rest : List CmdWord) :
    (s.accepted rest).dout = s.dout := rfl

@[simp] theorem State.accepted_trace (s : State) (rest : List CmdWord) :
    (s.accepted rest).trace = s.trace := rfl

/-! ## `writeCells`: only the storage and the trace change -/

@[simp] theorem State.writeCells_constructed (ws : List (Nat × Byte)) (s : State) :
    (State.writeCells ws s).constructed = s.constructed := by
  induction ws generalizing s with
  | nil => rfl
  | cons w ws ih => obtain ⟨i, b⟩ := w; simp [State.writeCells, ih]

@[simp] theorem State.writeCells_capacity (ws : List (Nat × Byte)) (s : State) :
    (State.writeCells ws s).capacity = s.capacity := by
  induction ws generalizing s with
  | nil => rfl
  | cons w ws ih => obtain ⟨i, b⟩ := w; simp [State.writeCells, ih]

@[simp] theorem State.writeCells_overwriteEnabled (ws : List (Nat × Byte)) (s : State) :
    (State.writeCells ws s).overwriteEnabled = s.overwriteEnabled := by
  induction ws generalizing s with
  | nil => rfl
  | cons w ws ih => obtain ⟨i, b⟩ := w; simp [State.writeCells, ih]

@[simp] theorem State.writeCells_head (ws : List (Nat × Byte)) (s : State) :
    (State.writeCells ws s).head = s.head := by
  induction ws generalizing s with
  | nil => rfl
  | cons w ws ih => obtain ⟨i, b⟩ := w; simp [State.writeCells, ih]

@[simp] theorem State.writeCells_tail (ws : List (Nat × Byte)) (s : State) :
    (State.writeCells ws s).tail = s.tail := by
  induction ws generalizing s with
  | nil => rfl
  | cons w ws ih => obtain ⟨i, b⟩ := w; simp [State.writeCells, ih]

@[simp] theorem State.writeCells_length (ws : List (Nat × Byte)) (s : State) :
    (State.writeCells ws s).length = s.length := by
  induction ws generalizing s with
  | nil => rfl
  | cons w ws ih => obtain ⟨i, b⟩ := w; simp [State.writeCells, ih]

@[simp] theorem State.writeCells_peekCursor (ws : List (Nat × Byte)) (s : State) :
    (State.writeCells ws s).peekCursor = s.peekCursor := by
  induction ws generalizing s with
  | nil => rfl
  | cons w ws ih => obtain ⟨i, b⟩ := w; simp [State.writeCells, ih]

@[simp] theorem State.writeCells_peekLength (ws : List (Nat × Byte)) (s : State) :
    (State.writeCells ws s).peekLength = s.peekLength := by
  induction ws generalizing s with
  | nil => rfl
  | cons w ws ih => obtain ⟨i, b⟩ := w; simp [State.writeCells, ih]

@[simp] theorem State.writeCells_work (ws : List (Nat × Byte)) (s : State) :
    (State.writeCells ws s).work = s.work := by
  induction ws generalizing s with
  | nil => rfl
  | cons w ws ih => obtain ⟨i, b⟩ := w; simp [State.writeCells, ih]

@[simp] theorem State.writeCells_rst (ws : List (Nat × Byte)) (s : State) :
    (State.writeCells ws s).rst = s.rst := by
  induction ws generalizing s with
  | nil => rfl
  | cons w ws ih => obtain ⟨i, b⟩ := w; simp [State.writeCells, ih]

@[simp] theorem State.writeCells_cmds (ws : List (Nat × Byte)) (s : State) :
    (State.writeCells ws s).cmds = s.cmds := by
  induction ws generalizing s with
  | nil => rfl
  | cons w ws ih => obtain ⟨i, b⟩ := w; simp [State.writeCells, ih]

@[simp] theorem State.writeCells_din (ws : List (Nat × Byte)) (s : State) :
    (State.writeCells ws s).din = s.din := by
  induction ws generalizing s with
  | nil => rfl
  | cons w ws ih => obtain ⟨i, b⟩ := w; simp [State.writeCells, ih]

@[simp] theorem State.writeCells_rspReady (ws : List (Nat × Byte)) (s : State) :
    (State.writeCells ws s).rspReady = s.rspReady := by
  induction ws generalizing s with
  | nil => rfl
  | cons w ws ih => obtain ⟨i, b⟩ := w; simp [State.writeCells, ih]

@[simp] theorem State.writeCells_doutLimit (ws : List (Nat × Byte)) (s : State) :
    (State.writeCells ws s).doutLimit = s.doutLimit := by
  induction ws generalizing s with
  | nil => rfl
  | cons w ws ih => obtain ⟨i, b⟩ := w; simp [State.writeCells, ih]

@[simp] theorem State.writeCells_rsp (ws : List (Nat × Byte)) (s : State) :
    (State.writeCells ws s).rsp = s.rsp := by
  induction ws generalizing s with
  | nil => rfl
  | cons w ws ih => obtain ⟨i, b⟩ := w; simp [State.writeCells, ih]

@[simp] theorem State.writeCells_rspLog (ws : List (Nat × Byte)) (s : State) :
    (State.writeCells ws s).rspLog = s.rspLog := by
  induction ws generalizing s with
  | nil => rfl
  | cons w ws ih => obtain ⟨i, b⟩ := w; simp [State.writeCells, ih]

@[simp] theorem State.writeCells_dout (ws : List (Nat × Byte)) (s : State) :
    (State.writeCells ws s).dout = s.dout := by
  induction ws generalizing s with
  | nil => rfl
  | cons w ws ih => obtain ⟨i, b⟩ := w; simp [State.writeCells, ih]

/-! ## Derived views -/

@[simp] theorem State.cursors_withCursors (s : State) (c : Cursors) : (s.withCursors c).cursors = c := rfl

@[simp] theorem State.cursors_respond (s : State) (op : BitVec 4) (st : Status) (v : Idx) :
    (s.respond op st v).cursors = s.cursors := rfl

@[simp] theorem State.cursors_memWrite (s : State) (i : Nat) (b : Byte) :
    (s.memWrite i b).cursors = s.cursors := rfl

@[simp] theorem State.cursors_readCells (s : State) (cells : List Nat) :
    (s.readCells cells).cursors = s.cursors := rfl

@[simp] theorem State.cursors_takeResponse (s : State) : s.takeResponse.cursors = s.cursors := rfl

@[simp] theorem State.cursors_writeCells (ws : List (Nat × Byte)) (s : State) :
    (State.writeCells ws s).cursors = s.cursors := by
  simp [State.cursors]

@[simp] theorem State.memRead_withCursors (s : State) (c : Cursors) (a : Nat) :
    (s.withCursors c).memRead a = s.memRead a := rfl

@[simp] theorem State.memRead_respond (s : State) (op : BitVec 4) (st : Status) (v : Idx) (a : Nat) :
    (s.respond op st v).memRead a = s.memRead a := rfl

@[simp] theorem State.memRead_readCells (s : State) (cells : List Nat) (a : Nat) :
    (s.readCells cells).memRead a = s.memRead a := rfl

@[simp] theorem State.memRead_hardwareReset (s : State) (a : Nat) :
    s.hardwareReset.memRead a = s.memRead a := rfl

end Sys2Proof.Machine
end

