-- ==== Sys2Proof/Laws/Memory.lean ====
section
/-!
SUPPORT. The laws of the storage: a read after a write, the canonical form, and the runs of writes that
a push performs.
-/

namespace Sys2Proof.Machine

/-! ## One write -/

theorem Memory.read?_write (m : Memory) (a : Nat) (b : Byte) (x : Nat) :
    (m.write a b).read? x = if x = a then some b else m.read? x := by
  induction m with
  | nil => simp [Memory.write, Memory.read?]
  | cons cell m ih =>
    obtain ⟨a', b'⟩ := cell
    by_cases hlt : a < a'
    · by_cases h : x = a <;> simp [Memory.write, Memory.read?, hlt, h]
    · by_cases heq : a = a'
      · subst heq
        by_cases h : x = a <;> simp [Memory.write, Memory.read?, h]
      · have e : Memory.write ((a', b') :: m) a b = (a', b') :: Memory.write m a b := by
          simp [Memory.write, hlt, heq]
        rw [e]
        by_cases h : x = a'
        · have : x ≠ a := fun hx => heq (hx ▸ h)
          simp [Memory.read?, h, Ne.symm heq]
        · simp only [Memory.read?, h, if_false, ih]

@[simp] theorem Memory.read?_write_same (m : Memory) (a : Nat) (b : Byte) :
    (m.write a b).read? a = some b := by simp [Memory.read?_write]

theorem Memory.read?_write_other (m : Memory) {a x : Nat} (b : Byte) (h : x ≠ a) :
    (m.write a b).read? x = m.read? x := by simp [Memory.read?_write, h]

/-- A write adds at most its own cell to those listed. -/
theorem Memory.mem_write {m : Memory} {a : Nat} {b : Byte} {x : Host.Cell} (h : x ∈ m.write a b) :
    x = (a, b) ∨ x ∈ m := by
  induction m with
  | nil => simpa [Memory.write] using h
  | cons cell m ih =>
    obtain ⟨a', b'⟩ := cell
    unfold Memory.write at h
    split_ifs at h with hlt heq
    · simpa using h
    · rcases List.mem_cons.1 h with h | h
      · exact .inl h
      · exact .inr (List.mem_cons_of_mem _ h)
    · rcases List.mem_cons.1 h with h | h
      · exact .inr (h ▸ List.mem_cons_self)
      · exact (ih h).imp id (List.mem_cons_of_mem _)

/-- A write keeps the canonical form. -/
theorem Memory.wf_write {m : Memory} (hm : Memory.wf m) (a : Nat) (b : Byte) :
    Memory.wf (m.write a b) := by
  induction m with
  | nil => simp [Memory.write, Memory.wf]
  | cons cell m ih =>
    obtain ⟨a', b'⟩ := cell
    obtain ⟨hhead, htail⟩ := List.pairwise_cons.1 hm
    unfold Memory.write
    split_ifs with hlt heq
    · refine List.pairwise_cons.2 ⟨fun x hx => ?_, hm⟩
      rcases List.mem_cons.1 hx with rfl | hx
      · exact hlt
      · exact hlt.trans (hhead x hx)
    · exact List.pairwise_cons.2 ⟨fun x hx => heq ▸ hhead x hx, htail⟩
    · refine List.pairwise_cons.2 ⟨fun x hx => ?_, ih htail⟩
      rcases Memory.mem_write hx with rfl | hx
      · simp; omega
      · exact hhead x hx

/-- A cell below every listed one reads as not written. -/
theorem Memory.read?_of_lt {m : Memory} {a : Nat} (h : ∀ x ∈ m, a < x.1) : m.read? a = none := by
  induction m with
  | nil => rfl
  | cons cell m ih =>
    obtain ⟨a', b'⟩ := cell
    have := h (a', b') List.mem_cons_self
    simp [Memory.read?, Nat.ne_of_lt this, ih fun x hx => h x (List.mem_cons_of_mem _ hx)]

/-- Equal memories are equal data: two canonical storages that read alike are the same list. -/
theorem Memory.ext_of_wf {m m' : Memory} (hm : Memory.wf m) (hm' : Memory.wf m')
    (h : ∀ a, m.read? a = m'.read? a) : m = m' := by
  induction m generalizing m' with
  | nil =>
    cases m' with
    | nil => rfl
    | cons cell m' => simpa [Memory.read?] using h cell.1
  | cons cell m ih =>
    obtain ⟨a, b⟩ := cell
    cases m' with
    | nil => simpa [Memory.read?] using h a
    | cons cell' m' =>
      obtain ⟨a', b'⟩ := cell'
      obtain ⟨h1, h2⟩ := List.pairwise_cons.1 hm
      obtain ⟨h1', h2'⟩ := List.pairwise_cons.1 hm'
      have haa : a = a' := by
        rcases Nat.lt_trichotomy a a' with hlt | heq | hgt
        · have := h a
          rw [Memory.read?_of_lt (m := (a', b') :: m')] at this
          · simp [Memory.read?] at this
          · intro x hx
            rcases List.mem_cons.1 hx with rfl | hx
            · exact hlt
            · exact hlt.trans (h1' x hx)
        · exact heq
        · have := h a'
          rw [Memory.read?_of_lt (m := (a, b) :: m)] at this
          · simp [Memory.read?] at this
          · intro x hx
            rcases List.mem_cons.1 hx with rfl | hx
            · exact hgt
            · exact hgt.trans (h1 x hx)
      subst haa
      have hb : b = b' := by simpa [Memory.read?] using h a
      subst hb
      congr 1
      refine ih h2 h2' fun x => ?_
      by_cases hx : x = a
      · subst hx
        rw [Memory.read?_of_lt h1, Memory.read?_of_lt h1']
      · simpa [Memory.read?, hx] using h x

/-! ## The machine's read and write -/

theorem State.memRead_memWrite (s : State) (i : Nat) (b : Byte) (a : Nat) :
    (s.memWrite i b).memRead a = if a = i then b else s.memRead a := by
  unfold State.memRead
  rw [State.memWrite_storage, Memory.read?_write]
  split_ifs <;> rfl

@[simp] theorem State.memRead_memWrite_same (s : State) (i : Nat) (b : Byte) :
    (s.memWrite i b).memRead i = b := by simp [State.memRead_memWrite]

theorem State.memRead_memWrite_other (s : State) {i a : Nat} (b : Byte) (h : a ≠ i) :
    (s.memWrite i b).memRead a = s.memRead a := by simp [State.memRead_memWrite, h]

/-! ## A run of writes -/

/-- The storage after a run of writes keeps the canonical form. -/
theorem State.wf_writeCells {s : State} (hs : Memory.wf s.storage) (ws : List (Nat × Byte)) :
    Memory.wf (State.writeCells ws s).storage := by
  induction ws generalizing s with
  | nil => exact hs
  | cons w ws ih =>
    obtain ⟨i, b⟩ := w
    exact ih (s := s.memWrite i b) (Memory.wf_write hs i b)

/-- A run of writes lists no cell but those written and those listed before. -/
theorem State.mem_writeCells {s : State} {ws : List (Nat × Byte)} {x : Host.Cell}
    (h : x ∈ (State.writeCells ws s).storage) : x ∈ ws ∨ x ∈ s.storage := by
  induction ws generalizing s with
  | nil => exact .inr h
  | cons w ws ih =>
    obtain ⟨i, b⟩ := w
    rcases ih (s := s.memWrite i b) h with h | h
    · exact .inl (List.mem_cons_of_mem _ h)
    · rcases Memory.mem_write h with rfl | h
      · exact .inl List.mem_cons_self
      · exact .inr h

/-- A cell that a run of writes does not name keeps its byte. -/
theorem State.read?_writeCells_other {s : State} {ws : List (Nat × Byte)} {a : Nat}
    (h : a ∉ ws.map Prod.fst) : (State.writeCells ws s).storage.read? a = s.storage.read? a := by
  induction ws generalizing s with
  | nil => rfl
  | cons w ws ih =>
    obtain ⟨i, b⟩ := w
    simp only [List.map_cons, List.mem_cons, not_or] at h
    rw [State.writeCells, ih h.2, State.memWrite_storage, Memory.read?_write_other _ _ h.1]

/-- A cell that a run of writes to distinct cells names holds the byte written to it. -/
theorem State.read?_writeCells_of_mem {s : State} {ws : List (Nat × Byte)} {a : Nat} {b : Byte}
    (hn : (ws.map Prod.fst).Nodup) (h : (a, b) ∈ ws) :
    (State.writeCells ws s).storage.read? a = some b := by
  induction ws generalizing s with
  | nil => cases h
  | cons w ws ih =>
    obtain ⟨i, c⟩ := w
    obtain ⟨hi, hn⟩ := List.nodup_cons.1 hn
    rcases List.mem_cons.1 h with h | h
    · cases h
      rw [State.writeCells, State.read?_writeCells_other hi, State.memWrite_storage,
        Memory.read?_write_same]
    · rw [State.writeCells, ih hn h]

theorem State.memRead_writeCells_other {s : State} {ws : List (Nat × Byte)} {a : Nat}
    (h : a ∉ ws.map Prod.fst) : (State.writeCells ws s).memRead a = s.memRead a := by
  simp [State.memRead, State.read?_writeCells_other h]

theorem State.memRead_writeCells_of_mem {s : State} {ws : List (Nat × Byte)} {a : Nat} {b : Byte}
    (hn : (ws.map Prod.fst).Nodup) (h : (a, b) ∈ ws) :
    (State.writeCells ws s).memRead a = b := by
  simp [State.memRead, State.read?_writeCells_of_mem hn h]

/-- A run of writes stands in the trace in its own order. -/
theorem State.writeCells_trace (ws : List (Nat × Byte)) (s : State) :
    (State.writeCells ws s).trace = s.trace ++ ws.map (fun w => ⟨true, toIdx w.1, w.2⟩) := by
  induction ws generalizing s with
  | nil => simp [State.writeCells]
  | cons w ws ih =>
    obtain ⟨i, b⟩ := w
    simp [State.writeCells, ih]

/-- Two runs of writes, one after the other, are one run. -/
theorem State.writeCells_append (ws ws' : List (Nat × Byte)) (s : State) :
    State.writeCells (ws ++ ws') s = State.writeCells ws' (State.writeCells ws s) := by
  induction ws generalizing s with
  | nil => rfl
  | cons w ws ih =>
    obtain ⟨i, b⟩ := w
    exact ih (s.memWrite i b)

end Sys2Proof.Machine
end

