-- ==== Sys2Proof/Laws/Datapath.lean ====
section
/-!
SUPPORT. The laws of the datapath functions (40_common_datapath.md): wraparound, segments, the arbiter,
and what each cursor update does to the invariants I1 to I6 of 10_state.md rule R30.
-/

namespace Sys2Proof.Machine

/-! ## Registers and naturals -/

theorem toIdx_toNat {n : Nat} (h : n < 65536) : (toIdx n).toNat = n := by
  simp [toIdx, BitVec.toNat_ofNat, Nat.mod_eq_of_lt h]

theorem idx_lt (i : Idx) : i.toNat < 65536 := i.isLt

@[simp] theorem toIdx_of_toNat (i : Idx) : toIdx i.toNat = i := by simp [toIdx]

theorem idx_eq_zero_iff (i : Idx) : i = 0#16 ↔ i.toNat = 0 := by
  rw [← BitVec.toNat_inj]; rfl

theorem State.isEmpty_iff (s : State) : s.isEmpty = true ↔ s.length.toNat = 0 := by
  simp [State.isEmpty, idx_eq_zero_iff]

theorem State.isPeekEmpty_iff (s : State) : s.isPeekEmpty = true ↔ s.peekLength.toNat = 0 := by
  simp [State.isPeekEmpty, idx_eq_zero_iff]

/-! ## Wraparound -/

/-- `wrap` is the remainder, for every sum a command forms (40_common_datapath.md rule R110). -/
theorem wrap_eq_mod {C v : Nat} (h : v < 2 * C) : wrap C v = v % C := by
  unfold wrap
  split_ifs with hc
  · rw [Nat.mod_eq_sub_mod hc, Nat.mod_eq_of_lt (by omega)]
  · rw [Nat.mod_eq_of_lt (by omega)]

theorem wrap_lt {C v : Nat} (h : v < 2 * C) : wrap C v < C := by
  unfold wrap; split_ifs <;> omega

/-- A cursor advanced by at most the capacity, as a case distinction that linear arithmetic can use. -/
theorem advance_mod {C a k : Nat} (ha : a < C) (hk : k ≤ C) :
    (a + k) % C = if C ≤ a + k then a + k - C else a + k := by
  rw [← wrap_eq_mod (by omega)]; rfl

/-- The register image of an advanced cursor. -/
theorem toIdx_wrap_toNat {C a k : Nat} (hC : C < 65536) (ha : a < C) (hk : k ≤ C) :
    (toIdx (wrap C (a + k))).toNat = (a + k) % C := by
  rw [toIdx_toNat ((wrap_lt (by omega)).trans hC), wrap_eq_mod (by omega)]

/-- Two logical positions closer than the capacity are different cells. -/
theorem mod_inj_of_lt {C a j k : Nat} (ha : a < C) (hj : j < C) (hk : k < C)
    (h : (a + j) % C = (a + k) % C) : j = k := by
  rw [advance_mod ha hj.le, advance_mod ha hk.le] at h
  split_ifs at h <;> omega

/-! ## Segments -/

/-- Both copies of a segment list visit the cells at logical positions `0` to `n - 1`, in that order
(40_common_datapath.md rules R114 and R115). -/
theorem segmentCells_segments {C base n : Nat} (hb : base < C) (hn : n ≤ C) :
    segmentCells (segments C base n) = (List.range n).map (fun k => (base + k) % C) := by
  unfold segments
  split_ifs with h0 hc
  · subst h0; rfl
  · simp only [segmentCells, Segment.cells, List.flatMap_cons, List.flatMap_nil, List.append_nil]
    refine List.map_congr_left fun k hk => ?_
    rw [Nat.mod_eq_of_lt]
    have := List.mem_range.1 hk
    omega
  · have hsplit : n = (C - base) + (n - (C - base)) := by omega
    rw [hsplit, List.range_add, List.map_append, List.map_map]
    simp only [segmentCells, Segment.cells, List.flatMap_cons, List.flatMap_nil, List.append_nil,
      Nat.add_sub_cancel_left]
    congr 1
    · refine List.map_congr_left fun k hk => ?_
      have := List.mem_range.1 hk
      rw [Nat.mod_eq_of_lt (by omega)]
    · refine List.map_congr_left fun k hk => ?_
      have := List.mem_range.1 hk
      have e : base + (C - base + k) = C + k := by omega
      simp only [Function.comp, e, Nat.add_mod_left, Nat.zero_add]
      rw [Nat.mod_eq_of_lt (by omega)]

/-! ## The arbiter -/

/-- What the arbiter can answer (40_common_datapath.md rule R116): all of the request, all of it after
evicting the shortfall, or what there is room for. -/
theorem State.arbitrate_cases (s : State) (req : Nat) :
    (req ≤ s.free ∧ s.arbitrate req = (req, 0)) ∨
    (s.free < req ∧ s.overwriteEnabled = true ∧ s.arbitrate req = (req, req - s.free)) ∨
    (s.free < req ∧ s.overwriteEnabled = false ∧ s.arbitrate req = (s.free, 0)) := by
  unfold State.arbitrate
  split_ifs with h1 h2
  · exact .inl ⟨h1, rfl⟩
  · exact .inr (.inl ⟨by omega, h2, rfl⟩)
  · exact .inr (.inr ⟨by omega, by simpa using h2, rfl⟩)

/-- The bounds that every later computation rests on (40_common_datapath.md rule R116). -/
theorem State.arbitrate_bounds {s : State} {req : Nat} (hl : s.length.toNat ≤ s.capacity.toNat)
    (hr : req ≤ s.capacity.toNat) :
    (s.arbitrate req).2 ≤ s.length.toNat ∧ (s.arbitrate req).1 ≤ s.capacity.toNat ∧
      s.length.toNat - (s.arbitrate req).2 + (s.arbitrate req).1 ≤ s.capacity.toNat := by
  rcases s.arbitrate_cases req with ⟨h, e⟩ | ⟨h, -, e⟩ | ⟨h, -, e⟩ <;>
    rw [e] <;> simp only [State.free] at * <;> omega

/-! ## Cursor updates and the invariants -/

section
variable {C n : Nat} {c : Cursors}

@[simp] theorem Cursors.resyncPeek_head : c.resyncPeek.head = c.head := rfl
@[simp] theorem Cursors.resyncPeek_tail : c.resyncPeek.tail = c.tail := rfl
@[simp] theorem Cursors.resyncPeek_length : c.resyncPeek.length = c.length := rfl
@[simp] theorem Cursors.resyncPeek_peekCursor : c.resyncPeek.peekCursor = c.head := rfl
@[simp] theorem Cursors.resyncPeek_peekLength : c.resyncPeek.peekLength = c.length := rfl

/-- I4 and I6 without remainders, so that linear arithmetic can use them. -/
theorem cursorInv_iff (C : Nat) (c : Cursors) :
    CursorInv C c ↔
      1 ≤ C ∧ c.head.toNat < C ∧ c.tail.toNat < C ∧ c.peekCursor.toNat < C ∧
      c.length.toNat ≤ C ∧ c.peekLength.toNat ≤ c.length.toNat ∧
      c.tail.toNat = (if C ≤ c.head.toNat + c.length.toNat then c.head.toNat + c.length.toNat - C
        else c.head.toNat + c.length.toNat) ∧
      c.peekCursor.toNat =
        (if C ≤ c.head.toNat + (c.length.toNat - c.peekLength.toNat)
          then c.head.toNat + (c.length.toNat - c.peekLength.toNat) - C
          else c.head.toNat + (c.length.toNat - c.peekLength.toNat)) := by
  constructor
  · rintro ⟨h1, ⟨h2, h3, h4⟩, h5, h6, h7, h8⟩
    rw [advance_mod h2 h5] at h6
    rw [advance_mod h2 (by omega)] at h8
    exact ⟨h1, h2, h3, h4, h5, h7, h6, h8⟩
  · rintro ⟨h1, h2, h3, h4, h5, h7, h6, h8⟩
    refine ⟨h1, ⟨h2, h3, h4⟩, h5, ?_, h7, ?_⟩
    · rw [advance_mod h2 h5, h6]
    · rw [advance_mod h2 (by omega), h8]

/-- All cursors 0, as after CONSTRUCT and RESET. -/
theorem cursorInv_zero (h : 1 ≤ C) : CursorInv C Cursors.zero := by
  refine ⟨h, ⟨?_, ?_, ?_⟩, ?_, ?_, ?_, ?_⟩ <;> simp [Cursors.zero] <;> omega

theorem CursorInv.resyncPeek (h : CursorInv C c) : CursorInv C c.resyncPeek := by
  obtain ⟨h1, ⟨h2, h3, -⟩, h5, h6, -, -⟩ := h
  refine ⟨h1, ⟨h2, h3, h2⟩, h5, h6, le_rfl, ?_⟩
  simp [Nat.mod_eq_of_lt h2]

/-- The values after dropping `n` bytes from the front. -/
theorem Cursors.dropFront_toNat (hC : C < 65536) (h : CursorInv C c) (hn : n ≤ c.length.toNat) :
    (c.dropFront C n).head.toNat = (c.head.toNat + n) % C ∧
      (c.dropFront C n).length.toNat = c.length.toNat - n := by
  obtain ⟨-, ⟨h2, -, -⟩, h5, -⟩ := h
  exact ⟨toIdx_wrap_toNat hC h2 (by omega), toIdx_toNat (by omega)⟩

/-- A pop keeps the invariants (43_pop.md rules R160 and R161). -/
theorem CursorInv.popped (hC : C < 65536) (h : CursorInv C c) (hn : n ≤ c.length.toNat) :
    CursorInv C (c.popped C n) := by
  obtain ⟨e1, e2⟩ := Cursors.dropFront_toNat hC h hn
  rw [cursorInv_iff] at h
  obtain ⟨h1, h2, h3, h4, h5, h7, h6, h8⟩ := h
  rw [advance_mod h2 (by omega)] at e1
  have et : (c.dropFront C n).tail = c.tail := rfl
  rw [cursorInv_iff]
  simp only [Cursors.popped, Cursors.resyncPeek_head, Cursors.resyncPeek_tail,
    Cursors.resyncPeek_length, Cursors.resyncPeek_peekCursor, Cursors.resyncPeek_peekLength, e1, e2, et]
  split_ifs at * <;> omega

/-- An eviction keeps the invariants (40_common_datapath.md rule R117). -/
theorem CursorInv.evict (hC : C < 65536) (h : CursorInv C c) (hn : n ≤ c.length.toNat) :
    CursorInv C (c.evict C n) := by
  unfold Cursors.evict
  split_ifs
  · exact h.popped hC hn
  · exact h

/-- The length after an eviction. -/
theorem Cursors.evict_length (hC : C < 65536) (h : CursorInv C c) (hn : n ≤ c.length.toNat) :
    (c.evict C n).length.toNat = c.length.toNat - n := by
  unfold Cursors.evict
  split_ifs with h0
  · exact (Cursors.dropFront_toNat hC h hn).2
  · simp [show n = 0 by omega]

/-- An eviction does not move `tail` (40_common_datapath.md rule R117). -/
@[simp] theorem Cursors.evict_tail : (c.evict C n).tail = c.tail := by
  unfold Cursors.evict; split_ifs <;> rfl

/-- The values after a push of `n` bytes. -/
theorem Cursors.pushed_toNat (hC : C < 65536) (h : CursorInv C c) (hn : c.length.toNat + n ≤ C) :
    (c.pushed C n).tail.toNat = (c.tail.toNat + n) % C ∧
      (c.pushed C n).length.toNat = c.length.toNat + n ∧
      (c.pushed C n).peekLength.toNat = c.peekLength.toNat + n := by
  obtain ⟨-, ⟨-, h3, -⟩, h5, -, h7, -⟩ := h
  exact ⟨toIdx_wrap_toNat hC h3 (by omega), toIdx_toNat (by omega), toIdx_toNat (by omega)⟩

/-- A push into free room keeps the invariants (42_push.md rules R140 and R141). -/
theorem CursorInv.pushed (hC : C < 65536) (h : CursorInv C c) (hn : c.length.toNat + n ≤ C) :
    CursorInv C (c.pushed C n) := by
  obtain ⟨e1, e2, e3⟩ := Cursors.pushed_toNat hC h hn
  rw [cursorInv_iff] at h
  obtain ⟨h1, h2, h3, h4, h5, h7, h6, h8⟩ := h
  rw [advance_mod h3 (by omega)] at e1
  have eh : (c.pushed C n).head = c.head := rfl
  have ep : (c.pushed C n).peekCursor = c.peekCursor := rfl
  rw [cursorInv_iff]
  simp only [eh, ep, e1, e2, e3]
  split_ifs at * <;> omega

/-- The values after a peek of `n` bytes. -/
theorem Cursors.peeked_toNat (hC : C < 65536) (h : CursorInv C c) (hn : n ≤ c.peekLength.toNat) :
    (c.peeked C n).peekCursor.toNat = (c.peekCursor.toNat + n) % C ∧
      (c.peeked C n).peekLength.toNat = c.peekLength.toNat - n := by
  obtain ⟨-, ⟨-, -, h4⟩, h5, -, h7, -⟩ := h
  exact ⟨toIdx_wrap_toNat hC h4 (by omega), toIdx_toNat (by omega)⟩

/-- A peek keeps the invariants (44_peek.md rules R170 and R171). -/
theorem CursorInv.peeked (hC : C < 65536) (h : CursorInv C c) (hn : n ≤ c.peekLength.toNat) :
    CursorInv C (c.peeked C n) := by
  obtain ⟨e1, e2⟩ := Cursors.peeked_toNat hC h hn
  rw [cursorInv_iff] at h
  obtain ⟨h1, h2, h3, h4, h5, h7, h6, h8⟩ := h
  rw [advance_mod h4 (by omega)] at e1
  have eh : (c.peeked C n).head = c.head := rfl
  have et : (c.peeked C n).tail = c.tail := rfl
  have el : (c.peeked C n).length = c.length := rfl
  rw [cursorInv_iff]
  simp only [eh, et, el, e1, e2]
  split_ifs at * <;> omega

end

/-- `is_full` is `length == C` (40_common_datapath.md rule R112). -/
theorem State.isFull_iff {s : State} (h : CursorInv s.capacity.toNat s.cursors) :
    s.isFull = true ↔ s.length.toNat = s.capacity.toNat := by
  rw [cursorInv_iff] at h
  obtain ⟨h1, h2, h3, -, h5, -, h6, -⟩ := h
  have e : s.head = s.tail ↔ s.head.toNat = s.tail.toNat := BitVec.toNat_inj.symm
  simp only [State.isFull, Bool.and_eq_true, beq_iff_eq, bne_iff_ne, ne_eq, idx_eq_zero_iff, e]
  clear e
  split_ifs at h6 <;> simp only [State.cursors] at * <;> omega

/-- I1 to I6 of a state's registers, without remainders. -/
theorem State.cursorInv_linear {s : State} (h : CursorInv s.capacity.toNat s.cursors) :
    1 ≤ s.capacity.toNat ∧ s.head.toNat < s.capacity.toNat ∧ s.tail.toNat < s.capacity.toNat ∧
      s.peekCursor.toNat < s.capacity.toNat ∧ s.length.toNat ≤ s.capacity.toNat ∧
      s.peekLength.toNat ≤ s.length.toNat ∧
      s.tail.toNat = (if s.capacity.toNat ≤ s.head.toNat + s.length.toNat
        then s.head.toNat + s.length.toNat - s.capacity.toNat
        else s.head.toNat + s.length.toNat) ∧
      s.peekCursor.toNat =
        (if s.capacity.toNat ≤ s.head.toNat + (s.length.toNat - s.peekLength.toNat)
          then s.head.toNat + (s.length.toNat - s.peekLength.toNat) - s.capacity.toNat
          else s.head.toNat + (s.length.toNat - s.peekLength.toNat)) :=
  (cursorInv_iff _ _).1 h

end Sys2Proof.Machine
end

