-- ==== Sys2Proof/Laws/Encoding.lean ====
section
/-!
SUPPORT. The fields of a packed command word, and how a word of each format stands under its mask
(30_encoding.md rules R80, R81).
-/

namespace Sys2Proof

/-- Every bit of a packed word, by the field it is in (30_encoding.md rule R80). -/
theorem getLsbD_packWord (op : BitVec 4) (ovw buf : Bool) (arg : Idx) (i : Nat) :
    (packWord op ovw buf arg).getLsbD i =
      if i < 16 then arg.getLsbD i else if i < 24 then false else if i = 24 then buf
      else if i = 25 then ovw else if i < 28 then false else op.getLsbD (i - 28) := by
  unfold packWord
  simp only [BitVec.getLsbD_append, BitVec.getLsbD_zero, BitVec.getLsbD_ofBool]
  by_cases h1 : i < 16
  · simp [h1]
  by_cases h2 : i < 24
  · simp [h1, h2, show i - 16 < 8 by omega]
  by_cases h3 : i = 24
  · subst h3; simp
  by_cases h4 : i = 25
  · subst h4; simp
  by_cases h5 : i < 28
  · simp [h1, h2, h3, h4, h5, show ¬(i - 16 < 8) by omega, show ¬(i - 16 - 8 < 1) by omega,
      show ¬(i - 16 - 8 - 1 < 1) by omega, show i - 16 - 8 - 1 - 1 < 2 by omega]
  · simp [h1, h2, h3, h4, h5, show ¬(i - 16 < 8) by omega, show ¬(i - 16 - 8 < 1) by omega,
      show ¬(i - 16 - 8 - 1 < 1) by omega, show ¬(i - 16 - 8 - 1 - 1 < 2) by omega,
      show i - 16 - 8 - 1 - 1 - 2 = i - 28 by omega]

@[simp] theorem opField_packWord (op : BitVec 4) (ovw buf : Bool) (arg : Idx) :
    opField (packWord op ovw buf arg) = op := by
  refine BitVec.eq_of_getLsbD_eq fun i hi => ?_
  rw [opField, BitVec.getLsbD_extractLsb', getLsbD_packWord]
  simp [hi, show ¬(28 + i < 16) by omega, show ¬(28 + i < 24) by omega,
    show ¬(28 + i = 24) by omega, show ¬(28 + i = 25) by omega]

@[simp] theorem argField_packWord (op : BitVec 4) (ovw buf : Bool) (arg : Idx) :
    argField (packWord op ovw buf arg) = arg := by
  refine BitVec.eq_of_getLsbD_eq fun i hi => ?_
  rw [argField, BitVec.getLsbD_extractLsb', getLsbD_packWord]
  simp [hi]

@[simp] theorem byteField_packWord (op : BitVec 4) (ovw buf : Bool) (arg : Idx) :
    byteField (packWord op ovw buf arg) = arg.setWidth 8 := by
  refine BitVec.eq_of_getLsbD_eq fun i hi => ?_
  rw [byteField, BitVec.getLsbD_extractLsb', getLsbD_packWord]
  simp [hi, show i < 16 by omega]

@[simp] theorem ovwField_packWord (op : BitVec 4) (ovw buf : Bool) (arg : Idx) :
    ovwField (packWord op ovw buf arg) = ovw := by
  rw [ovwField, getLsbD_packWord]; simp

@[simp] theorem bufField_packWord (op : BitVec 4) (ovw buf : Bool) (arg : Idx) :
    bufField (packWord op ovw buf arg) = buf := by
  rw [bufField, getLsbD_packWord]; simp

/-- The fixed bits of a row, as a packed word. -/
theorem matchBits_eq_packWord (op : BitVec 4) : matchBits op = packWord op false false 0#16 := by
  refine BitVec.eq_of_getLsbD_eq fun i hi => ?_
  rw [getLsbD_packWord, matchBits, BitVec.getLsbD_append]
  by_cases h : i < 28
  · simp [h]
  · simp [h, show ¬(i < 16) by omega, show ¬(i < 24) by omega, show ¬(i = 24) by omega,
      show ¬(i = 25) by omega]

/-- A must-be-zero bit outside the packed fields is never set, so each mask acts as the packed word
with the same ones in the fields. -/
theorem packWord_and_mask (op : BitVec 4) (ovw buf : Bool) (arg : Idx) (mask : CmdWord) :
    packWord op ovw buf arg &&& mask =
      packWord (op &&& opField mask) (ovw && ovwField mask) (buf && bufField mask)
        (arg &&& argField mask) := by
  refine BitVec.eq_of_getLsbD_eq fun i hi => ?_
  simp only [BitVec.getLsbD_and, getLsbD_packWord, opField, argField, ovwField, bufField,
    BitVec.getLsbD_extractLsb']
  by_cases h1 : i < 16
  · simp [h1]
  by_cases h2 : i < 24
  · simp [h1, h2]
  by_cases h3 : i = 24
  · subst h3; simp
  by_cases h4 : i = 25
  · subst h4; simp
  by_cases h5 : i < 28
  · simp [h1, h2, h3, h4, h5]
  · simp [h1, h2, h3, h4, h5, show i - 28 < 4 by omega, show 28 + (i - 28) = i by omega]

/-- A packed word is well formed if the fields its opcode's format fixes are zero. -/
theorem wellFormedWord_packWord {op : BitVec 4} {ovw buf : Bool} {arg : Idx}
    (hop : op &&& opField (rowOf op).format.mask = op)
    (hovw : (ovw && ovwField (rowOf op).format.mask) = false)
    (hbuf : (buf && bufField (rowOf op).format.mask) = false)
    (harg : arg &&& argField (rowOf op).format.mask = 0#16) :
    wellFormedWord (packWord op ovw buf arg) = true := by
  rw [wellFormedWord, opField_packWord, packWord_and_mask, hop, hovw, hbuf, harg, beq_iff_eq,
    matchBits_eq_packWord]

/-! ## A packed word, format by format (30_encoding.md rule R81) -/

section
variable {op : BitVec 4}

theorem wellFormedWord_n (h : (rowOf op).format = .n) :
    wellFormedWord (packWord op false false 0#16) = true := by
  have hm : ∀ x : BitVec 4, x &&& opField Format.n.mask = x := by decide
  refine wellFormedWord_packWord (by rw [h, hm]) rfl rfl ?_
  rw [h]; decide

theorem wellFormedWord_b (h : (rowOf op).format = .b) (byte : Byte) :
    wellFormedWord (packWord op false false (byte.setWidth 16)) = true := by
  have hm : ∀ x : BitVec 4, x &&& opField Format.b.mask = x := by decide
  have ha : argField Format.b.mask = 0xFF00#16 := by decide
  refine wellFormedWord_packWord (by rw [h, hm]) rfl rfl ?_
  rw [h, ha]
  refine BitVec.eq_of_getLsbD_eq fun i hi => ?_
  by_cases h8 : i < 8
  · have : (0xFF00#16).getLsbD i = false := by interval_cases i <;> rfl
    simp [this]
  · simp [BitVec.getLsbD_of_ge byte i (by omega)]

theorem wellFormedWord_l (h : (rowOf op).format = .l) (arg : Idx) :
    wellFormedWord (packWord op false false arg) = true := by
  have hm : ∀ x : BitVec 4, x &&& opField Format.l.mask = x := by decide
  have ha : argField Format.l.mask = 0#16 := by decide
  exact wellFormedWord_packWord (by rw [h, hm]) rfl rfl (by rw [h, ha]; simp)

theorem wellFormedWord_m (h : (rowOf op).format = .m) (buf : Bool) (arg : Idx) :
    wellFormedWord (packWord op false buf arg) = true := by
  have hm : ∀ x : BitVec 4, x &&& opField Format.m.mask = x := by decide
  have hb : bufField Format.m.mask = false := by decide
  have ha : argField Format.m.mask = 0#16 := by decide
  exact wellFormedWord_packWord (by rw [h, hm]) rfl (by rw [h, hb]; simp) (by rw [h, ha]; simp)

theorem wellFormedWord_c (h : (rowOf op).format = .c) (ovw buf : Bool) (arg : Idx) :
    wellFormedWord (packWord op ovw buf arg) = true := by
  have hm : ∀ x : BitVec 4, x &&& opField Format.c.mask = x := by decide
  have ho : ovwField Format.c.mask = false := by decide
  have hb : bufField Format.c.mask = false := by decide
  have ha : argField Format.c.mask = 0#16 := by decide
  exact wellFormedWord_packWord (by rw [h, hm]) (by rw [h, ho]; simp) (by rw [h, hb]; simp)
    (by rw [h, ha]; simp)

end

end Sys2Proof
end

