-- ==== Sys2Proof/Laws/Ops.lean ====
section
/-!
SUPPORT. What each shared operation of Machine/Ops.lean can do, said once: the guard on cells, the two
guards of the checks, the copy engine, and the two ends of a bulk command.
-/

namespace Sys2Proof.Machine

/-! ## Guards -/

theorem requireCells_of_lt {cells : List Nat} {s : State} {k : Host.Outcome State Fault Refusal}
    (h : ∀ i ∈ cells, i < s.capacity.toNat) : requireCells cells s k = k := by
  have : cells.find? (fun i => !decide (i < s.capacity.toNat)) = none := by
    rw [List.find?_eq_none]
    intro i hi
    simp [h i hi]
  simp [requireCells, this]

/-- The guard on cells goes on, with every cell existing, or faults at a cell that does not. -/
theorem requireCells_cases (cells : List Nat) (s : State) (k : Host.Outcome State Fault Refusal) :
    ((∀ i ∈ cells, i < s.capacity.toNat) ∧ requireCells cells s k = k) ∨
    ∃ i ∈ cells, s.capacity.toNat ≤ i ∧ requireCells cells s k = .fault (.noSuchCell i) := by
  cases hf : cells.find? (fun i => !decide (i < s.capacity.toNat)) with
  | none =>
    have h : ∀ i ∈ cells, i < s.capacity.toNat := by
      intro i hi
      have := List.find?_eq_none.1 hf i hi
      simpa using this
    exact .inl ⟨h, requireCells_of_lt h⟩
  | some i =>
    refine .inr ⟨i, List.mem_of_find?_eq_some hf, ?_, by simp [requireCells, hf]⟩
    have := List.find?_some hf
    simpa using this

theorem requireCells_next {cells : List Nat} {s t : State} {k : Host.Outcome State Fault Refusal}
    (h : requireCells cells s k = .next t) :
    (∀ i ∈ cells, i < s.capacity.toNat) ∧ k = .next t := by
  rcases requireCells_cases cells s k with ⟨hc, e⟩ | ⟨i, -, -, e⟩
  · exact ⟨hc, e ▸ h⟩
  · rw [e] at h; cases h

@[simp] theorem whenConstructed_true {op : BitVec 4} {s : State}
    {k : Host.Outcome State Fault Refusal} (h : s.constructed = true) :
    whenConstructed op s k = k := by simp [whenConstructed, h]

@[simp] theorem whenConstructed_false {op : BitVec 4} {s : State}
    {k : Host.Outcome State Fault Refusal} (h : s.constructed = false) :
    whenConstructed op s k = .next (s.respond op .invalidArgument 0#16) := by
  simp [whenConstructed, h, reject]

@[simp] theorem whenBuffer_true {op : BitVec 4} {s : State} {k : Host.Outcome State Fault Refusal} :
    whenBuffer op true s k = k := rfl

@[simp] theorem whenBuffer_false {op : BitVec 4} {s : State} {k : Host.Outcome State Fault Refusal} :
    whenBuffer op false s k = .next (s.respond op .invalidArgument 0#16) := rfl

/-! ## Moving bytes: only the storage, the trace and the two streams change -/

section
variable (w : Work) (m : Nat) (s : State)

@[simp] theorem Work.moveBytes_constructed : (w.moveBytes m s).constructed = s.constructed := by
  unfold Work.moveBytes; cases w.direction <;> simp

@[simp] theorem Work.moveBytes_capacity : (w.moveBytes m s).capacity = s.capacity := by
  unfold Work.moveBytes; cases w.direction <;> simp

@[simp] theorem Work.moveBytes_overwriteEnabled :
    (w.moveBytes m s).overwriteEnabled = s.overwriteEnabled := by
  unfold Work.moveBytes; cases w.direction <;> simp

@[simp] theorem Work.moveBytes_head : (w.moveBytes m s).head = s.head := by
  unfold Work.moveBytes; cases w.direction <;> simp

@[simp] theorem Work.moveBytes_tail : (w.moveBytes m s).tail = s.tail := by
  unfold Work.moveBytes; cases w.direction <;> simp

@[simp] theorem Work.moveBytes_length : (w.moveBytes m s).length = s.length := by
  unfold Work.moveBytes; cases w.direction <;> simp

@[simp] theorem Work.moveBytes_peekCursor : (w.moveBytes m s).peekCursor = s.peekCursor := by
  unfold Work.moveBytes; cases w.direction <;> simp

@[simp] theorem Work.moveBytes_peekLength : (w.moveBytes m s).peekLength = s.peekLength := by
  unfold Work.moveBytes; cases w.direction <;> simp

@[simp] theorem Work.moveBytes_cursors : (w.moveBytes m s).cursors = s.cursors := by
  simp [State.cursors]

@[simp] theorem Work.moveBytes_work : (w.moveBytes m s).work = s.work := by
  unfold Work.moveBytes; cases w.direction <;> simp

@[simp] theorem Work.moveBytes_rst : (w.moveBytes m s).rst = s.rst := by
  unfold Work.moveBytes; cases w.direction <;> simp

@[simp] theorem Work.moveBytes_cmds : (w.moveBytes m s).cmds = s.cmds := by
  unfold Work.moveBytes; cases w.direction <;> simp

@[simp] theorem Work.moveBytes_rspReady : (w.moveBytes m s).rspReady = s.rspReady := by
  unfold Work.moveBytes; cases w.direction <;> simp

@[simp] theorem Work.moveBytes_rsp : (w.moveBytes m s).rsp = s.rsp := by
  unfold Work.moveBytes; cases w.direction <;> simp

@[simp] theorem Work.moveBytes_rspLog : (w.moveBytes m s).rspLog = s.rspLog := by
  unfold Work.moveBytes; cases w.direction <;> simp

/-- The writes that `m` beats from `din` perform. -/
def Work.writesNow (w : Work) (m : Nat) (s : State) : List (Nat × Byte) :=
  ((w.cells.drop w.beat).take m).zip (s.din.take m)

variable {w m s}

theorem Work.moveBytes_toStorage (h : w.direction = .toStorage) :
    w.moveBytes m s = { State.writeCells (w.writesNow m s) s with din := s.din.drop m } := by
  simp [Work.moveBytes, h, Work.writesNow]

/-- Going to `dout` the storage is only read. -/
theorem Work.moveBytes_fromStorage_storage (h : w.direction = .fromStorage) :
    (w.moveBytes m s).storage = s.storage := by
  simp [Work.moveBytes, h]

/-- The bytes delivered are those of the cells visited (40_common_datapath.md rule R115). -/
theorem Work.moveBytes_fromStorage_dout (h : w.direction = .fromStorage) :
    (w.moveBytes m s).dout = s.dout ++ ((w.cells.drop w.beat).take m).map s.memRead := by
  simp [Work.moveBytes, h]

end

/-! ## The copy engine -/

/-- The streams never allow more beats than the command has left. -/
theorem Work.beatsNow_le (w : Work) (s : State) : w.beatsNow s ≤ w.n - w.beat := by
  unfold Work.beatsNow
  cases w.direction
  · exact Nat.min_le_left _ _
  · cases s.doutLimit
    · exact le_rfl
    · exact Nat.min_le_left _ _

@[simp] theorem Work.afterBeats_beat (w : Work) (m : Nat) : (w.afterBeats m).beat = w.beat + m := by
  unfold Work.afterBeats; cases w.direction <;> rfl

@[simp] theorem Work.afterBeats_n (w : Work) (m : Nat) : (w.afterBeats m).n = w.n := by
  unfold Work.afterBeats; cases w.direction <;> rfl

/-- The plan of a command in progress does not change with its beats. -/
theorem Work.afterBeats_plan (w : Work) (m : Nat) :
    { w.afterBeats m with beat := 0, accesses := 0 } = { w with beat := 0, accesses := 0 } := by
  unfold Work.afterBeats; cases w.direction <;> rfl

/-- Everything the copy engine can do: a fault at a cell that does not exist; the end of the command,
with its commit and its response; or a wait in the middle. -/
theorem advance_cases (w : Work) (s : State) :
    (∃ i ∈ w.cells, s.capacity.toNat ≤ i ∧ advance w s = .fault (.noSuchCell i)) ∨
    ((∀ i ∈ w.cells, i < s.capacity.toNat) ∧ w.beat + w.beatsNow s = w.n ∧
      advance w s = .next (w.commit (w.moveBytes (w.beatsNow s) s))) ∨
    ((∀ i ∈ w.cells, i < s.capacity.toNat) ∧ w.beat + w.beatsNow s ≠ w.n ∧
      advance w s = .next { w.moveBytes (w.beatsNow s) s with
        work := some (w.afterBeats (w.beatsNow s)) }) := by
  unfold advance
  simp only [Work.afterBeats_beat]
  rcases requireCells_cases w.cells s _ with ⟨hc, e⟩ | ⟨i, hi, hle, e⟩
  · rw [e]
    by_cases hd : w.beat + w.beatsNow s = w.n
    · exact .inr (.inl ⟨hc, hd, by rw [if_pos hd]⟩)
    · exact .inr (.inr ⟨hc, hd, by rw [if_neg hd]⟩)
  · exact .inl ⟨i, hi, hle, e⟩

/-- The registers a bulk command leaves are the working copies it carried. -/
@[simp] theorem Work.cursors_commit (w : Work) (s : State) : (w.commit s).cursors = w.cursors := rfl

@[simp] theorem Work.commit_storage (w : Work) (s : State) : (w.commit s).storage = s.storage := rfl

@[simp] theorem Work.commit_work (w : Work) (s : State) : (w.commit s).work = none := rfl

@[simp] theorem Work.commit_constructed (w : Work) (s : State) :
    (w.commit s).constructed = s.constructed := rfl

@[simp] theorem Work.commit_capacity (w : Work) (s : State) : (w.commit s).capacity = s.capacity := rfl

@[simp] theorem Work.commit_rsp (w : Work) (s : State) :
    (w.commit s).rsp = some (responseWord w.cmd.opcode .ok (toIdx w.n)) := rfl

/-- The cells of a bulk command are those at logical positions `0` to `n - 1` from its base. -/
theorem Work.start_cells {cmd : Instr} {direction : Direction} {C base n e : Nat} {c : Cursors}
    (hb : base < C) (hn : n ≤ C) :
    (Work.start cmd direction C base n e c).cells = (List.range n).map (fun k => (base + k) % C) :=
  segmentCells_segments hb hn

/-- So every cell of a bulk command exists (20_memory.md rule R57). -/
theorem Work.start_cells_lt {cmd : Instr} {direction : Direction} {C base n e : Nat} {c : Cursors}
    (hb : base < C) (hn : n ≤ C) :
    ∀ i ∈ (Work.start cmd direction C base n e c).cells, i < C := by
  rw [Work.start_cells hb hn]
  intro i hi
  obtain ⟨k, -, rfl⟩ := List.mem_map.1 hi
  exact Nat.mod_lt _ (by omega)

/-- And no two of them are the same cell (20_memory.md rule R60). -/
theorem Work.start_cells_nodup {cmd : Instr} {direction : Direction} {C base n e : Nat} {c : Cursors}
    (hb : base < C) (hn : n ≤ C) : (Work.start cmd direction C base n e c).cells.Nodup := by
  rw [Work.start_cells hb hn]
  refine List.Nodup.map_on (fun j hj k hk h => ?_) List.nodup_range
  have hj := List.mem_range.1 hj
  have hk := List.mem_range.1 hk
  exact mod_inj_of_lt hb (by omega) (by omega) h

end Sys2Proof.Machine
end

