-- ==== Sys2Proof/Laws/Step.lean ====
section
/-!
SUPPORT. What one step can do, said once: every case of `step`, and what each move of the host leaves.
-/

namespace Sys2Proof.Machine

/-- Every case of a step: hardware reset; the command in progress goes on; the host leaves a response
waiting; no command is offered; a malformed word is answered; a command is run. -/
theorem step_cases (s : State) :
    (s.rst = true ∧ step s = .next s.hardwareReset) ∨
    (s.rst = false ∧ ∃ w, s.work = some w ∧ step s = advance w s) ∨
    (s.rst = false ∧ s.work = none ∧ s.responseHeld = true ∧ step s = .next s) ∨
    (TakesCommand s ∧ s.cmds = [] ∧ step s = .next s.takeResponse) ∨
    (TakesCommand s ∧ ∃ word rest, s.cmds = word :: rest ∧ decode word = .error (.malformed (opField word)) ∧
      step s = .next ((s.accepted rest).respond (opField word) .invalidArgument 0#16)) ∨
    (TakesCommand s ∧ ∃ word rest i, s.cmds = word :: rest ∧ decode word = .ok i ∧
      step s = exec i (s.accepted rest)) := by
  by_cases hr : s.rst = true
  · exact .inl ⟨hr, by simp [step, stepPorts, hr]⟩
  · replace hr : s.rst = false := by simpa using hr
    cases hw : s.work with
    | some w => exact .inr (.inl ⟨hr, w, rfl, by simp [step, stepPorts, hr, hw]⟩)
    | none =>
      cases hh : s.responseHeld with
      | true => exact .inr (.inr (.inl ⟨hr, rfl, rfl, by simp [step, stepPorts, hr, hw, hh]⟩))
      | false =>
        refine .inr (.inr (.inr ?_))
        have ht : TakesCommand s := ⟨hr, hw, hh⟩
        have e : step s = acceptCommand s.takeResponse := by simp [step, stepPorts, hr, hw, hh]
        cases hc : s.cmds with
        | nil => exact .inl ⟨ht, rfl, by simp [e, acceptCommand, hc]⟩
        | cons word rest =>
          refine .inr ?_
          have e' : step s = runWord word (s.accepted rest) := by
            rw [e]; simp [acceptCommand, hc, State.accepted, State.takeResponse]
          by_cases hwf : wellFormedWord word = true
          · have hd : decode word = .ok ((rowOf (opField word)).build word) := by
              simp [decode, hwf]
            exact .inr ⟨ht, word, rest, _, rfl, hd, by rw [e', runWord, hd]⟩
          · have hd : decode word = .error (.malformed (opField word)) := by
              simp [decode, hwf]
            exact .inl ⟨ht, word, rest, rfl, hd, by rw [e', runWord, hd]; rfl⟩

/-- No move of the host touches a register, the storage or a command in progress
(70_reset_and_hazards.md rule R243). -/
theorem HostMove.apply_keeps (m : HostMove) (s : State) :
    (m.apply s).constructed = s.constructed ∧ (m.apply s).capacity = s.capacity ∧
      (m.apply s).overwriteEnabled = s.overwriteEnabled ∧ (m.apply s).cursors = s.cursors ∧
      (m.apply s).storage = s.storage ∧ (m.apply s).work = s.work ∧ (m.apply s).rsp = s.rsp := by
  cases m <;> exact ⟨rfl, rfl, rfl, rfl, rfl, rfl, rfl⟩

end Sys2Proof.Machine
end

