-- ==== Sys2Proof/Laws/Env.lean ====
section
/-!
SUPPORT. The host's side: one lemma for each field and each of the host's two presentations, and what one
command of a run and the end of a run can answer.
-/

namespace Sys2Proof.Machine

/-! ## `presentCommand` -/

@[simp] theorem presentCommand_constructed (c : Command) (s : State) :
    (presentCommand c s).constructed = s.constructed := rfl

@[simp] theorem presentCommand_capacity (c : Command) (s : State) :
    (presentCommand c s).capacity = s.capacity := rfl

@[simp] theorem presentCommand_overwriteEnabled (c : Command) (s : State) :
    (presentCommand c s).overwriteEnabled = s.overwriteEnabled := rfl

@[simp] theorem presentCommand_head (c : Command) (s : State) :
    (presentCommand c s).head = s.head := rfl

@[simp] theorem presentCommand_tail (c : Command) (s : State) :
    (presentCommand c s).tail = s.tail := rfl

@[simp] theorem presentCommand_length (c : Command) (s : State) :
    (presentCommand c s).length = s.length := rfl

@[simp] theorem presentCommand_peekCursor (c : Command) (s : State) :
    (presentCommand c s).peekCursor = s.peekCursor := rfl

@[simp] theorem presentCommand_peekLength (c : Command) (s : State) :
    (presentCommand c s).peekLength = s.peekLength := rfl

@[simp] theorem presentCommand_storage (c : Command) (s : State) :
    (presentCommand c s).storage = s.storage := rfl

@[simp] theorem presentCommand_work (c : Command) (s : State) :
    (presentCommand c s).work = s.work := rfl

@[simp] theorem presentCommand_rst (c : Command) (s : State) :
    (presentCommand c s).rst = false := rfl

@[simp] theorem presentCommand_cmds (c : Command) (s : State) :
    (presentCommand c s).cmds = [encode c.instr] := rfl

@[simp] theorem presentCommand_din (c : Command) (s : State) :
    (presentCommand c s).din = c.data := rfl

@[simp] theorem presentCommand_rspReady (c : Command) (s : State) :
    (presentCommand c s).rspReady = true := rfl

@[simp] theorem presentCommand_doutLimit (c : Command) (s : State) :
    (presentCommand c s).doutLimit = none := rfl

@[simp] theorem presentCommand_rsp (c : Command) (s : State) :
    (presentCommand c s).rsp = s.rsp := rfl

@[simp] theorem presentCommand_rspLog (c : Command) (s : State) :
    (presentCommand c s).rspLog = s.rspLog := rfl

@[simp] theorem presentCommand_dout (c : Command) (s : State) :
    (presentCommand c s).dout = s.dout := rfl

@[simp] theorem presentCommand_trace (c : Command) (s : State) :
    (presentCommand c s).trace = s.trace := rfl

/-! ## `presentNothing` -/

@[simp] theorem presentNothing_constructed (s : State) : (presentNothing s).constructed = s.constructed := rfl

@[simp] theorem presentNothing_capacity (s : State) : (presentNothing s).capacity = s.capacity := rfl

@[simp] theorem presentNothing_overwriteEnabled (s : State) : (presentNothing s).overwriteEnabled = s.overwriteEnabled := rfl

@[simp] theorem presentNothing_head (s : State) : (presentNothing s).head = s.head := rfl

@[simp] theorem presentNothing_tail (s : State) : (presentNothing s).tail = s.tail := rfl

@[simp] theorem presentNothing_length (s : State) : (presentNothing s).length = s.length := rfl

@[simp] theorem presentNothing_peekCursor (s : State) : (presentNothing s).peekCursor = s.peekCursor := rfl

@[simp] theorem presentNothing_peekLength (s : State) : (presentNothing s).peekLength = s.peekLength := rfl

@[simp] theorem presentNothing_storage (s : State) : (presentNothing s).storage = s.storage := rfl

@[simp] theorem presentNothing_work (s : State) : (presentNothing s).work = s.work := rfl

@[simp] theorem presentNothing_rst (s : State) : (presentNothing s).rst = false := rfl

@[simp] theorem presentNothing_cmds (s : State) : (presentNothing s).cmds = [] := rfl

@[simp] theorem presentNothing_din (s : State) : (presentNothing s).din = s.din := rfl

@[simp] theorem presentNothing_rspReady (s : State) : (presentNothing s).rspReady = true := rfl

@[simp] theorem presentNothing_doutLimit (s : State) : (presentNothing s).doutLimit = s.doutLimit := rfl

@[simp] theorem presentNothing_rsp (s : State) : (presentNothing s).rsp = s.rsp := rfl

@[simp] theorem presentNothing_rspLog (s : State) : (presentNothing s).rspLog = s.rspLog := rfl

@[simp] theorem presentNothing_dout (s : State) : (presentNothing s).dout = s.dout := rfl

@[simp] theorem presentNothing_trace (s : State) : (presentNothing s).trace = s.trace := rfl

/-! ## Runs -/

/-- With no command in progress the end of a run is one step: the response that waits is taken. -/
theorem endRun_eq (s : State) (hw : s.work = none) :
    endRun s = .next (presentNothing s).takeResponse := by
  simp [endRun, step, stepPorts, hw, State.responseHeld, acceptCommand]

/-- With no command in progress a well-formed command of a run is `exec` of its instruction, at the state
that has taken the response before it. -/
theorem runCommand_eq (c : Command) (s : State) (hc : c.wellFormed = true) (hw : s.work = none)
    (hd : decode (encode c.instr) = .ok c.instr) :
    runCommand c s = exec c.instr ((presentCommand c s).accepted []) := by
  simp [runCommand, hc, step, stepPorts, hw, State.responseHeld, acceptCommand, runWord, hd,
    State.accepted, State.takeResponse]

/-- A run whose first command answers a next state goes on from there. -/
theorem runProgram_cons {c : Command} {rest : List Command} {s t : State} (h : runCommand c s = .next t) :
    runProgram (c :: rest) s = runProgram rest t := by
  simp [runProgram, h]

/-- What the end of a run leaves: everything taken, and the registers and the storage as they were
(70_reset_and_hazards.md rule R234). -/
theorem runEnded_of_endRun {s t : State} (hw : s.work = none) (h : endRun s = .next t) :
    t.runEnded = true ∧ t.cmdReady = true ∧ t.rspLog = s.rspLog ++ s.rsp.toList ∧
      t.cursors = s.cursors ∧ t.storage = s.storage := by
  rw [endRun_eq s hw] at h
  cases h
  simp [State.runEnded, State.cmdReady, State.takeResponse, State.cursors, hw]

end Sys2Proof.Machine
end

