-- ==== Sys2Proof/Laws/PerInstr.lean ====
section
/-!
SUPPORT. The family EncodingForm, one lemma for each command: the word the encoder gives a command is a
well-formed word (30_encoding.md rule R81) that carries the command's opcode (rule R83).
-/

namespace Sys2Proof.Laws.EncodingForm

/-- The encoding of a command has its opcode, and every must-be-zero bit of its format is zero. -/
def Statement (i : Instr) : Prop :=
  opField (encode i) = i.opcode ∧ wellFormedWord (encode i) = true

theorem construct (bufPresent ovw : Bool) (capacity : Idx) : Statement (.construct bufPresent ovw capacity) :=
  ⟨opField_packWord _ _ _ _, wellFormedWord_c (by exact (by decide : (rowOf 0#4).format = .c)) ovw bufPresent capacity⟩

theorem reset : Statement .reset :=
  ⟨opField_packWord _ _ _ _, wellFormedWord_n (by exact (by decide : (rowOf 1#4).format = .n))⟩

theorem pushByte (byte : Byte) : Statement (.pushByte byte) :=
  ⟨opField_packWord _ _ _ _, wellFormedWord_b (by exact (by decide : (rowOf 2#4).format = .b)) byte⟩

theorem pushBytes (bufPresent : Bool) (requestedLength : Idx) : Statement (.pushBytes bufPresent requestedLength) :=
  ⟨opField_packWord _ _ _ _, wellFormedWord_m (by exact (by decide : (rowOf 3#4).format = .m)) bufPresent requestedLength⟩

theorem popByte : Statement .popByte :=
  ⟨opField_packWord _ _ _ _, wellFormedWord_n (by exact (by decide : (rowOf 4#4).format = .n))⟩

theorem popBytes (bufPresent : Bool) (requestedLength : Idx) : Statement (.popBytes bufPresent requestedLength) :=
  ⟨opField_packWord _ _ _ _, wellFormedWord_m (by exact (by decide : (rowOf 5#4).format = .m)) bufPresent requestedLength⟩

theorem peekByte : Statement .peekByte :=
  ⟨opField_packWord _ _ _ _, wellFormedWord_n (by exact (by decide : (rowOf 6#4).format = .n))⟩

theorem peekBytes (bufPresent : Bool) (requestedLength : Idx) : Statement (.peekBytes bufPresent requestedLength) :=
  ⟨opField_packWord _ _ _ _, wellFormedWord_m (by exact (by decide : (rowOf 7#4).format = .m)) bufPresent requestedLength⟩

theorem resetPeek : Statement .resetPeek :=
  ⟨opField_packWord _ _ _ _, wellFormedWord_n (by exact (by decide : (rowOf 8#4).format = .n))⟩

theorem commitPeeked : Statement .commitPeeked :=
  ⟨opField_packWord _ _ _ _, wellFormedWord_n (by exact (by decide : (rowOf 9#4).format = .n))⟩

theorem getPeekOffset : Statement .getPeekOffset :=
  ⟨opField_packWord _ _ _ _, wellFormedWord_n (by exact (by decide : (rowOf 10#4).format = .n))⟩

theorem restorePeekOffset (count : Idx) : Statement (.restorePeekOffset count) :=
  ⟨opField_packWord _ _ _ _, wellFormedWord_l (by exact (by decide : (rowOf 11#4).format = .l)) count⟩

theorem isEmpty : Statement .isEmpty :=
  ⟨opField_packWord _ _ _ _, wellFormedWord_n (by exact (by decide : (rowOf 12#4).format = .n))⟩

theorem count : Statement .count :=
  ⟨opField_packWord _ _ _ _, wellFormedWord_n (by exact (by decide : (rowOf 13#4).format = .n))⟩

theorem availableCount : Statement .availableCount :=
  ⟨opField_packWord _ _ _ _, wellFormedWord_n (by exact (by decide : (rowOf 14#4).format = .n))⟩

theorem isPeekEmpty : Statement .isPeekEmpty :=
  ⟨opField_packWord _ _ _ _, wellFormedWord_n (by exact (by decide : (rowOf 15#4).format = .n))⟩

end Sys2Proof.Laws.EncodingForm
end

