-- ==== Sys2Proof/Tests/Slice0.lean ====
section
/-!
SUPPORT. Tests of the model on fixed values, every expected result taken from the spec (the vectors
V-… and the tables of 95_test_vectors.md, the encodings of 30_encoding.md rule R83), and for each
statement with hypotheses a witness that meets them.
-/

namespace Sys2Proof.Tests

open Sys2Proof Sys2Proof.Machine

/-! ## Which commands and words are well formed -/

/-- 30_encoding.md rule R90: `requested_length` bytes of data with PUSH_BYTES, and none elsewhere. -/
theorem test_wellFormed_accepts :
    Command.wellFormed ⟨.pushBytes true 2#16, [1#8, 2#8]⟩ = true ∧
      Command.wellFormed ⟨.pushBytes false 2#16, []⟩ = true ∧
      Command.wellFormed ⟨.popBytes true 9#16, []⟩ = true := by decide

theorem test_wellFormed_refuses_short_data :
    Command.wellFormed ⟨.pushBytes true 2#16, [1#8]⟩ = false := by decide

theorem test_wellFormed_refuses_long_data :
    Command.wellFormed ⟨.pushBytes true 2#16, [1#8, 2#8, 3#8]⟩ = false := by decide

theorem test_wellFormed_refuses_data_without_buffer :
    Command.wellFormed ⟨.pushBytes false 1#16, [1#8]⟩ = false := by decide

theorem test_wellFormed_refuses_data_elsewhere :
    Command.wellFormed ⟨.pushByte 1#8, [1#8]⟩ = false ∧
      Command.wellFormed ⟨.popBytes true 1#16, [1#8]⟩ = false := by decide

/-- The malformed words of 95_test_vectors.md section 2.1: each must-be-zero position, in each format. -/
theorem test_wellFormedWord_refuses :
    [0x04000004#32, 0x09000004#32, 0x01010004#32, 0x10000001#32, 0x12000000#32, 0x11000000#32,
      0x20000141#32, 0x21000041#32, 0x33000005#32, 0x30800005#32, 0x41000000#32, 0x5D000007#32,
      0x60000001#32, 0xB1000004#32, 0xB0010004#32, 0xD000FFFF#32, 0xFFFFFFFF#32].all
        (fun w => !wellFormedWord w) = true := by decide

/-! ## Decoding -/

/-- The decoder's answer, `none` for a malformed word. -/
def decoded (w : CmdWord) : Option Instr :=
  match decode w with
  | .ok i => some i
  | .error _ => none

theorem test_decode_construct : decoded 0b00000011000000001111111111111111#32 =
    some (.construct true true 65535#16) := by decide
theorem test_decode_construct_no_buffer : decoded 0b00000000000000000000000000000100#32 =
    some (.construct false false 4#16) := by decide
theorem test_decode_construct_overwrite_only : decoded 0b00000010000000000000000000000000#32 =
    some (.construct false true 0#16) := by decide
theorem test_decode_reset : decoded 0b00010000000000000000000000000000#32 = some .reset := by decide
theorem test_decode_pushByte : decoded 0b00100000000000000000000001000101#32 =
    some (.pushByte 0x45#8) := by decide
theorem test_decode_pushBytes : decoded 0b00110001000000000000000000000101#32 =
    some (.pushBytes true 5#16) := by decide
theorem test_decode_pushBytes_no_buffer : decoded 0b00110000000000000000000000000101#32 =
    some (.pushBytes false 5#16) := by decide
theorem test_decode_popByte : decoded 0b01000000000000000000000000000000#32 = some .popByte := by decide
theorem test_decode_popBytes : decoded 0b01010001000000000000000000000111#32 =
    some (.popBytes true 7#16) := by decide
theorem test_decode_peekByte : decoded 0b01100000000000000000000000000000#32 = some .peekByte := by decide
theorem test_decode_peekBytes : decoded 0b01110000000000001111111111111111#32 =
    some (.peekBytes false 65535#16) := by decide
theorem test_decode_resetPeek : decoded 0b10000000000000000000000000000000#32 =
    some .resetPeek := by decide
theorem test_decode_commitPeeked : decoded 0b10010000000000000000000000000000#32 =
    some .commitPeeked := by decide
theorem test_decode_getPeekOffset : decoded 0b10100000000000000000000000000000#32 =
    some .getPeekOffset := by decide
theorem test_decode_restorePeekOffset : decoded 0b10110000000000000000000000000100#32 =
    some (.restorePeekOffset 4#16) := by decide
theorem test_decode_isEmpty : decoded 0b11000000000000000000000000000000#32 = some .isEmpty := by decide
theorem test_decode_count : decoded 0b11010000000000000000000000000000#32 = some .count := by decide
theorem test_decode_availableCount : decoded 0b11100000000000000000000000000000#32 =
    some .availableCount := by decide
theorem test_decode_isPeekEmpty : decoded 0b11110000000000000000000000000000#32 =
    some .isPeekEmpty := by decide

/-- 30_encoding.md rule R84: a malformed word is refused by name, its opcode kept. -/
theorem test_decode_malformed : decode 0x33000005#32 = .error (.malformed 0x3#4) := rfl

/-- A table word keeps bits 31:0; a number with a 1 above them is no word. -/
theorem test_decodeTableWord :
    decodeTableWord 32 0x20000045 = some (.pushByte 0x45#8) ∧
      decodeTableWord 32 0x20000145 = none ∧ decodeTableWord 40 0x120000045 = none := by decide

/-- The encoder on three rows of 95_test_vectors.md section 2.1. -/
theorem test_encode :
    encode (.construct true true 65535#16) = 0x0300FFFF#32 ∧
      encode (.pushByte 0xFF#8) = 0x200000FF#32 ∧
      encode (.peekBytes false 65535#16) = 0x7000FFFF#32 := by decide

/-! ## One step from a small state -/

/-- A cell that has not been written, in a list of cells. -/
def dash : Nat := 256

/-- A storage from its cells in order, from cell `a` on. -/
def storageFrom : Nat → List Nat → Memory
  | _, [] => []
  | a, b :: rest =>
    if b < 256 then (a, BitVec.ofNat 8 b) :: storageFrom (a + 1) rest else storageFrom (a + 1) rest

/-- The five cursors from numbers. -/
def cursorsOf (head tail length peekCursor peekLength : Nat) : Cursors :=
  ⟨toIdx head, toIdx tail, toIdx length, toIdx peekCursor, toIdx peekLength⟩

/-- A constructed controller: `C`, the policy, the five cursors, the cells from cell 0 on. -/
def queue (C : Nat) (ovw : Bool) (head tail length peekCursor peekLength : Nat) (cells : List Nat) :
    State :=
  { State.reset.withCursors (cursorsOf head tail length peekCursor peekLength) with
    constructed := true, capacity := toIdx C, overwriteEnabled := ovw, storage := storageFrom 0 cells }

/-- What a test looks at after a step. -/
structure Seen where
  rsp : Option RspWord
  cursors : Cursors
  trace : List Access
  dout : List Byte
  deriving DecidableEq, Repr

/-- What there is to see if an outcome is a next state. -/
def seen : Host.Outcome State Fault Refusal → Option Seen
  | .next t => some ⟨t.rsp, t.cursors, t.trace, t.dout⟩
  | .fault _ => none
  | .refused _ => none

/-- One step with one word on the command port and some bytes on `din`. -/
def command (s : State) (word : CmdWord) (data : List Byte) : Option Seen :=
  seen (step { s with cmds := [word], din := data })

/-- V-CON-1: first construction after hardware reset. -/
theorem test_construct_first_construction :
    command State.reset 0x01000004#32 [] =
      some ⟨some 0x00000000#32, cursorsOf 0 0 0 0 0, [], []⟩ := by decide

/-- V-CON-7: a second construction: new capacity and policy, queued bytes lost, cells untouched. -/
theorem test_construct_construction_again :
    command (queue 4 false 2 1 3 3 2 [0x13, 0xEE, 0x11, 0x12]) 0x03000003#32 [] =
      some ⟨some 0x00000000#32, cursorsOf 0 0 0 0 0, [], []⟩ := by decide

/-- V-RST-1: RESET of a queue with content and an outstanding peek. -/
theorem test_reset_clears_the_cursors :
    command
        (queue 8 false 3 2 7 5 5 [0x06, 0x07, dash, 0x01, 0x02, 0x03, 0x04, 0x05])
        0x10000000#32 [] =
      some ⟨some 0x10000000#32, cursorsOf 0 0 0 0 0, [], []⟩ := by decide

/-- V-RST-3: RESET before construction. -/
theorem test_reset_before_construction :
    command State.reset 0x10000000#32 [] =
      some ⟨some 0x14000000#32, cursorsOf 0 0 0 0 0, [], []⟩ := by decide

/-- V-PUSH-3: full, overwrite disabled: FULL, no change. -/
theorem test_pushByte_full :
    command (queue 4 false 0 0 4 0 4 [0x41, 0x42, 0x43, 0x44]) 0x20000045#32 [] =
      some ⟨some 0x28000000#32, cursorsOf 0 0 4 0 4, [], []⟩ := by decide

/-- V-PUSH-4: full, overwrite enabled, two bytes peeked: evict one, resync, write over the evicted
cell. -/
theorem test_pushByte_evicts_and_resyncs :
    command (queue 4 true 1 1 4 3 2 [0x45, 0x42, 0x43, 0x44]) 0x20000046#32 [] =
      some ⟨some 0x20000001#32, cursorsOf 2 2 4 2 4, [⟨true, 1#16, 0x46#8⟩], []⟩ := by decide

/-- V-PUSHN-5: overwrite disabled, free 2, request 5: writes data[0..1], becomes full. -/
theorem test_pushBytes_truncates :
    command
        (queue 8 false 7 5 6 7 6 [0x02, 0x03, 0x04, 0x05, 0x06, dash, dash, 0x01])
        0x31000005#32 [0x0A#8, 0x0B#8, 0x0C#8, 0x0D#8, 0x0E#8] =
      some ⟨some 0x30000002#32, cursorsOf 7 7 8 7 8,
        [⟨true, 5#16, 0x0A#8⟩, ⟨true, 6#16, 0x0B#8⟩],
        []⟩ := by decide

/-- V-PUSHN-7: overwrite enabled, free 2, request 5, two bytes peeked: evict 3, resync, split copy.
-/
theorem test_pushBytes_evicts_and_splits :
    command
        (queue 8 true 7 5 6 1 4 [0x02, 0x03, 0x04, 0x05, 0x06, dash, dash, 0x01])
        0x31000005#32 [0x0A#8, 0x0B#8, 0x0C#8, 0x0D#8, 0x0E#8] =
      some ⟨some 0x30000005#32, cursorsOf 2 2 8 2 8,
        [⟨true, 5#16, 0x0A#8⟩, ⟨true, 6#16, 0x0B#8⟩, ⟨true, 7#16, 0x0C#8⟩, ⟨true, 0#16, 0x0D#8⟩, ⟨true, 1#16, 0x0E#8⟩],
        []⟩ := by decide

/-- V-POP-2: head at C-1 wraps to 0. -/
theorem test_popByte_wraps_head :
    command (queue 4 false 3 1 2 3 2 [0x45, dash, dash, 0x44]) 0x40000000#32 [] =
      some ⟨some 0x40000044#32, cursorsOf 0 1 1 0 1, [⟨false, 3#16, 0x44#8⟩], []⟩ := by decide

/-- V-POP-3: freshly constructed queue: EMPTY. -/
theorem test_popByte_empty :
    command (queue 4 false 0 0 0 0 0 [dash, dash, dash, dash]) 0x40000000#32 [] =
      some ⟨some 0x4C000000#32, cursorsOf 0 0 0 0 0, [], []⟩ := by decide

/-- V-POPN-4: request above length: less than asked. -/
theorem test_popBytes_less_than_asked :
    command
        (queue 8 false 6 1 3 6 3 [0x03, dash, dash, dash, dash, dash, 0x01, 0x02])
        0x51000009#32 [] =
      some ⟨some 0x50000003#32, cursorsOf 1 1 0 1 0,
        [⟨false, 6#16, 0x01#8⟩, ⟨false, 7#16, 0x02#8⟩, ⟨false, 0#16, 0x03#8⟩],
        [0x01#8, 0x02#8, 0x03#8]⟩ := by decide

/-- V-POPN-5: zero request on a non-empty queue with two bytes peeked: no byte read, peek window
resynchronised. -/
theorem test_popBytes_of_nothing_resyncs :
    command
        (queue 8 false 6 1 3 0 1 [0x03, dash, dash, dash, dash, dash, 0x01, 0x02])
        0x51000000#32 [] =
      some ⟨some 0x50000000#32, cursorsOf 6 1 3 6 3, [], []⟩ := by decide

/-- V-PEEK-2: peek_cursor at C-1 wraps to 0. -/
theorem test_peekByte_wraps_peek_cursor :
    command (queue 4 false 1 1 4 3 2 [0x45, 0x42, 0x43, 0x44]) 0x60000000#32 [] =
      some ⟨some 0x60000044#32, cursorsOf 1 1 4 0 1, [⟨false, 3#16, 0x44#8⟩], []⟩ := by decide

/-- V-PEEK-3: non-empty queue peeked entirely: EMPTY. -/
theorem test_peekByte_empty_window :
    command (queue 4 false 1 3 2 3 0 [dash, 0x42, 0x43, dash]) 0x60000000#32 [] =
      some ⟨some 0x6C000000#32, cursorsOf 1 3 2 3 0, [], []⟩ := by decide

/-- V-PEEKN-2: continues where the last peek stopped; split; clamped to peek_length. -/
theorem test_peekBytes_goes_on_and_splits :
    command
        (queue 8 false 3 2 7 7 3 [0x06, 0x07, dash, 0x01, 0x02, 0x03, 0x04, 0x05])
        0x71000004#32 [] =
      some ⟨some 0x70000003#32, cursorsOf 3 2 7 2 0,
        [⟨false, 7#16, 0x05#8⟩, ⟨false, 0#16, 0x06#8⟩, ⟨false, 1#16, 0x07#8⟩],
        [0x05#8, 0x06#8, 0x07#8]⟩ := by decide

/-- V-PEEKN-4: full queue, nothing peeked, n == C: peek_cursor returns to head, peek_length 0,
offset C. -/
theorem test_peekBytes_of_everything_when_full :
    command (queue 4 false 2 2 4 2 4 [0x03, 0x04, 0x01, 0x02]) 0x71000004#32 [] =
      some ⟨some 0x70000004#32, cursorsOf 2 2 4 2 0,
        [⟨false, 2#16, 0x01#8⟩, ⟨false, 3#16, 0x02#8⟩, ⟨false, 0#16, 0x03#8⟩, ⟨false, 1#16, 0x04#8⟩],
        [0x01#8, 0x02#8, 0x03#8, 0x04#8]⟩ := by decide

/-- V-RPEEK-1: rollback after four peeked bytes. -/
theorem test_resetPeek_rolls_back :
    command
        (queue 8 false 3 2 7 7 3 [0x06, 0x07, dash, 0x01, 0x02, 0x03, 0x04, 0x05])
        0x80000000#32 [] =
      some ⟨some 0x80000000#32, cursorsOf 3 2 7 3 7, [], []⟩ := by decide

/-- V-RPEEK-3: before construction. -/
theorem test_resetPeek_before_construction :
    command State.reset 0x80000000#32 [] =
      some ⟨some 0x84000000#32, cursorsOf 0 0 0 0 0, [], []⟩ := by decide

/-- V-COMMIT-1: commit four peeked bytes: same end state as V-POPN-1. -/
theorem test_commitPeeked_commits_four_bytes :
    command
        (queue 8 false 3 2 7 7 3 [0x06, 0x07, dash, 0x01, 0x02, 0x03, 0x04, 0x05])
        0x90000000#32 [] =
      some ⟨some 0x90000000#32, cursorsOf 7 2 3 7 3, [], []⟩ := by decide

/-- V-COMMIT-4: full queue peeked entirely: head keeps its index, length goes from C to 0. -/
theorem test_commitPeeked_empties_a_full_queue :
    command (queue 4 false 2 2 4 2 0 [0x03, 0x04, 0x01, 0x02]) 0x90000000#32 [] =
      some ⟨some 0x90000000#32, cursorsOf 2 2 0 2 0, [], []⟩ := by decide

/-- V-GETOFF-1: four bytes peeked. -/
theorem test_getPeekOffset_of_four :
    command
        (queue 8 false 3 2 7 7 3 [0x06, 0x07, dash, 0x01, 0x02, 0x03, 0x04, 0x05])
        0xA0000000#32 [] =
      some ⟨some 0xA0000004#32, cursorsOf 3 2 7 7 3, [], []⟩ := by decide

/-- V-GETOFF-3: full queue peeked entirely: returns C = 4 although peek_cursor == head. -/
theorem test_getPeekOffset_of_a_full_queue :
    command (queue 4 false 2 2 4 2 0 [0x03, 0x04, 0x01, 0x02]) 0xA0000000#32 [] =
      some ⟨some 0xA0000004#32, cursorsOf 2 2 4 2 0, [], []⟩ := by decide

/-- V-RESTORE-4: forward to count == length: window exhausted, peek_cursor == tail. -/
theorem test_restorePeekOffset_to_the_length :
    command
        (queue 8 false 3 2 7 4 6 [0x06, 0x07, dash, 0x01, 0x02, 0x03, 0x04, 0x05])
        0xB0000007#32 [] =
      some ⟨some 0xB0000000#32, cursorsOf 3 2 7 2 0, [], []⟩ := by decide

/-- V-RESTORE-6: count above length: INVALID_ARGUMENT, no change. -/
theorem test_restorePeekOffset_beyond_the_length :
    command
        (queue 8 false 3 2 7 7 3 [0x06, 0x07, dash, 0x01, 0x02, 0x03, 0x04, 0x05])
        0xB0000008#32 [] =
      some ⟨some 0xB4000000#32, cursorsOf 3 2 7 7 3, [], []⟩ := by decide
/-- The queries of 95_test_vectors.md section 2.7: `C = 8`, full, 2 peeked; and the largest queue. -/
theorem test_isEmpty_when_full :
    command (queue 8 false 0 0 8 2 6 []) 0xC0000000#32 [] =
      some ⟨some 0xC0000000#32, cursorsOf 0 0 8 2 6, [], []⟩ := by decide
theorem test_isEmpty_when_fresh :
    command (queue 8 false 0 0 0 0 0 []) 0xC0000000#32 [] =
      some ⟨some 0xC0000001#32, cursorsOf 0 0 0 0 0, [], []⟩ := by decide
theorem test_count_of_the_largest_queue :
    command (queue 65535 false 0 0 65535 0 65535 []) 0xD0000000#32 [] =
      some ⟨some 0xD000FFFF#32, cursorsOf 0 0 65535 0 65535, [], []⟩ := by decide
theorem test_availableCount_of_seven_in_eight :
    command (queue 8 false 0 7 7 7 0 []) 0xE0000000#32 [] =
      some ⟨some 0xE0000001#32, cursorsOf 0 7 7 7 0, [], []⟩ := by decide
theorem test_isPeekEmpty_when_all_peeked :
    command (queue 8 false 0 7 7 7 0 []) 0xF0000000#32 [] =
      some ⟨some 0xF0000001#32, cursorsOf 0 7 7 7 0, [], []⟩ := by decide

/-- 95_test_vectors.md section 2.1: a malformed word is answered before construction too. -/
theorem test_malformed_word_before_construction :
    command State.reset 0x20000141#32 [] =
      some ⟨some 0x24000000#32, cursorsOf 0 0 0 0 0, [], []⟩ := by decide

/-- The host's placing of an instruction: the very next step runs it (V-CON-1). -/
theorem test_withFetchWord :
    seen (step (State.reset.withFetchWord 32 0x01000004)) =
      some ⟨some 0x00000000#32, cursorsOf 0 0 0 0 0, [], []⟩ := by decide

/-- 40_common_datapath.md rules R110, R111 and R114, on the tables of 95_test_vectors.md section 2.2. -/
theorem test_wrap : wrap 8 7 = 7 ∧ wrap 8 8 = 0 ∧ wrap 1 1 = 0 ∧ wrap 65535 131069 = 65534 := by decide
theorem test_dist : dist 8 3 7 = 4 ∧ dist 8 7 2 = 3 ∧ dist 8 5 5 = 0 := by decide
theorem test_segments :
    segments 8 5 5 = [⟨5, 3⟩, ⟨0, 2⟩] ∧ segments 8 5 3 = [⟨5, 3⟩] ∧ segments 8 4 0 = [] ∧
      segments 65535 65534 65535 = [⟨65534, 1⟩, ⟨0, 65534⟩] := by decide
theorem test_arbitrate :
    (queue 8 true 0 6 6 0 6 []).arbitrate 5 = (5, 3) ∧
      (queue 8 false 0 6 6 0 6 []).arbitrate 5 = (2, 0) ∧
      (queue 1 true 0 0 1 0 1 []).arbitrate 1 = (1, 1) := by decide

/-- The status outputs of 95_test_vectors.md section 2.7, `C = 8`, full, 2 peeked: `1 0 1 0 8 0`. -/
theorem test_status_outputs :
    let s := queue 8 false 0 0 8 2 6 []
    s.stConstructed = true ∧ s.stEmpty = false ∧ s.stFull = true ∧ s.stPeekEmpty = false ∧
      s.stCount = 8#16 ∧ s.stAvail = 0#16 := by decide

/-- The storage keeps its canonical form: at reset, and under writes below, at and above an entry. -/
theorem test_memory_wf :
    Memory.wf State.reset.storage ∧
      Memory.write [(1, 1#8), (3, 3#8)] 2 9#8 = [(1, 1#8), (2, 9#8), (3, 3#8)] ∧
      Memory.write [(1, 1#8), (3, 3#8)] 3 9#8 = [(1, 1#8), (3, 9#8)] ∧
      Memory.write [(1, 1#8)] 0 9#8 = [(0, 9#8), (1, 1#8)] := by decide

/-- A term that is no command is refused by name. -/
theorem test_runCommand_refuses :
    runCommand ⟨.pushBytes true 2#16, [1#8]⟩ State.reset = .refused .illFormedCommand := rfl

/-- The one fault: a state that breaks I2 presents a cell that does not exist. -/
theorem test_noSuchCell_is_reached :
    exec .popByte (queue 4 false 4 1 1 4 1 []) = .fault (.noSuchCell 4) := rfl

/-! ## The hypotheses of the statements can be met

Each theorem names a statement and meets its hypotheses, clause by clause, at the ends of their ranges. -/

/-- An empty queue of four cells. -/
def emptyQueue : State := queue 4 false 1 1 0 1 0 []

/-- A full queue that rejects, two of its four bytes peeked. -/
def fullQueue : State := queue 4 false 1 1 4 3 2 [0x45, 0x42, 0x43, 0x44]

/-- A full queue that evicts, two of its four bytes peeked. -/
def evictingQueue : State := { fullQueue with overwriteEnabled := true }

/-- A full queue all of whose bytes have been peeked. -/
def peekedQueue : State := queue 4 false 2 2 4 2 0 [0x03, 0x04, 0x01, 0x02]

/-- Three bytes of eight, none peeked, the last cell in use. -/
def threeBytes : State := queue 8 true 6 1 3 6 3 [0x03, dash, dash, dash, dash, dash, 0x01, 0x02]

/-- One byte of one. -/
def oneByte : State := queue 1 true 0 0 1 0 1 [0x5A]

/-- A state whose producer offers bytes. -/
def offering (bytes : List Byte) (s : State) : State := HostMove.apply (.offer bytes) s

/-- A state whose host offers command words. -/
def presenting (words : List CmdWord) (s : State) : State := HostMove.apply (.present words) s

/-- A state whose consumer takes only so many bytes. -/
def taking (n : Nat) (s : State) : State := HostMove.apply (.limitDout (some n)) s

/-- A state in which the host drives `rst`. -/
def inReset (s : State) : State := HostMove.apply (.driveReset true) s

/-- The state an outcome leaves, and `State.reset` for a stop. -/
def leaves : Host.Outcome State Fault Refusal → State
  | .next t => t
  | .fault _ => State.reset
  | .refused _ => State.reset

/-- A push of five bytes that waits for its third. -/
def waitingPush : State := leaves (exec (.pushBytes true 5#16) (offering [4#8, 5#8] threeBytes))

/-- A pop of three bytes whose consumer takes one. -/
def waitingPop : State := leaves (exec (.popBytes true 3#16) (taking 1 threeBytes))

/-- A peek of two bytes whose consumer takes none. -/
def waitingPeek : State := leaves (exec (.peekBytes true 2#16) { fullQueue with doutLimit := some 0 })

/-- A controller whose response the host does not take. -/
def heldResponse : State := { threeBytes with rsp := some 0xD0000003#32, rspReady := false }

theorem test_named_states_are_well_formed :
    Inv emptyQueue ∧ Inv fullQueue ∧ Inv evictingQueue ∧ Inv peekedQueue ∧ Inv threeBytes ∧
      Inv oneByte ∧ Inv heldResponse := by and_intros <;> decide

theorem test_waiting_states_are_well_formed :
    Inv waitingPush ∧ waitingPush.work ≠ none ∧ Inv waitingPop ∧ waitingPop.work ≠ none := by
  and_intros <;> decide

/-- 70_reset_and_hazards.md rule R234: at the end of a run the last response (V-CON-1) has been taken, and the
controller takes commands again. -/
theorem test_run_ends_with_the_response_taken :
    let t := leaves (runProgram [⟨.construct true false 4#16, []⟩] State.reset)
    t.rspLog = [0x00000000#32] ∧ t.rsp = none ∧ t.cmdReady = true ∧ t.runEnded = true ∧
      t.capacity = 4#16 := by decide

/-- A delivery resumed by its consumer goes on with the next byte (V-POPN-4's bytes, taken in two pieces). -/
theorem test_resumed_pop :
    seen (step (HostMove.apply (.limitDout none) waitingPop)) =
      some ⟨some 0x50000003#32, cursorsOf 1 1 0 1 0,
        [⟨false, 6#16, 0x01#8⟩, ⟨false, 7#16, 0x02#8⟩, ⟨false, 0#16, 0x03#8⟩],
        [0x01#8, 0x02#8, 0x03#8]⟩ := by decide

theorem witness_EncodeAndDecodeAreInverse :
    (0x0300FFFF#32 : CmdWord) &&& (rowOf (opField 0x0300FFFF#32)).format.mask =
      (opField 0x0300FFFF#32).setWidth 32 <<< 28 := by decide

theorem witness_NoWordMatchesTwoRows :
    (0xF0000000#32 : CmdWord) &&& (rowOf 0xF#4).format.mask = (0xF#4 : BitVec 4).setWidth 32 <<< 28 := by decide

theorem witness_StepRunsTheDecodedCommand :
    let s := { presenting [0xD0000000#32] threeBytes with rsp := some 0x10000000#32 };
    s.rst = false ∧ s.work = none ∧ (s.rsp = none ∨ s.rspReady = true) ∧ s.cmds = 0xD0000000#32 :: [] ∧
      decoded 0xD0000000#32 = some .count := by and_intros <;> decide

theorem witness_MalformedWordIsAnsweredAndChangesNothing :
    TakesCommand (presenting [0x04000004#32] State.reset) ∧
      (presenting [0x04000004#32] State.reset).cmds = 0x04000004#32 :: [] ∧
      (0x04000004#32 : CmdWord) &&& (rowOf ((0x04000004#32 : CmdWord).extractLsb' 28 4)).format.mask ≠
        ((0x04000004#32 : CmdWord).extractLsb' 28 4).setWidth 32 <<< 28 := by and_intros <;> decide

/-- A malformed word, and a PUSH_BYTES with exactly the bytes it needs. -/
theorem witness_EveryWordGetsOneResponse :
    (Inv (presenting [0xFFFFFFFF#32] threeBytes) ∧
      TakesCommand (presenting [0xFFFFFFFF#32] threeBytes) ∧ decoded 0xFFFFFFFF#32 = none) ∧
    (Inv (presenting [0x31000002#32] (offering [7#8, 8#8] threeBytes)) ∧
      TakesCommand (presenting [0x31000002#32] (offering [7#8, 8#8] threeBytes)) ∧
      decoded 0x31000002#32 = some (.pushBytes true 2#16) ∧
      (offering [7#8, 8#8] threeBytes).streamsServe (.pushBytes true 2#16) = true) := by
  and_intros <;> decide

theorem witness_EveryWordGetsOneResponse_streams :
    ∀ i, decode 0x31000002#32 = .ok i →
      (presenting [0x31000002#32] (offering [7#8, 8#8] threeBytes)).streamsServe i = true := by
  intro i h
  have h' : decode 0x31000002#32 = .ok (.pushBytes true 2#16) := rfl
  obtain rfl : Instr.pushBytes true 2#16 = i := Except.ok.inj (h'.symm.trans h)
  decide

theorem witness_ResetsLeaveTheirValues :
    (inReset waitingPush).rst = true ∧
      ((1#16 : Idx) ≠ 0#16 ∧ State.reset.work = none) ∧
      (fullQueue.constructed = true ∧ fullQueue.work = none) := by and_intros <;> decide

theorem witness_HardwareResetAbandonsTheCommand :
    (inReset waitingPop).rst = true ∧ waitingPop.work ≠ none := by and_intros <;> decide

theorem witness_ControllerHoldsItsStateWhileItWaits :
    (TakesCommand threeBytes ∧ threeBytes.cmds = []) ∧
      (heldResponse.rst = false ∧ heldResponse.work = none ∧ heldResponse.rsp.isSome = true ∧
        heldResponse.rspReady = false) := by and_intros <;> decide

/-- Both streams: a push whose producer offers nothing, a pop whose consumer takes nothing more. -/
theorem witness_WithheldStreamHoldsTheCommand :
    (Inv waitingPush ∧ waitingPush.rst = false ∧ (waitingPush.work.map Work.direction) = some .toStorage ∧
      waitingPush.din = []) ∧
    (Inv waitingPop ∧ waitingPop.rst = false ∧ (waitingPop.work.map Work.direction) = some .fromStorage ∧
      waitingPop.doutLimit = some 0) := by and_intros <;> decide

theorem witness_BytesOfferedInPiecesGiveTheSameResult :
    Inv threeBytes ∧ threeBytes.constructed = true ∧ threeBytes.rst = false ∧ threeBytes.work = none ∧
      exec (.pushBytes true 5#16) { threeBytes with din := [4#8, 5#8] } = .next waitingPush ∧
      waitingPush.work ≠ none :=
  ⟨by decide, rfl, rfl, rfl, rfl, by decide⟩

theorem witness_BytesTakenInPiecesGiveTheSameResult :
    Inv threeBytes ∧ threeBytes.constructed = true ∧ threeBytes.rst = false ∧ threeBytes.work = none ∧
      exec (.popBytes true 3#16) { threeBytes with doutLimit := some 1 } = .next waitingPop ∧
      waitingPop.work ≠ none :=
  ⟨by decide, rfl, rfl, rfl, rfl, by decide⟩

/-- The same of a peek whose consumer takes nothing at first. -/
theorem witness_BytesTakenInPieces_peek :
    ∃ t, exec (.peekBytes true 3#16) { threeBytes with doutLimit := some 0 } = .next t ∧ t.work ≠ none :=
  ⟨_, rfl, by decide⟩

/-- Waiting after its first beat, and before any: the consumer takes exactly the rest, and one byte less. -/
theorem witness_WaitingDeliveryGoesOn :
    (Inv (taking 2 waitingPop) ∧ waitingPop.rst = false ∧
        (waitingPop.work.map Work.cmd) = some (.popBytes true 3#16) ∧
        (waitingPop.work.map Work.beat) = some 1 ∧ (taking 2 waitingPop).consumerTakes (3 - 1) = true) ∧
      (Inv (taking 1 waitingPop) ∧ (taking 1 waitingPop).doutLimit = some 1 ∧ 1 < 3 - 1) ∧
      (Inv waitingPeek ∧ waitingPeek.rst = false ∧
        (waitingPeek.work.map Work.cmd) = some (.peekBytes true 2#16) ∧
        (waitingPeek.work.map Work.beat) = some 0 ∧ waitingPeek.doutLimit = some 0 ∧ 0 < 2 - 0 ∧
        (taking 2 waitingPeek).consumerTakes (2 - 0) = true) := by
  and_intros <;> decide

/-- From an idle state, from a waiting one, and from one in hardware reset. -/
theorem witness_StepKeepsInvariants :
    (Inv fullQueue ∧ ∃ t, step fullQueue = .next t) ∧ (Inv waitingPush ∧ ∃ t, step waitingPush = .next t) ∧
      (Inv (inReset waitingPop) ∧ ∃ t, step (inReset waitingPop) = .next t) :=
  ⟨⟨by decide, _, rfl⟩, ⟨by decide, _, rfl⟩, by decide, _, rfl⟩

theorem witness_NoStepStopsTheController : Inv waitingPop := by decide

/-- A run from hardware reset that constructs a queue of one cell. -/
def constructedRun : State := leaves (step ((HostMove.present [0x01000001#32]).apply State.reset))

theorem witness_ReachableStatesAreSafe : Reachable constructedRun :=
  .step (.host (.present [0x01000001#32]) .reset) rfl

/-- Two commands of two contexts, in the second order, from reset and from a state with a response waiting. -/
theorem witness_RunsEndWithEveryResponseTaken :
    Command.wellFormed ⟨.pushBytes true 1#16, [7#8]⟩ = true ∧ Command.wellFormed ⟨.popByte, []⟩ = true ∧
      Merge [(⟨.pushBytes true 1#16, [7#8]⟩ : Command)] [⟨.popByte, []⟩]
        [⟨.popByte, []⟩, ⟨.pushBytes true 1#16, [7#8]⟩] ∧
      Launch State.reset ∧ Launch heldResponse :=
  ⟨by decide, by decide, .right (.left .done), ⟨by decide, rfl⟩, by decide, rfl⟩

/-- The smallest queue, the full one with everything peeked, and the largest capacity. -/
theorem witness_CursorInvariantsAreExact :
    constructedRun.constructed = true ∧ CursorInv 1 (cursorsOf 0 0 1 0 1) ∧
      CursorInv 4 (cursorsOf 2 2 4 2 0) ∧ CursorInv 65535 (cursorsOf 65534 65534 65535 65534 65535) := by
  and_intros <;> decide

/-- Capacity 1; an empty queue; nothing peeked; everything peeked on a full queue. -/
theorem witness_CursorInvariantConsequences :
    (Inv oneByte ∧ oneByte.constructed = true ∧ oneByte.capacity = 1#16) ∧
      (Inv emptyQueue ∧ emptyQueue.constructed = true ∧ emptyQueue.length = 0#16) ∧
      (Inv threeBytes ∧ threeBytes.constructed = true ∧ threeBytes.peekLength = threeBytes.length) ∧
      (Inv peekedQueue ∧ peekedQueue.constructed = true ∧ peekedQueue.peekLength = 0#16 ∧
        peekedQueue.length = peekedQueue.capacity) := by and_intros <;> decide

theorem witness_FullAndEmptyTestsAgree :
    (Inv emptyQueue ∧ emptyQueue.constructed = true) ∧ (Inv fullQueue ∧ fullQueue.constructed = true) ∧
      (Inv oneByte ∧ oneByte.constructed = true ∧ oneByte.capacity = 1#16) := by and_intros <;> decide

/-- No access, a copy that ends at the last cell, and one that goes one cell beyond it. -/
theorem witness_SegmentsCoverTheCopy :
    (7 < 8 ∧ 0 ≤ 8) ∧ (3 < 8 ∧ 5 ≤ 8 ∧ 0 < 5 ∧ 3 + 5 ≤ 8) ∧ (3 < 8 ∧ 6 ≤ 8 ∧ 8 < 3 + 6) := by
  and_intros <;> decide

/-- A request of exactly the free room, of one more under either policy, of nothing, of the capacity. -/
theorem witness_ArbiterCountsAreBounded :
    (Inv threeBytes ∧ threeBytes.constructed = true ∧ threeBytes.capacity.toNat - threeBytes.length.toNat = 5 ∧
      5 ≤ threeBytes.capacity.toNat) ∧
    (6 ≤ threeBytes.capacity.toNat ∧ threeBytes.overwriteEnabled = true) ∧
    (Inv fullQueue ∧ fullQueue.constructed = true ∧ fullQueue.overwriteEnabled = false ∧
      1 ≤ fullQueue.capacity.toNat) ∧
    (Inv evictingQueue ∧ evictingQueue.constructed = true ∧ 4 = evictingQueue.capacity.toNat) := by
  and_intros <;> decide

/-- An eviction of nothing, and of everything. -/
theorem witness_EvictionAdvancesHeadAndResyncs :
    CursorInv 4 evictingQueue.cursors ∧ 0 ≤ evictingQueue.cursors.length.toNat ∧
      4 ≤ evictingQueue.cursors.length.toNat ∧ 4 ≤ 65535 := by and_intros <;> decide

theorem witness_PeekOffsetIsTheDistanceButForOneState :
    (0 < 1 ∧ 7 < 8) ∧ (Inv fullQueue ∧ fullQueue.constructed = true ∧
        ¬(fullQueue.length = fullQueue.capacity ∧ fullQueue.peekLength = 0#16)) ∧
      (Inv peekedQueue ∧ peekedQueue.constructed = true ∧ peekedQueue.length = peekedQueue.capacity ∧
        peekedQueue.peekLength = 0#16) := by and_intros <;> decide

/-- Each status other than `OK`. -/
theorem witness_NonOkResponseChangesNothing :
    (emptyQueue.rsp = none ∧
        exec .popByte emptyQueue = .next { emptyQueue with rsp := some (responseWord 4#4 .empty 0#16) }) ∧
      (fullQueue.rsp = none ∧ exec (.pushByte 1#8) fullQueue =
        .next { fullQueue with rsp := some (responseWord 2#4 .full 0#16) }) ∧
      (fullQueue.rsp = none ∧ exec (.restorePeekOffset 5#16) fullQueue =
        .next { fullQueue with rsp := some (responseWord 11#4 .invalidArgument 0#16) }) :=
  ⟨⟨rfl, rfl⟩, ⟨rfl, rfl⟩, rfl, rfl⟩

theorem witness_NonOkStatusesHaveTheirConditions :
    (Inv fullQueue ∧ fullQueue.rsp = none) ∧
      (TakesCommand (presenting [0x10000001#32] fullQueue) ∧ wellFormedWord 0x10000001#32 = false) := by
  and_intros <;> decide

theorem witness_UnconstructedRejectsAllButConstruct :
    State.reset.constructed = false ∧
      ∀ bufPresent ovw capacity, Instr.popByte ≠ .construct bufPresent ovw capacity :=
  ⟨rfl, fun _ _ _ => Instr.noConfusion⟩

/-- A construction, and a hardware reset. -/
theorem witness_OnlyConstructAndResetChangeTheConfiguration :
    (∃ t, step (presenting [0x01000001#32] State.reset) = .next t ∧
        t.constructed ≠ State.reset.constructed) ∧
      (∃ t, step (inReset fullQueue) = .next t ∧ t.capacity ≠ fullQueue.capacity) :=
  ⟨⟨_, rfl, by decide⟩, _, rfl, by decide⟩

/-- An absent buffer, a zero capacity, and the two ends of the capacities. -/
theorem witness_ConstructRule :
    (false = false ∨ (4#16 : Idx) = 0#16) ∧ (true = false ∨ (0#16 : Idx) = 0#16) ∧
      (1#16 : Idx) ≠ 0#16 ∧ (65535#16 : Idx) ≠ 0#16 := by and_intros <;> decide

theorem witness_ResetRule :
    State.reset.constructed = false ∧ fullQueue.constructed = true ∧ fullQueue.capacity ≠ 0#16 := by
  and_intros <;> decide

theorem witness_PushByteRule :
    (Inv State.reset ∧ State.reset.constructed = false) ∧
      (Inv fullQueue ∧ fullQueue.constructed = true ∧ fullQueue.length = fullQueue.capacity ∧
        fullQueue.overwriteEnabled = false) ∧
      (Inv emptyQueue ∧ emptyQueue.constructed = true ∧ emptyQueue.length ≠ emptyQueue.capacity) ∧
      (Inv oneByte ∧ oneByte.constructed = true ∧ oneByte.length = oneByte.capacity ∧
        oneByte.overwriteEnabled = true) := by and_intros <;> decide

/-- Exactly the bytes needed: with eviction, without, and none at all. -/
theorem witness_PushBytesRule :
    (Inv (offering [1#8, 2#8, 3#8, 4#8] evictingQueue) ∧ evictingQueue.constructed = true ∧
        (evictingQueue.arbitrate 4).1 = 4) ∧
      (Inv (offering [1#8] emptyQueue) ∧ emptyQueue.constructed = true ∧
        (emptyQueue.arbitrate 1).1 = 1) ∧
      (Inv fullQueue ∧ fullQueue.constructed = true ∧ (fullQueue.arbitrate 4).1 = 0 ∧
        fullQueue.din = []) := by and_intros <;> decide

/-- One byte too few, with none on `din` and with some. -/
theorem witness_PushBytesWaitsForTheProducer :
    (Inv emptyQueue ∧ emptyQueue.constructed = true ∧
        emptyQueue.din.length < (emptyQueue.arbitrate (min (1#16 : Idx).toNat 4)).1) ∧
      (Inv (offering [4#8, 5#8] threeBytes) ∧
        2 < (threeBytes.arbitrate (min (3#16 : Idx).toNat threeBytes.capacity.toNat)).1) := by
  and_intros <;> decide

/-- A push that evicts one byte, one into the last free cells, one that waits, and one that is rejected. -/
theorem witness_PushWritesFreeOrEvictedCells :
    (Inv evictingQueue ∧ evictingQueue.constructed = true ∧ (evictingQueue.arbitrate 1) = (1, 1)) ∧
      (Inv (offering [4#8, 5#8, 6#8, 7#8, 8#8] threeBytes) ∧ threeBytes.constructed = true ∧
        5 = min (5#16 : Idx).toNat threeBytes.capacity.toNat ∧ threeBytes.arbitrate 5 = (5, 0)) ∧
      (Inv (offering [4#8] threeBytes) ∧ 6 = min (6#16 : Idx).toNat threeBytes.capacity.toNat ∧
        threeBytes.arbitrate 6 = (6, 1)) ∧
      (Inv fullQueue ∧ fullQueue.constructed = true ∧ fullQueue.arbitrate 1 = (0, 0)) := by
  and_intros <;> decide

theorem witness_CellsFromTailAreFreeOrOldest :
    (Inv threeBytes ∧ threeBytes.constructed = true ∧ 5 ≤ threeBytes.capacity.toNat ∧
        (threeBytes.arbitrate 5).2 = 0) ∧
      (6 ≤ threeBytes.capacity.toNat ∧ (threeBytes.arbitrate 6).2 = 1) := by and_intros <;> decide

theorem witness_PopByteRule :
    Inv State.reset ∧ (Inv emptyQueue ∧ emptyQueue.constructed = true ∧ emptyQueue.length = 0#16) ∧
      (Inv oneByte ∧ oneByte.constructed = true ∧ oneByte.length = 1#16) := by and_intros <;> decide

/-- Nothing requested, and everything, of a consumer that takes exactly that. -/
theorem witness_PopBytesRule :
    (Inv emptyQueue ∧ emptyQueue.constructed = true ∧ emptyQueue.length = 0#16) ∧
      (Inv (taking 0 fullQueue) ∧ fullQueue.constructed = true ∧ fullQueue.length ≠ 0#16 ∧
        (taking 0 fullQueue).consumerTakes (min (0#16 : Idx).toNat fullQueue.length.toNat) = true) ∧
      (Inv (taking 4 fullQueue) ∧
        (taking 4 fullQueue).consumerTakes (min (65535#16 : Idx).toNat fullQueue.length.toNat) = true) := by
  and_intros <;> decide

theorem witness_PeekByteRule :
    Inv State.reset ∧ (Inv peekedQueue ∧ peekedQueue.constructed = true ∧ peekedQueue.peekLength = 0#16) ∧
      (Inv oneByte ∧ oneByte.constructed = true ∧ oneByte.peekLength = 1#16) := by and_intros <;> decide

theorem witness_PeekBytesRule :
    (Inv peekedQueue ∧ peekedQueue.constructed = true ∧ peekedQueue.peekLength = 0#16) ∧
      (Inv (taking 2 fullQueue) ∧ fullQueue.constructed = true ∧ fullQueue.peekLength ≠ 0#16 ∧
        (taking 2 fullQueue).consumerTakes (min (2#16 : Idx).toNat fullQueue.peekLength.toNat) = true) := by
  and_intros <;> decide

/-- A consumer that takes nothing, and one that takes all but the last byte. -/
theorem witness_DeliveryWaitsForTheConsumer :
    (Inv (taking 0 threeBytes) ∧ threeBytes.constructed = true ∧
        (taking 0 threeBytes).doutLimit = some 0 ∧ 0 < min (1#16 : Idx).toNat threeBytes.peekLength.toNat) ∧
      (Inv (taking 2 threeBytes) ∧ (taking 2 threeBytes).doutLimit = some 2 ∧
        2 < min (9#16 : Idx).toNat threeBytes.length.toNat) := by
  and_intros <;> decide

theorem witness_ResetPeekRule : State.reset.constructed = false ∧ fullQueue.constructed = true := by
  and_intros <;> decide

theorem witness_CommitPeekedRule :
    (Inv State.reset ∧ State.reset.constructed = false) ∧
      (Inv fullQueue ∧ fullQueue.constructed = true ∧ fullQueue.peekOffset ≠ 0) ∧
      (Inv threeBytes ∧ threeBytes.constructed = true ∧ threeBytes.peekOffset = 0) := by
  and_intros <;> decide

theorem witness_GetPeekOffsetRule :
    (Inv State.reset ∧ State.reset.constructed = false) ∧
      (Inv peekedQueue ∧ peekedQueue.constructed = true ∧ peekedQueue.length = peekedQueue.capacity ∧
        peekedQueue.peekLength = 0#16) := by and_intros <;> decide

/-- The largest count that is accepted, the smallest that is not, and zero. -/
theorem witness_RestorePeekOffsetRule :
    (Inv threeBytes ∧ threeBytes.constructed = true ∧ (3#16 : Idx).toNat ≤ threeBytes.length.toNat ∧
        (3#16 : Idx) = threeBytes.length) ∧
      threeBytes.length.toNat < (4#16 : Idx).toNat ∧ (0#16 : Idx).toNat ≤ threeBytes.length.toNat := by
  and_intros <;> decide

theorem witness_QueriesAnswerFromTheRegisters :
    State.reset.constructed = false ∧ Inv threeBytes ∧ threeBytes.constructed = true := by
  and_intros <;> decide

/-- A state in reset; an idle step; and a step that leaves a command in progress. -/
theorem witness_StatusOutputsFollowTheRegisters :
    Inv fullQueue ∧ (∃ t, step (inReset fullQueue) = .next t) ∧
      (∃ t, step fullQueue = .next t ∧ t.rsp = none) ∧
      (∃ t, step waitingPush = .next t ∧ t.work ≠ none) :=
  ⟨by decide, ⟨_, rfl⟩, ⟨_, rfl, rfl⟩, _, rfl, by decide⟩

/-- A PUSH_BYTE that evicts, and a PUSH_BYTES that has all its bytes. -/
theorem witness_PushAppendsToTheContent :
    (Inv evictingQueue ∧ evictingQueue.constructed = true ∧ ∃ t, exec (.pushByte 9#8) evictingQueue = .next t ∧
        t.rsp = some (responseWord 2#4 .ok 1#16)) ∧
      (Inv (offering [7#8] threeBytes) ∧
        ∃ t, exec (.pushBytes true 1#16) (offering [7#8] threeBytes) = .next t ∧ t.work = none) :=
  ⟨⟨by decide, by decide, _, rfl, rfl⟩, by decide, _, rfl, rfl⟩

theorem witness_PopTakesFromTheContent :
    Inv threeBytes ∧ threeBytes.constructed = true ∧ threeBytes.length ≠ 0#16 ∧
      (∃ t, exec .popByte threeBytes = .next t) ∧
      ∃ t, exec (.popBytes true 2#16) threeBytes = .next t ∧ t.work = none :=
  ⟨by decide, by decide, by decide, ⟨_, rfl⟩, _, rfl, rfl⟩

theorem witness_PeekReadsTheContentAtTheOffset :
    Inv fullQueue ∧ fullQueue.constructed = true ∧ fullQueue.peekLength ≠ 0#16 ∧
      (∃ t, exec .peekByte fullQueue = .next t) ∧
      ∃ t, exec (.peekBytes true 2#16) fullQueue = .next t ∧ t.work = none :=
  ⟨by decide, by decide, by decide, ⟨_, rfl⟩, _, rfl, rfl⟩

theorem witness_PeeksThenRollbackChangeNothing :
    (∀ c ∈ [(⟨.peekByte, []⟩ : Command), ⟨.peekBytes true 2#16, []⟩],
        c.instr = .peekByte ∨ ∃ len, c.instr = .peekBytes true len) ∧
      Inv threeBytes ∧ threeBytes.constructed = true ∧ threeBytes.work = none ∧
      threeBytes.peekLength = threeBytes.length :=
  ⟨by simp, by decide, by decide, by decide, by decide⟩

/-- One byte, and all three. -/
theorem witness_PeekThenCommitIsPop :
    Inv threeBytes ∧ threeBytes.constructed = true ∧ threeBytes.work = none ∧ threeBytes.doutLimit = none ∧
      threeBytes.peekLength = threeBytes.length ∧
      ((1#16 : Idx) ≠ 0#16 ∧ (1#16 : Idx).toNat ≤ threeBytes.length.toNat) ∧
      (3#16 : Idx) ≠ 0#16 ∧ (3#16 : Idx).toNat ≤ threeBytes.length.toNat := by and_intros <;> decide

theorem witness_CheckpointThenRestoreIsNoOp : Inv peekedQueue ∧ peekedQueue.constructed = true := by
  and_intros <;> decide

/-- A pop that reads: the window is written and the step completes. -/
theorem witness_ReadsStayInTheWrittenWindow :
    Inv (presenting [0x40000000#32] oneByte) ∧ WindowWritten (presenting [0x40000000#32] oneByte) ∧
      ∃ t, step (presenting [0x40000000#32] oneByte) = .next t ∧ t.trace ≠ [] := by
  refine ⟨by decide, ⟨fun k hk => ?_, fun w hw => nomatch hw⟩, _, rfl, by decide⟩
  have hk : k < 1 := hk
  obtain rfl : k = 0 := by omega
  rfl

theorem witness_CommandsActAsOnABoundedQueue :
    Inv (offering [7#8, 8#8] threeBytes) ∧ threeBytes.constructed = true ∧ threeBytes.work = none ∧
      (offering [7#8, 8#8] threeBytes).streamsServe (.pushBytes true 2#16) = true := by
  and_intros <;> decide

theorem witness_ProgramsRunAsOnABoundedQueue :
    (∀ c ∈ [(⟨.pushBytes true 2#16, [7#8, 8#8]⟩ : Command), ⟨.popByte, []⟩], c.wellFormed = true) ∧
      Inv threeBytes ∧ threeBytes.constructed = true ∧ threeBytes.work = none := by
  and_intros <;> decide

theorem witness_OverwriteKeepsTheLatestBytes :
    (Inv evictingQueue ∧ evictingQueue.constructed = true ∧ evictingQueue.work = none ∧
        evictingQueue.overwriteEnabled = true) ∧
      (Inv fullQueue ∧ fullQueue.constructed = true ∧ fullQueue.work = none ∧
        fullQueue.overwriteEnabled = false) := by and_intros <;> decide

/-- Two orders in which the commands of a producer and a consumer can reach the controller. -/
theorem test_merge : Merge [1, 2] [3] [1, 3, 2] ∧ Merge [1, 2] [3] [3, 1, 2] :=
  ⟨.left (.right (.left .done)), .right (.left (.left .done))⟩

end Sys2Proof.Tests
end

/-!
PROOFS. The registers that a construction fixes (00_scope.md rule R6): which operations keep them, and
which two steps do not.
-/

namespace Sys2Proof.Machine

/-- What a construction fixes: that there was one, the capacity, and the policy (00_scope.md rule R6,
10_state.md rule R26). -/
def State.configuration (s : State) : Bool × Idx × Bool :=
  (s.constructed, s.capacity, s.overwriteEnabled)

theorem State.configuration_eq_iff {s t : State} :
    t.configuration = s.configuration ↔
      t.constructed = s.constructed ∧ t.capacity = s.capacity ∧
        t.overwriteEnabled = s.overwriteEnabled := by
  simp [State.configuration]

@[simp] theorem Work.moveBytes_configuration (w : Work) (m : Nat) (s : State) :
    (w.moveBytes m s).configuration = s.configuration := by
  simp [State.configuration]

@[simp] theorem Work.commit_configuration (w : Work) (s : State) :
    (w.commit s).configuration = s.configuration := rfl

/-! ## Outcomes that keep the configuration -/

/-- If the outcome is a next state, its configuration is that of `s`. -/
def KeepsConfiguration (s : State) (o : Host.Outcome State Fault Refusal) : Prop :=
  ∀ t, o = .next t → t.configuration = s.configuration

namespace KeepsConfiguration

variable {s s' : State} {op : BitVec 4} {k k' : Host.Outcome State Fault Refusal}

theorem next (h : s'.configuration = s.configuration) : KeepsConfiguration s (.next s') := by
  rintro t ⟨⟩; exact h

theorem reject (st : Status) : KeepsConfiguration s (reject op st s) := next rfl

theorem respondOk {v : Idx} (h : s'.configuration = s.configuration) :
    KeepsConfiguration s (respondOk op v s') := next h

theorem ite {p : Prop} [Decidable p] (hk : KeepsConfiguration s k) (hk' : KeepsConfiguration s k') :
    KeepsConfiguration s (if p then k else k') := by
  split
  · exact hk
  · exact hk'

theorem whenConstructed (hk : KeepsConfiguration s k) :
    KeepsConfiguration s (whenConstructed op s k) := ite hk (reject _)

theorem whenBuffer {bufPresent : Bool} (hk : KeepsConfiguration s k) :
    KeepsConfiguration s (whenBuffer op bufPresent s k) := ite hk (reject _)

theorem requireCells {cells : List Nat} (hk : KeepsConfiguration s k) :
    KeepsConfiguration s (requireCells cells s k) :=
  fun t h => hk t (requireCells_next h).2

/-- A bulk command keeps the configuration whether it completes or waits for its stream. -/
theorem advance (w : Work) : KeepsConfiguration s (advance w s) := by
  rcases advance_cases w s with ⟨i, -, -, e⟩ | ⟨-, -, e⟩ | ⟨-, -, e⟩ <;> rw [e]
  · rintro t ⟨⟩
  · exact next (by simp)
  · exact next (w.moveBytes_configuration _ s)

/-- Every command but CONSTRUCT, by its checks in their order and what it ends with. -/
theorem exec {i : Instr} (hi : ∀ bufPresent ovw capacity, i ≠ .construct bufPresent ovw capacity) :
    KeepsConfiguration s (exec i s) := by
  cases i with
  | construct bufPresent ovw capacity => exact absurd rfl (hi bufPresent ovw capacity)
  | reset => exact whenConstructed (respondOk rfl)
  | pushByte => exact whenConstructed (ite (reject _) (requireCells (respondOk rfl)))
  | pushBytes => exact whenConstructed (whenBuffer (advance _))
  | popByte => exact whenConstructed (ite (reject _) (requireCells (respondOk rfl)))
  | popBytes => exact whenConstructed (whenBuffer (ite (respondOk rfl) (advance _)))
  | peekByte => exact whenConstructed (ite (reject _) (requireCells (respondOk rfl)))
  | peekBytes => exact whenConstructed (whenBuffer (ite (respondOk rfl) (advance _)))
  | resetPeek => exact whenConstructed (respondOk rfl)
  | commitPeeked => exact whenConstructed (respondOk rfl)
  | getPeekOffset => exact whenConstructed (respondOk rfl)
  | restorePeekOffset => exact whenConstructed (ite (reject _) (respondOk rfl))
  | isEmpty => exact whenConstructed (respondOk rfl)
  | count => exact whenConstructed (respondOk rfl)
  | availableCount => exact whenConstructed (respondOk rfl)
  | isPeekEmpty => exact whenConstructed (respondOk rfl)

end KeepsConfiguration

/-! ## The command that changes it -/

/-- CONSTRUCT is rejected and changes nothing, or succeeds and fixes its operands
(41_lifecycle.md rule R130). -/
theorem exec_construct_cases (bufPresent ovw : Bool) (capacity : Idx) (s : State) :
    exec (.construct bufPresent ovw capacity) s = reject 0x0#4 .invalidArgument s ∨
    (bufPresent = true ∧ capacity ≠ 0#16 ∧
      ∃ t, exec (.construct bufPresent ovw capacity) s = .next t ∧
        t.configuration = (true, capacity, ovw)) := by
  cases bufPresent with
  | false => exact .inl rfl
  | true =>
    by_cases hc : capacity = 0#16
    · exact .inl (if_pos hc)
    · exact .inr ⟨rfl, hc, _, if_neg hc, rfl⟩

/-- A command that changes the configuration is a successful CONSTRUCT, and the configuration it leaves
is its operands. -/
theorem exec_changes_configuration {i : Instr} {s t : State} (h : exec i s = .next t)
    (hne : t.configuration ≠ s.configuration) :
    ∃ ovw capacity, i = .construct true ovw capacity ∧ capacity ≠ 0#16 ∧
      t.configuration = (true, capacity, ovw) := by
  by_cases hi : ∃ bufPresent ovw capacity, i = .construct bufPresent ovw capacity
  · obtain ⟨bufPresent, ovw, capacity, rfl⟩ := hi
    rcases exec_construct_cases bufPresent ovw capacity s with e | ⟨rfl, hc, t', e, ht'⟩
    · exact absurd (KeepsConfiguration.reject _ t (e ▸ h)) hne
    · obtain rfl : t' = t := by simpa [e] using h
      exact ⟨ovw, capacity, rfl, hc, ht'⟩
  · push Not at hi
    exact absurd (KeepsConfiguration.exec hi t h) hne

/-- Settles O31: of the cases of a step only the hardware reset and a command can change the
configuration, and the command is then a successful CONSTRUCT. -/
theorem onlyConstructAndResetChangeTheConfiguration :
    Obligations.OnlyConstructAndResetChangeTheConfiguration := by
  unfold Obligations.OnlyConstructAndResetChangeTheConfiguration
  intro s t h hchange
  have hne : t.configuration ≠ s.configuration := by
    rw [Ne, State.configuration_eq_iff]
    tauto
  have keeps_false (hk : KeepsConfiguration s (step s)) : False := hne (hk t h)
  rcases step_cases s with ⟨hr, -⟩ | ⟨-, w, -, e⟩ | ⟨-, -, -, e⟩ | ⟨-, -, e⟩ |
    ⟨-, word, rest, -, -, e⟩ | ⟨ht, word, rest, i, hcmds, hd, e⟩
  · exact .inl hr
  · exact (keeps_false (e ▸ .advance w)).elim
  · exact (keeps_false (e ▸ .next rfl)).elim
  · exact (keeps_false (e ▸ .next rfl)).elim
  · exact (keeps_false (e ▸ .next rfl)).elim
  · obtain ⟨ovw, capacity, rfl, hc, hconf⟩ :=
      exec_changes_configuration (s := s.accepted rest) (e ▸ h) hne
    obtain ⟨hcon, hcap, hovw⟩ : t.constructed = true ∧ t.capacity = capacity ∧
        t.overwriteEnabled = ovw := by simpa [State.configuration] using hconf
    exact .inr ⟨ht, word, rest, ovw, capacity, hcmds, hd, hc, hcon, hcap, hovw⟩

end Sys2Proof.Machine

/-!
PROOFS. What a command can do, said once: it is rejected, it takes effect at once, or it is a bulk
command that the copy engine carries on.
-/

namespace Sys2Proof.Machine

/-! ## The effects that take no stream -/

/-- The cursors after COMMIT_PEEKED (44_peek.md rule R173). -/
def Cursors.committed (c : Cursors) : Cursors :=
  { c with head := c.peekCursor, length := c.peekLength }

/-- The cursors after RESTORE_PEEK_OFFSET of `count` bytes (44_peek.md rule R175). -/
def Cursors.restored (C count : Nat) (c : Cursors) : Cursors :=
  { c with
    peekCursor := toIdx (wrap C (c.head.toNat + count)), peekLength := toIdx (c.length.toNat - count) }

/-- The cursors from which PUSH_BYTE pushes: on a full queue the oldest byte has been evicted
(42_push.md rule R140). -/
def State.pushCursors (s : State) : Cursors :=
  if s.isFull then s.cursors.evict s.capacity.toNat 1 else s.cursors

/-- `ImmediateEffect s cells s'`: a command that takes no stream presents `cells` to the storage and
leaves `s'`, to which only its response is added. -/
inductive ImmediateEffect (s : State) : List Nat → State → Prop where
  /-- CONSTRUCT (41_lifecycle.md rule R130). -/
  | configure (ovw : Bool) (capacity : Idx) (hc : capacity ≠ 0#16) :
    ImmediateEffect s []
      { s.withCursors Cursors.zero with constructed := true, capacity, overwriteEnabled := ovw }
  /-- A query, or a bulk delivery with nothing to deliver. -/
  | keep : ImmediateEffect s [] s
  /-- RESET (41_lifecycle.md rule R131). -/
  | clear (hs : s.constructed = true) : ImmediateEffect s [] (s.withCursors Cursors.zero)
  /-- PUSH_BYTE (42_push.md rule R140). -/
  | push (hs : s.constructed = true) (byte : Byte) :
    ImmediateEffect s [s.pushCursors.tail.toNat]
      ((s.memWrite s.pushCursors.tail.toNat byte).withCursors (s.pushCursors.pushed s.capacity.toNat 1))
  /-- POP_BYTE (43_pop.md rule R160). -/
  | pop (hs : s.constructed = true) (he : s.isEmpty = false) :
    ImmediateEffect s [s.head.toNat]
      ((s.readCells [s.head.toNat]).withCursors (s.cursors.popped s.capacity.toNat 1))
  /-- PEEK_BYTE (44_peek.md rule R170). -/
  | peek (hs : s.constructed = true) (he : s.isPeekEmpty = false) :
    ImmediateEffect s [s.peekCursor.toNat]
      ((s.readCells [s.peekCursor.toNat]).withCursors (s.cursors.peeked s.capacity.toNat 1))
  /-- RESET_PEEK (44_peek.md rule R172). -/
  | resync (hs : s.constructed = true) : ImmediateEffect s [] (s.withCursors s.cursors.resyncPeek)
  /-- COMMIT_PEEKED (44_peek.md rule R173). -/
  | commit (hs : s.constructed = true) : ImmediateEffect s [] (s.withCursors s.cursors.committed)
  /-- RESTORE_PEEK_OFFSET (44_peek.md rule R175). -/
  | restore (hs : s.constructed = true) {count : Nat} (hc : count ≤ s.length.toNat) :
    ImmediateEffect s [] (s.withCursors (s.cursors.restored s.capacity.toNat count))

/-- No immediate effect touches the working state. -/
theorem ImmediateEffect.work_eq {s s' : State} {cells : List Nat} (h : ImmediateEffect s cells s') :
    s'.work = s.work := by
  cases h <;> rfl

/-! ## The outcomes of a command -/

/-- `CommandOutcome i s o`: what `exec i s` can be. -/
inductive CommandOutcome (i : Instr) (s : State) : Host.Outcome State Fault Refusal → Prop where
  | rejected (status : Status) : CommandOutcome i s (reject i.opcode status s)
  | immediate {cells : List Nat} {s' : State} (value : Idx) (h : ImmediateEffect s cells s') :
    CommandOutcome i s (requireCells cells s (respondOk i.opcode value s'))
  | bulk {w : Work} (hs : s.constructed = true) (hplan : planOf i s = some w) (hcmd : w.cmd = i)
    (hfresh : { w with beat := 0, accesses := 0 } = w) : CommandOutcome i s (advance w s)

namespace CommandOutcome

variable {i : Instr} {s s' : State} {k k' : Host.Outcome State Fault Refusal}

/-- A command that presents no cell. -/
theorem respondOk (value : Idx) (h : ImmediateEffect s [] s') :
    CommandOutcome i s (respondOk i.opcode value s') := immediate value h

theorem ite {p : Prop} [Decidable p] (hk : p → CommandOutcome i s k)
    (hk' : ¬p → CommandOutcome i s k') : CommandOutcome i s (if p then k else k') := by
  split
  · exact hk ‹_›
  · exact hk' ‹_›

theorem whenConstructed (hk : s.constructed = true → CommandOutcome i s k) :
    CommandOutcome i s (whenConstructed i.opcode s k) := ite hk fun _ => rejected _

theorem whenBuffer {bufPresent : Bool} (hk : bufPresent = true → CommandOutcome i s k) :
    CommandOutcome i s (whenBuffer i.opcode bufPresent s k) := ite hk fun _ => rejected _

/-- Every command, by its checks in their order (60_exceptions.md rule R208) and what it ends with. -/
theorem of_exec (i : Instr) (s : State) : CommandOutcome i s (exec i s) := by
  cases i with
  | construct bufPresent ovw capacity =>
    exact whenBuffer fun _ => ite (fun _ => rejected _) fun hc => respondOk _ (.configure ovw _ hc)
  | reset => exact whenConstructed fun hs => respondOk _ (.clear hs)
  | pushByte byte =>
    exact whenConstructed fun hs => ite (fun _ => rejected _) fun _ => immediate _ (.push hs byte)
  | pushBytes bufPresent len =>
    exact whenConstructed fun hs => whenBuffer fun hb => by subst hb; exact bulk hs rfl rfl rfl
  | popByte =>
    exact whenConstructed fun hs => ite (fun _ => rejected _) fun he =>
      immediate _ (.pop hs (Bool.not_eq_true _ ▸ he))
  | popBytes bufPresent len =>
    exact whenConstructed fun hs => whenBuffer fun hb => ite (fun _ => respondOk _ .keep) fun _ => by
      subst hb; exact bulk hs rfl rfl rfl
  | peekByte =>
    exact whenConstructed fun hs => ite (fun _ => rejected _) fun he =>
      immediate _ (.peek hs (Bool.not_eq_true _ ▸ he))
  | peekBytes bufPresent len =>
    exact whenConstructed fun hs => whenBuffer fun hb => ite (fun _ => respondOk _ .keep) fun _ => by
      subst hb; exact bulk hs rfl rfl rfl
  | resetPeek => exact whenConstructed fun hs => respondOk _ (.resync hs)
  | commitPeeked => exact whenConstructed fun hs => respondOk _ (.commit hs)
  | getPeekOffset => exact whenConstructed fun _ => respondOk _ .keep
  | restorePeekOffset count =>
    exact whenConstructed fun hs => ite (fun _ => rejected _) fun hc =>
      respondOk _ (.restore hs (not_lt.1 hc))
  | isEmpty => exact whenConstructed fun _ => respondOk _ .keep
  | count => exact whenConstructed fun _ => respondOk _ .keep
  | availableCount => exact whenConstructed fun _ => respondOk _ .keep
  | isPeekEmpty => exact whenConstructed fun _ => respondOk _ .keep

end CommandOutcome

end Sys2Proof.Machine

/-!
PROOFS. The well-formed states (10_state.md rule R30): what keeps them, and that every step does.
-/

namespace Sys2Proof.Machine

/-! ## The cursors -/

section
variable {C n : Nat} {c c' : Cursors}

/-- COMMIT_PEEKED keeps the invariants (44_peek.md rule R173). -/
theorem CursorInv.committed (h : CursorInv C c) : CursorInv C c.committed := by
  obtain ⟨h1, ⟨h2, h3, h4⟩, h5, h6, h7, h8⟩ := h
  refine ⟨h1, ⟨h4, h3, h4⟩, h7.trans h5, ?_, le_rfl, ?_⟩
  · calc c.tail.toNat
        = (c.head.toNat + (c.length.toNat - c.peekLength.toNat) + c.peekLength.toNat) % C := by
          rw [Nat.add_assoc, Nat.sub_add_cancel h7, h6]
      _ = (c.peekCursor.toNat + c.peekLength.toNat) % C := by rw [h8, Nat.mod_add_mod]
  · simp [Cursors.committed, Nat.mod_eq_of_lt h4]

/-- RESTORE_PEEK_OFFSET keeps the invariants (44_peek.md rule R175). -/
theorem CursorInv.restored (hC : C < 65536) (h : CursorInv C c) (hn : n ≤ c.length.toNat) :
    CursorInv C (c.restored C n) := by
  obtain ⟨h1, ⟨h2, h3, h4⟩, h5, h6, h7, h8⟩ := h
  have ep : (c.restored C n).peekCursor.toNat = (c.head.toNat + n) % C :=
    toIdx_wrap_toNat hC h2 (by omega)
  have el : (c.restored C n).peekLength.toNat = c.length.toNat - n := toIdx_toNat (by omega)
  refine ⟨h1, ⟨h2, h3, ?_⟩, h5, h6, ?_, ?_⟩
  · exact ep ▸ Nat.mod_lt _ h1
  · exact el ▸ Nat.sub_le _ _
  · rw [ep, el, show (c.restored C n).length = c.length from rfl, Nat.sub_sub_self hn]
    rfl

/-- `tail` and the peek cursor follow from the other three (I4 and I6). -/
theorem CursorInv.ext (h : CursorInv C c) (h' : CursorInv C c') (hh : c.head = c'.head)
    (hl : c.length = c'.length) (hp : c.peekLength = c'.peekLength) : c = c' := by
  obtain ⟨-, -, -, ht, -, hpc⟩ := h
  obtain ⟨-, -, -, ht', -, hpc'⟩ := h'
  have et : c.tail = c'.tail := BitVec.toNat_inj.1 (by rw [ht, ht', hh, hl])
  have ep : c.peekCursor = c'.peekCursor := BitVec.toNat_inj.1 (by rw [hpc, hpc', hh, hl, hp])
  cases c; cases c'; simp_all

end

/-- A PUSH_BYTE that is not rejected pushes from well-formed cursors with room for one byte. -/
theorem State.pushCursors_room {s : State} (h : CursorInv s.capacity.toNat s.cursors) :
    CursorInv s.capacity.toNat s.pushCursors ∧
      s.pushCursors.length.toNat + 1 ≤ s.capacity.toNat := by
  obtain ⟨hC, -, -, -, hl, -⟩ := s.cursorInv_linear h
  unfold State.pushCursors
  split_ifs with hf
  · rw [State.isFull_iff h] at hf
    have hone : 1 ≤ s.length.toNat := hf ▸ hC
    have hlen : (s.cursors.evict s.capacity.toNat 1).length.toNat = s.length.toNat - 1 :=
      Cursors.evict_length (idx_lt _) h hone
    exact ⟨h.evict (idx_lt _) hone, by omega⟩
  · rw [State.isFull_iff h] at hf
    exact ⟨h, Nat.lt_of_le_of_ne hl hf⟩

/-! ## The storage -/

/-- The part of the well-formed states that speaks of the storage. -/
def StorageInv (m : Memory) : Prop := Memory.wf m ∧ ∀ cell ∈ m, cell.1 < 65535

/-- A run of writes to cells that exist keeps the storage well formed. -/
theorem StorageInv.writeCells {s : State} (h : StorageInv s.storage) {ws : List (Nat × Byte)}
    (hws : ∀ x ∈ ws, x.1 < s.capacity.toNat) : StorageInv (State.writeCells ws s).storage := by
  refine ⟨State.wf_writeCells h.1 ws, fun cell hcell => ?_⟩
  rcases State.mem_writeCells hcell with hx | hx
  · have := hws _ hx
    have := idx_lt s.capacity
    omega
  · exact h.2 _ hx

/-- So does one write: it is a run of one. -/
theorem StorageInv.memWrite {s : State} (h : StorageInv s.storage) {a : Nat}
    (ha : a < s.capacity.toNat) (b : Byte) : StorageInv (s.memWrite a b).storage :=
  h.writeCells (ws := [(a, b)]) (by simpa using ha)

/-- The beats of a bulk command all of whose cells exist keep the storage well formed. -/
theorem StorageInv.moveBytes {s : State} (h : StorageInv s.storage) {w : Work}
    (hw : ∀ i ∈ w.cells, i < s.capacity.toNat) (m : Nat) :
    StorageInv (w.moveBytes m s).storage := by
  cases hd : w.direction with
  | toStorage =>
    rw [Work.moveBytes_toStorage hd]
    refine h.writeCells fun x hx => hw _ ?_
    exact List.mem_of_mem_drop (List.mem_of_mem_take (List.of_mem_zip hx).1)
  | fromStorage => rwa [Work.moveBytes_fromStorage_storage hd]

/-! ## What well-formed states consist of -/

theorem Inv.storageInv {s : State} (h : Inv s) : StorageInv s.storage := h.1

theorem Inv.cursorInv {s : State} (h : Inv s) (hs : s.constructed = true) :
    CursorInv s.capacity.toNat s.cursors := h.2.1 hs

theorem Inv.unconstructedInv {s : State} (h : Inv s) (hs : s.constructed = false) :
    UnconstructedInv s := h.2.2.1 hs

theorem Inv.workInv {s : State} (h : Inv s) {w : Work} (hw : s.work = some w) :
    WorkInv s w = true := by
  simpa [hw] using h.2.2.2

/-- A constructed controller with no command in progress. -/
theorem Inv.of_constructed {s : State} (hm : StorageInv s.storage) (hs : s.constructed = true)
    (hc : CursorInv s.capacity.toNat s.cursors) (hw : s.work.all (WorkInv s) = true) : Inv s :=
  ⟨hm, fun _ => hc, fun h => absurd (hs.symm.trans h) (by decide), hw⟩

theorem Launch.of_constructed {s : State} (hm : StorageInv s.storage) (hs : s.constructed = true)
    (hc : CursorInv s.capacity.toNat s.cursors) (hw : s.work = none) : Launch s :=
  ⟨.of_constructed hm hs hc (by simp [hw]), hw⟩

/-- Cursors written to a constructed controller with no command in progress. -/
theorem Launch.withCursors {s : State} {c : Cursors} (hm : StorageInv s.storage)
    (hs : s.constructed = true) (hw : s.work = none) (hc : CursorInv s.capacity.toNat c) :
    Launch (s.withCursors c) := .of_constructed hm hs hc hw

theorem workInv_iff {s : State} {w : Work} :
    WorkInv s w = true ↔
      s.constructed = true ∧ s.rsp = none ∧ w.beat < w.n ∧ w.accesses = w.accessesWaiting ∧
        planOf w.cmd s = some { w with beat := 0, accesses := 0 } := by
  simp [WorkInv, and_assoc]

/-- A plan is made from the capacity, the policy and the cursors alone. -/
theorem planOf_congr {s t : State} (hcap : t.capacity = s.capacity)
    (hovw : t.overwriteEnabled = s.overwriteEnabled) (hc : t.cursors = s.cursors) (i : Instr) :
    planOf i t = planOf i s := by
  obtain ⟨hh, ht, hl, hpc, hpl⟩ : t.head = s.head ∧ t.tail = s.tail ∧ t.length = s.length ∧
      t.peekCursor = s.peekCursor ∧ t.peekLength = s.peekLength := by
    simpa [State.cursors] using hc
  cases s; cases t
  subst hcap hovw hh ht hl hpc hpl
  cases i <;> rfl

/-- The well-formed states are a matter of the registers, the storage, the working state and whether a
response waits; the rest of the ports is free. -/
theorem Inv.congr {s t : State} (h : Inv s) (hs : t.constructed = s.constructed)
    (hcap : t.capacity = s.capacity) (hovw : t.overwriteEnabled = s.overwriteEnabled)
    (hc : t.cursors = s.cursors) (hm : t.storage = s.storage) (hw : t.work = s.work)
    (hr : t.rsp = s.rsp) : Inv t := by
  have hwork : WorkInv t = WorkInv s := by
    funext w
    simp only [WorkInv, hs, hr, planOf_congr hcap hovw hc]
  simpa only [Inv, UnconstructedInv, hs, hcap, hovw, hc, hm, hw, hwork] using h

/-- With no command in progress the response does not matter either. -/
theorem Launch.congr {s t : State} (h : Launch s) (hs : t.constructed = s.constructed)
    (hcap : t.capacity = s.capacity) (hovw : t.overwriteEnabled = s.overwriteEnabled)
    (hc : t.cursors = s.cursors) (hm : t.storage = s.storage) (hw : t.work = none) : Launch t := by
  obtain ⟨h, hsw⟩ := h
  have hw' : t.work = s.work := hw.trans hsw.symm
  refine ⟨?_, hw⟩
  simpa only [Inv, UnconstructedInv, hs, hcap, hovw, hc, hm, hw', hsw, Option.all_none] using h

theorem Launch.respond {s : State} (h : Launch s) (op : BitVec 4) (status : Status) (value : Idx) :
    Launch (s.respond op status value) := h.congr rfl rfl rfl rfl rfl h.2

/-- Hardware reset leaves a well-formed state from every state whose storage is one's. -/
theorem Inv.hardwareReset {s : State} (h : Inv s) : Inv s.hardwareReset :=
  ⟨h.storageInv, by simp, fun _ => ⟨rfl, rfl, rfl, rfl⟩, rfl⟩

/-! ## Commands -/

/-- From a launch state every cell that an immediate effect presents exists, and it leaves a launch
state. -/
theorem ImmediateEffect.launch {s s' : State} {cells : List Nat} (he : ImmediateEffect s cells s')
    (h : Launch s) : (∀ i ∈ cells, i < s.capacity.toNat) ∧ Launch s' := by
  obtain ⟨hinv, hw⟩ := h
  have hm := hinv.storageInv
  have hC := idx_lt s.capacity
  cases he with
  | configure ovw capacity hc =>
    have hpos : 1 ≤ capacity.toNat := Nat.one_le_iff_ne_zero.2 (mt (idx_eq_zero_iff _).2 hc)
    exact ⟨by simp, .of_constructed hm rfl (cursorInv_zero hpos) hw⟩
  | keep => exact ⟨by simp, hinv, hw⟩
  | clear hs => exact ⟨by simp, .withCursors hm hs hw (cursorInv_zero (hinv.cursorInv hs).1)⟩
  | push hs byte =>
    obtain ⟨hc, hroom⟩ := State.pushCursors_room (hinv.cursorInv hs)
    obtain ⟨-, -, htail, -⟩ := (cursorInv_iff _ _).1 hc
    exact ⟨List.forall_mem_singleton.2 htail,
      .withCursors (hm.memWrite htail byte) hs hw (hc.pushed hC hroom)⟩
  | pop hs hne =>
    have hc := hinv.cursorInv hs
    have hone : 1 ≤ s.cursors.length.toNat := Nat.one_le_iff_ne_zero.2 fun h0 => by
      simp [s.isEmpty_iff.2 h0] at hne
    obtain ⟨-, hhead, -⟩ := s.cursorInv_linear hc
    exact ⟨List.forall_mem_singleton.2 hhead, .withCursors hm hs hw (hc.popped hC hone)⟩
  | peek hs hne =>
    have hc := hinv.cursorInv hs
    have hone : 1 ≤ s.cursors.peekLength.toNat := Nat.one_le_iff_ne_zero.2 fun h0 => by
      simp [s.isPeekEmpty_iff.2 h0] at hne
    obtain ⟨-, -, -, hpeek, -⟩ := s.cursorInv_linear hc
    exact ⟨List.forall_mem_singleton.2 hpeek, .withCursors hm hs hw (hc.peeked hC hone)⟩
  | resync hs => exact ⟨by simp, .withCursors hm hs hw (hinv.cursorInv hs).resyncPeek⟩
  | commit hs => exact ⟨by simp, .withCursors hm hs hw (hinv.cursorInv hs).committed⟩
  | restore hs hcount =>
    exact ⟨by simp, .withCursors hm hs hw ((hinv.cursorInv hs).restored hC hcount)⟩

/-- A plan made from well-formed registers visits cells that exist and will commit well-formed cursors. -/
theorem planOf_wellFormed {s : State} (h : CursorInv s.capacity.toNat s.cursors) {i : Instr}
    {w : Work} (hp : planOf i s = some w) :
    (∀ a ∈ w.cells, a < s.capacity.toNat) ∧ CursorInv s.capacity.toNat w.cursors := by
  have hC := idx_lt s.capacity
  obtain ⟨-, hh, ht, hpc, hl, hpl, -⟩ := s.cursorInv_linear h
  cases i with
  | pushBytes bufPresent len =>
    cases bufPresent <;> cases hp
    have hreq : clampRequest len s.capacity ≤ s.capacity.toNat := Nat.min_le_right _ _
    obtain ⟨he, hn, hroom⟩ := State.arbitrate_bounds hl hreq
    refine ⟨Work.start_cells_lt ht hn, (h.evict hC he).pushed hC ?_⟩
    rw [Cursors.evict_length hC h he]
    exact hroom
  | popBytes bufPresent len =>
    cases bufPresent <;> cases hp
    have hn : clampRequest len s.length ≤ s.length.toNat := Nat.min_le_right _ _
    exact ⟨Work.start_cells_lt hh (hn.trans hl), h.popped hC hn⟩
  | peekBytes bufPresent len =>
    cases bufPresent <;> cases hp
    have hn : clampRequest len s.peekLength ≤ s.peekLength.toNat := Nat.min_le_right _ _
    exact ⟨Work.start_cells_lt hpc (by omega), h.peeked hC hn⟩
  | _ => cases hp

/-- A bulk command that waits has performed the accesses that are due (20_memory.md rule R67). -/
theorem Work.afterBeats_accessesWaiting {w : Work} {m : Nat} (h : w.beat + m < w.n) :
    (w.afterBeats m).accesses = (w.afterBeats m).accessesWaiting := by
  cases hd : w.direction <;> simp only [Work.afterBeats, Work.accessesWaiting, hd]
  exact Nat.min_eq_right h

@[simp] theorem Work.afterBeats_cmd (w : Work) (m : Nat) : (w.afterBeats m).cmd = w.cmd := by
  unfold Work.afterBeats; cases w.direction <;> rfl

/-- From well-formed registers the copy engine does not stop, and a bulk command that is as its plan says
leaves a well-formed state, whether it completes or waits for its stream. -/
theorem advance_wellFormed {s : State} {w : Work} (hinv : Inv s) (hs : s.constructed = true)
    (hr : s.rsp = none) (hbeat : w.beat ≤ w.n)
    (hp : planOf w.cmd s = some { w with beat := 0, accesses := 0 }) :
    ∃ t, advance w s = .next t ∧ Inv t := by
  have hc := hinv.cursorInv hs
  obtain ⟨hcells, hcommit⟩ := planOf_wellFormed hc hp
  have hm := hinv.storageInv.moveBytes (w := w) hcells (w.beatsNow s)
  rcases advance_cases w s with ⟨i, hi, hle, -⟩ | ⟨-, -, e⟩ | ⟨-, hne, e⟩
  · exact absurd (hcells i hi) (not_lt.2 hle)
  · refine ⟨_, e, .of_constructed hm (by simpa using hs) ?_ rfl⟩
    simpa using hcommit
  · have hlt : w.beat + w.beatsNow s < w.n := by
      have := w.beatsNow_le s
      omega
    refine ⟨_, e, .of_constructed hm (by simpa using hs) ?_ ?_⟩
    · simpa [State.cursors] using hc
    · rw [Option.all_some, workInv_iff]
      refine ⟨by simpa using hs, by simpa using hr, by simpa using hlt,
        Work.afterBeats_accessesWaiting hlt, ?_⟩
      rw [Work.afterBeats_plan, planOf_congr (s := s) (by simp) (by simp) (by simp [State.cursors])]
      simpa using hp

/-- From a launch state with no response waiting every command answers a next state, and a well-formed
one. -/
theorem exec_wellFormed {s : State} (h : Launch s) (hr : s.rsp = none) (i : Instr) :
    ∃ t, exec i s = .next t ∧ Inv t := by
  have ho := CommandOutcome.of_exec i s
  generalize exec i s = o at ho ⊢
  cases ho with
  | rejected status => exact ⟨_, rfl, (h.respond _ _ _).1⟩
  | immediate value he =>
    obtain ⟨hcells, hs'⟩ := he.launch h
    rw [requireCells_of_lt hcells]
    exact ⟨_, rfl, (hs'.respond _ _ _).1⟩
  | bulk hs hplan hcmd hfresh =>
    subst hcmd
    have hbeat := congrArg Work.beat hfresh
    exact advance_wellFormed h.1 hs hr (hbeat ▸ Nat.zero_le _)
      (hplan.trans (congrArg some hfresh.symm))

/-! ## Steps -/

theorem State.takeResponse_launch {s : State} (h : Launch s) : Launch s.takeResponse :=
  h.congr rfl rfl rfl rfl rfl h.2

theorem State.accepted_launch {s : State} (h : Launch s) (rest : List CmdWord) :
    Launch (s.accepted rest) := h.congr rfl rfl rfl rfl rfl h.2

/-- From a well-formed state every step answers a next state, and a well-formed one. -/
theorem step_wellFormed {s : State} (h : Inv s) : ∃ t, step s = .next t ∧ Inv t := by
  rcases step_cases s with ⟨-, e⟩ | ⟨-, w, hw, e⟩ | ⟨-, -, -, e⟩ | ⟨⟨-, hw, -⟩, -, e⟩ |
    ⟨⟨-, hw, -⟩, word, rest, -, -, e⟩ | ⟨⟨-, hw, -⟩, word, rest, i, -, -, e⟩
  · exact ⟨_, e, h.hardwareReset⟩
  · obtain ⟨hs, hr, hlt, -, hplan⟩ := workInv_iff.1 (h.workInv hw)
    exact e ▸ advance_wellFormed h hs hr hlt.le hplan
  · exact ⟨s, e, h⟩
  · exact ⟨_, e, (State.takeResponse_launch ⟨h, hw⟩).1⟩
  · exact ⟨_, e, ((State.accepted_launch ⟨h, hw⟩ rest).respond _ _ _).1⟩
  · exact e ▸ exec_wellFormed (State.accepted_launch ⟨h, hw⟩ rest) rfl i

/-- Settles O17: the one next state of the step is the well-formed one. -/
theorem stepKeepsInvariants : Obligations.StepKeepsInvariants := by
  unfold Obligations.StepKeepsInvariants
  intro s t h ht
  obtain ⟨t', e, ht'⟩ := step_wellFormed h
  obtain rfl : t' = t := by simpa [e] using ht
  exact ht'

/-! ## Runs -/

/-- No move of the host leaves the well-formed states. -/
theorem HostMove.apply_wellFormed (m : HostMove) {s : State} (h : Inv s) : Inv (m.apply s) := by
  obtain ⟨hs, hcap, hovw, hc, hm, hw, hr⟩ := m.apply_keeps s
  exact h.congr hs hcap hovw hc hm hw hr

/-- Settles O16, by evaluation. -/
theorem resetStateIsWellFormed : Obligations.ResetStateIsWellFormed := by
  unfold Obligations.ResetStateIsWellFormed
  exact ⟨by decide, rfl, rfl, rfl, rfl, rfl, rfl⟩

theorem Reachable.wellFormed {s : State} (h : Reachable s) : Inv s := by
  induction h with
  | reset => exact resetStateIsWellFormed.1
  | step _ e ih => exact stepKeepsInvariants _ _ ih e
  | host m _ ih => exact m.apply_wellFormed ih

/-- Settles O19, by induction on the run. -/
theorem reachableStatesAreSafe : Obligations.ReachableStatesAreSafe := by
  unfold Obligations.ReachableStatesAreSafe
  intro s h
  obtain ⟨t, e, -⟩ := step_wellFormed h.wellFormed
  exact ⟨h.wellFormed, t, e⟩

end Sys2Proof.Machine

/-!
PROOFS. The resets (10_state.md rule R33), the status outputs (rule R28) and the consequences of the
invariants (rule R31).
-/

namespace Sys2Proof.Machine

/-! ## The resets -/

/-- Settles O9: each of the three writes its registers and no cell. -/
theorem resetsLeaveTheirValues : Obligations.ResetsLeaveTheirValues := by
  unfold Obligations.ResetsLeaveTheirValues
  refine ⟨fun s hr => ⟨s.hardwareReset, by simp [step, stepPorts, hr], ?_⟩,
    fun s ovw capacity hc hw => ⟨_, if_neg hc, ?_⟩,
    fun s hs hw => ⟨_, whenConstructed_true hs, ?_⟩⟩
  · exact ⟨rfl, rfl, rfl, rfl, rfl, rfl, rfl, rfl, rfl, fun _ => rfl⟩
  · exact ⟨rfl, rfl, rfl, rfl, rfl, rfl, rfl, rfl, hw, fun _ => rfl⟩
  · exact ⟨hs, rfl, rfl, rfl, rfl, rfl, rfl, rfl, hw, fun _ => rfl⟩

/-! ## The status outputs -/

/-- The registers that the status outputs are functions of (10_state.md rule R28). -/
def State.statusRegisters (s : State) : Bool × Idx × Idx × Idx :=
  (s.constructed, s.capacity, s.length, s.peekLength)

@[simp] theorem Work.moveBytes_statusRegisters (w : Work) (m : Nat) (s : State) :
    (w.moveBytes m s).statusRegisters = s.statusRegisters := by
  simp [State.statusRegisters]

/-- A command has completed: its response waits, and nothing is in progress. -/
def State.Completed (t : State) : Prop := t.rsp ≠ none ∧ t.work = none

/-- A bulk command completes, or waits with the registers as they were (70_reset_and_hazards.md rule
R244). -/
theorem advance_completed_or_keeps {w : Work} {s t : State} (h : advance w s = .next t) :
    t.Completed ∨ t.statusRegisters = s.statusRegisters := by
  rcases advance_cases w s with ⟨i, -, -, e⟩ | ⟨-, -, e⟩ | ⟨-, -, e⟩ <;> rw [e] at h <;> cases h
  · exact .inl ⟨by simp, rfl⟩
  · exact .inr (w.moveBytes_statusRegisters _ s)

/-- So does every command. -/
theorem exec_completed_or_keeps {i : Instr} {s t : State} (hw : s.work = none)
    (h : exec i s = .next t) : t.Completed ∨ t.statusRegisters = s.statusRegisters := by
  have ho := CommandOutcome.of_exec i s
  rw [h] at ho
  generalize hn : Host.Outcome.next t = o at ho
  cases ho with
  | rejected status => cases hn; exact .inr rfl
  | immediate value he =>
    cases (requireCells_next hn.symm).2
    exact .inl ⟨by simp, he.work_eq.trans hw⟩
  | bulk => exact advance_completed_or_keeps hn.symm

/-- And so does every step that is not a hardware reset. -/
theorem step_completed_or_keeps {s t : State} (hr : s.rst = false) (h : step s = .next t) :
    t.Completed ∨ t.statusRegisters = s.statusRegisters := by
  rcases step_cases s with ⟨hr', -⟩ | ⟨-, w, -, e⟩ | ⟨-, -, -, e⟩ | ⟨-, -, e⟩ |
    ⟨-, word, rest, -, -, e⟩ | ⟨⟨-, hw, -⟩, word, rest, i, -, -, e⟩
  · simp [hr] at hr'
  · exact advance_completed_or_keeps (e.symm.trans h)
  · cases e.symm.trans h; exact .inr rfl
  · cases e.symm.trans h; exact .inr rfl
  · cases e.symm.trans h; exact .inr rfl
  · exact exec_completed_or_keeps (s := s.accepted rest) hw (e.symm.trans h)

/-- The room for a push and the length make up the capacity, before construction too. -/
theorem Inv.stAvail_add_length {s : State} (h : Inv s) :
    s.stAvail.toNat + s.length.toNat = s.capacity.toNat := by
  have hle : s.length.toNat ≤ s.capacity.toNat := by
    cases hs : s.constructed with
    | true =>
      obtain ⟨-, -, hle, -⟩ := h.cursorInv hs
      exact hle
    | false =>
      obtain ⟨-, -, hc, -⟩ := h.unconstructedInv hs
      have hl : s.length = 0#16 := congrArg Cursors.length hc
      simp [hl]
  have := idx_lt s.capacity
  rw [State.stAvail, State.free, toIdx_toNat (by omega)]
  omega

/-- Settles O49: the third part because a step that is no hardware reset completes a command or keeps
the registers the outputs are functions of. -/
theorem statusOutputsFollowTheRegisters : Obligations.StatusOutputsFollowTheRegisters := by
  unfold Obligations.StatusOutputsFollowTheRegisters
  refine ⟨fun s h => ?_, fun s t hr h => ?_, fun s t hr h hopen => ?_⟩
  · exact ⟨rfl, by simp [State.stEmpty, State.isEmpty], by simp [State.stFull],
      by simp [State.stPeekEmpty, State.isPeekEmpty], rfl, h.stAvail_add_length⟩
  · have e : step s = .next s.hardwareReset := by simp [step, stepPorts, hr]
    cases e.symm.trans h
    exact ⟨rfl, rfl, rfl, rfl, rfl, rfl⟩
  · have hkeeps : t.statusRegisters = s.statusRegisters := by
      refine (step_completed_or_keeps hr h).resolve_left fun ⟨hrsp, hwork⟩ => ?_
      exact hopen.elim hrsp fun hne => hne hwork
    obtain ⟨hs, hcap, hl, hpl⟩ : t.constructed = s.constructed ∧ t.capacity = s.capacity ∧
        t.length = s.length ∧ t.peekLength = s.peekLength := by
      simpa [State.statusRegisters] using hkeeps
    simp [State.stConstructed, State.stEmpty, State.isEmpty, State.stFull, State.stPeekEmpty,
      State.isPeekEmpty, State.stCount, State.stAvail, State.free, hs, hcap, hl, hpl]

/-! ## The cells by their place from `head` -/

section
variable {s : State} (h : CursorInv s.capacity.toNat s.cursors)
include h

/-- Places closer than the capacity are different cells. -/
theorem State.windowCell_inj {j k : Nat} (hj : j < s.capacity.toNat) (hk : k < s.capacity.toNat)
    (he : s.windowCell j = s.windowCell k) : j = k := by
  obtain ⟨-, ⟨hhead, -, -⟩, -⟩ := h
  exact mod_inj_of_lt hhead hj hk he

/-- Every cell has a place. -/
theorem State.exists_windowCell {a : Nat} (ha : a < s.capacity.toNat) :
    ∃ k, k < s.capacity.toNat ∧ s.windowCell k = a := by
  obtain ⟨hC, hhead, -⟩ := s.cursorInv_linear h
  refine ⟨if s.head.toNat ≤ a then a - s.head.toNat else s.capacity.toNat + a - s.head.toNat, ?_, ?_⟩
  · split <;> omega
  · unfold State.windowCell
    rw [advance_mod hhead (by split <;> omega)]
    split_ifs <;> omega

/-- The cells from `tail` are those after the window (I4). -/
theorem State.tail_add_mod (k : Nat) :
    (s.tail.toNat + k) % s.capacity.toNat = s.windowCell (s.length.toNat + k) := by
  obtain ⟨-, -, -, htail, -⟩ := h
  have htail : s.tail.toNat = (s.head.toNat + s.length.toNat) % s.capacity.toNat := htail
  rw [State.windowCell, htail, Nat.mod_add_mod, Nat.add_assoc]

/-- The cells from the peek cursor are those at the peek offset (I6). -/
theorem State.peekCursor_add_mod (k : Nat) :
    (s.peekCursor.toNat + k) % s.capacity.toNat =
      s.windowCell (s.length.toNat - s.peekLength.toNat + k) := by
  obtain ⟨-, -, -, -, -, hpeek⟩ := h
  have hpeek : s.peekCursor.toNat =
    (s.head.toNat + (s.length.toNat - s.peekLength.toNat)) % s.capacity.toNat := hpeek
  rw [State.windowCell, hpeek, Nat.mod_add_mod, Nat.add_assoc]

/-- A cell is in the window or free, not both, and has one place there (10_state.md rule R31(f)). -/
theorem State.window_or_free {a : Nat} (ha : a < s.capacity.toNat) :
    (∃ k, k < s.length.toNat ∧ s.windowCell k = a ∧
      ∀ j, j < s.capacity.toNat - s.length.toNat → (s.tail.toNat + j) % s.capacity.toNat ≠ a) ∨
    (∃ k, k < s.capacity.toNat - s.length.toNat ∧ (s.tail.toNat + k) % s.capacity.toNat = a ∧
      (∀ j, j < s.capacity.toNat - s.length.toNat →
        (s.tail.toNat + j) % s.capacity.toNat = a → j = k) ∧
      ∀ j, j < s.length.toNat → s.windowCell j ≠ a) := by
  obtain ⟨p, hp, rfl⟩ := State.exists_windowCell h ha
  simp only [State.tail_add_mod h]
  by_cases hin : p < s.length.toNat
  · refine .inl ⟨p, hin, rfl, fun j hj he => ?_⟩
    have := State.windowCell_inj h (by omega) hp he
    omega
  · refine .inr ⟨p - s.length.toNat, by omega, by congr 1; omega, fun j hj he => ?_, fun j hj he => ?_⟩
    · have := State.windowCell_inj h (by omega) hp he
      omega
    · have := State.windowCell_inj h (by omega) hp he
      omega

/-- `head` and `tail` meet exactly when the queue is empty or full (10_state.md rule R31(a)). -/
theorem State.head_eq_tail_iff :
    s.head = s.tail ↔ s.length = 0#16 ∨ s.length = s.capacity := by
  obtain ⟨hC, hhead, -, -, hl, -, htail, -⟩ := s.cursorInv_linear h
  rw [idx_eq_zero_iff, ← BitVec.toNat_inj, ← BitVec.toNat_inj, htail]
  split_ifs <;> omega

/-- With nothing peeked the peek cursor is at `head` (10_state.md rule R31(c)). -/
theorem State.peekCursor_eq_head (hp : s.peekLength = s.length) : s.peekCursor = s.head := by
  obtain ⟨-, hhead, -, -, -, -, -, hpc⟩ := s.cursorInv_linear h
  rw [hp, Nat.sub_self, Nat.add_zero, if_neg (not_le.2 hhead)] at hpc
  exact BitVec.toNat_inj.1 hpc

/-- With everything peeked the peek cursor is at `tail` (10_state.md rule R31(d)). -/
theorem State.peekCursor_eq_tail (hp : s.peekLength = 0#16) : s.peekCursor = s.tail := by
  obtain ⟨-, -, -, -, -, -, htail, hpc⟩ := s.cursorInv_linear h
  rw [(idx_eq_zero_iff _).1 hp, Nat.sub_zero, ← htail] at hpc
  exact BitVec.toNat_inj.1 hpc

end

/-- Settles O21: (a) to (f) of 10_state.md rule R31, in that order. -/
theorem cursorInvariantConsequences : Obligations.CursorInvariantConsequences := by
  unfold Obligations.CursorInvariantConsequences
  intro s hinv hs
  have h := hinv.cursorInv hs
  obtain ⟨hC, hhead, htail, -, hl, hpl, -⟩ := s.cursorInv_linear h
  have hmeet := State.head_eq_tail_iff h
  have hne : s.length = s.capacity → s.length ≠ 0#16 := fun hfull hzero => by
    have hzero := (idx_eq_zero_iff _).1 (hfull ▸ hzero)
    omega
  refine ⟨⟨hmeet, ?_, fun hone => ?_⟩, fun hzero => ?_, ⟨?_, State.peekCursor_eq_head h⟩,
    ⟨State.peekCursor_eq_tail h, fun hp hfull => ?_⟩,
    ⟨?_, fun k _ => State.peekCursor_add_mod h k⟩, fun a => State.window_or_free h⟩
  · exact ⟨fun ⟨hht, hl0⟩ => (hmeet.1 hht).resolve_left hl0,
      fun hfull => ⟨hmeet.2 (.inr hfull), hne hfull⟩⟩
  · rw [hone] at hhead htail
    exact ⟨(idx_eq_zero_iff _).2 (Nat.lt_one_iff.1 hhead),
      (idx_eq_zero_iff _).2 (Nat.lt_one_iff.1 htail)⟩
  · have hp : s.peekLength = 0#16 := by
      rw [idx_eq_zero_iff] at hzero ⊢
      omega
    exact ⟨hp, State.peekCursor_eq_head h (hp.trans hzero.symm), hmeet.2 (.inl hzero)⟩
  · rw [← BitVec.toNat_inj]
    omega
  · refine ⟨State.peekCursor_eq_tail h hp, (hmeet.2 (.inr hfull)).symm, ?_⟩
    rw [hp, hfull]
    rfl
  · intro j k hj hk
    exact State.windowCell_inj h (hj.trans_le hl) (hk.trans_le hl)

end Sys2Proof.Machine

/-!
PROOFS. The cursor invariants are exact (10_state.md rule R30): every tuple is reached from hardware
reset by CONSTRUCT, a push and a commit of everything pushed, a second push, and RESTORE_PEEK_OFFSET.
-/

namespace Sys2Proof

/-! ## The decoder on encoded commands (30_encoding.md rule R89) -/

theorem decode_packWord {op : BitVec 4} {ovw buf : Bool} {arg : Idx}
    (h : wellFormedWord (packWord op ovw buf arg) = true) :
    decode (packWord op ovw buf arg) = .ok ((rowOf op).build (packWord op ovw buf arg)) := by
  rw [decode, if_pos h, opField_packWord]

theorem decode_encode (i : Instr) : decode (encode i) = .ok i := by
  have setWidth_byte (byte : Byte) : (byte.setWidth 16).setWidth 8 = byte := by
    rw [BitVec.setWidth_setWidth_of_le _ (by decide), BitVec.setWidth_eq]
  cases i with
  | construct bufPresent ovw capacity =>
    rw [encode, decode_packWord (wellFormedWord_c rfl ovw bufPresent capacity)]
    simp [rowOf, opTable, Instr.opcode]
  | pushByte byte =>
    rw [encode, decode_packWord (wellFormedWord_b rfl byte)]
    simp [rowOf, opTable, Instr.opcode, setWidth_byte]
  | pushBytes bufPresent len | popBytes bufPresent len | peekBytes bufPresent len =>
    rw [encode, decode_packWord (wellFormedWord_m rfl bufPresent len)]
    simp [rowOf, opTable, Instr.opcode]
  | restorePeekOffset count =>
    rw [encode, decode_packWord (wellFormedWord_l rfl count)]
    simp [rowOf, opTable, Instr.opcode]
  | _ => exact decode_packWord (wellFormedWord_n rfl)

namespace Machine

/-! ## Reaching a state by commands -/

/-- `ReachableWith capacity ovw c`: some run from hardware reset ends, its command completed and no
further word presented, in a constructed state with these registers. -/
def ReachableWith (capacity : Idx) (ovw : Bool) (c : Cursors) : Prop :=
  ∃ s, Reachable s ∧ s.cmds = [] ∧ s.work = none ∧ s.configuration = (true, capacity, ovw) ∧
    s.cursors = c

/-- On a port on which no word is presented, the host presents a command by its moves. -/
theorem Reachable.presentCommand {s : State} (h : Reachable s) (hcmds : s.cmds = []) (c : Command) :
    Reachable (presentCommand c s) := by
  have e : Machine.presentCommand c s =
      (HostMove.limitDout none).apply ((HostMove.driveRspReady true).apply ((HostMove.offer c.data).apply
        (HostMove.withdraw.apply ((HostMove.present [encode c.instr]).apply
          ((HostMove.driveReset false).apply s))))) := by
    simp [Machine.presentCommand, HostMove.apply, hcmds]
  exact e ▸ .host _ (.host _ (.host _ (.host _ (.host _ (.host _ h)))))

/-- The step that follows runs the command. -/
theorem Reachable.exec {s t : State} (h : Reachable s) (hcmds : s.cmds = []) (hw : s.work = none)
    (c : Command) (hc : c.wellFormed = true)
    (e : exec c.instr ((Machine.presentCommand c s).accepted []) = .next t) : Reachable t := by
  rw [← runCommand_eq c s hc hw (decode_encode _), runCommand, if_pos hc] at e
  exact .step (h.presentCommand hcmds c) e

/-- CONSTRUCT from hardware reset. -/
theorem reachableWith_zero (ovw : Bool) {capacity : Idx} (hc : capacity ≠ 0#16) :
    ReachableWith capacity ovw Cursors.zero :=
  ⟨_, Reachable.reset.exec rfl rfl ⟨.construct true ovw capacity, []⟩ rfl (if_neg hc),
    rfl, rfl, rfl, rfl⟩

/-- RESTORE_PEEK_OFFSET of an offset there is (44_peek.md rule R175). -/
theorem exec_restorePeekOffset_of_le {s : State} {n : Idx} (hs : s.constructed = true)
    (hn : n.toNat ≤ s.length.toNat) :
    exec (.restorePeekOffset n) s = respondOk (Instr.restorePeekOffset n).opcode 0#16
      (s.withCursors (s.cursors.restored s.capacity.toNat n.toNat)) :=
  (whenConstructed_true hs).trans (if_neg (not_lt.2 hn))

/-- With room for the whole request the arbiter grants it and nothing is evicted (40_common_datapath.md
rule R116). -/
theorem planPushBytes_of_room {s : State} {n : Idx} (h : n.toNat ≤ s.free) :
    planPushBytes n s = Work.start (.pushBytes true n) .toStorage s.capacity.toNat s.tail.toNat
      n.toNat 0 (s.cursors.pushed s.capacity.toNat n.toNat) := by
  have hreq : clampRequest n s.capacity = n.toNat := Nat.min_eq_left (h.trans (Nat.sub_le _ _))
  have harb : s.arbitrate n.toNat = (n.toNat, 0) := if_pos h
  simp [planPushBytes, hreq, harb, Cursors.evict]

/-- A push into free room with its bytes on `din` completes (42_push.md rule R141). -/
theorem exec_pushBytes_of_room {s : State} {n : Idx} (hinv : Inv s) (hs : s.constructed = true)
    (hn : n.toNat ≤ s.free) (hdin : s.din.length = n.toNat) :
    ∃ t, exec (.pushBytes true n) s = .next t ∧ t.cmds = s.cmds ∧ t.work = none ∧
      t.configuration = s.configuration ∧ t.cursors = s.cursors.pushed s.capacity.toNat n.toNat := by
  obtain ⟨hcells, -⟩ := planOf_wellFormed (hinv.cursorInv hs)
    (rfl : planOf (.pushBytes true n) s = some (planPushBytes n s))
  have e : exec (.pushBytes true n) s = advance (planPushBytes n s) s := whenConstructed_true hs
  have hplan := planPushBytes_of_room hn
  have hall : (planPushBytes n s).beat + (planPushBytes n s).beatsNow s = (planPushBytes n s).n := by
    rw [hplan]
    simp [Work.start, Work.beatsNow, hdin]
  rcases advance_cases (planPushBytes n s) s with ⟨i, hi, hle, -⟩ | ⟨-, -, e'⟩ | ⟨-, hne, -⟩
  · exact absurd (hcells i hi) (not_lt.2 hle)
  · refine ⟨_, e.trans e', ?_, rfl, by simp, ?_⟩
    · exact Work.moveBytes_cmds _ _ _
    · rw [Work.cursors_commit, hplan]
      rfl
  · exact absurd hall hne

/-- A PUSH_BYTES of `n` zero bytes. -/
def pushZeros (n : Idx) : Command := ⟨.pushBytes true n, List.replicate n.toNat 0#8⟩

theorem pushZeros_wellFormed (n : Idx) : (pushZeros n).wellFormed = true := by
  simp [pushZeros, Command.wellFormed, Instr.dataLength]

section
variable {capacity : Idx} {ovw : Bool} {c : Cursors} (h : ReachableWith capacity ovw c)
include h

/-- COMMIT_PEEKED. -/
theorem ReachableWith.committed : ReachableWith capacity ovw c.committed := by
  obtain ⟨s, hr, hcmds, hw, hconf, rfl⟩ := h
  have hs : s.constructed = true := congrArg Prod.fst hconf
  exact ⟨_, hr.exec hcmds hw ⟨.commitPeeked, []⟩ rfl (whenConstructed_true hs), rfl, hw, hconf, rfl⟩

/-- RESTORE_PEEK_OFFSET. -/
theorem ReachableWith.restored {n : Idx} (hn : n.toNat ≤ c.length.toNat) :
    ReachableWith capacity ovw (c.restored capacity.toNat n.toNat) := by
  obtain ⟨s, hr, hcmds, hw, hconf, rfl⟩ := h
  have hs : s.constructed = true := congrArg Prod.fst hconf
  obtain rfl : s.capacity = capacity := congrArg (fun p => p.2.1) hconf
  exact ⟨_, hr.exec hcmds hw ⟨.restorePeekOffset n, []⟩ rfl (exec_restorePeekOffset_of_le hs hn),
    rfl, hw, hconf, rfl⟩

/-- PUSH_BYTES of as many bytes as there is room for. -/
theorem ReachableWith.pushed {n : Idx} (hn : c.length.toNat + n.toNat ≤ capacity.toNat) :
    ReachableWith capacity ovw (c.pushed capacity.toNat n.toNat) := by
  obtain ⟨s, hr, hcmds, hw, hconf, rfl⟩ := h
  have hs : s.constructed = true := congrArg Prod.fst hconf
  obtain rfl : s.capacity = capacity := congrArg (fun p => p.2.1) hconf
  have hlaunch : Launch ((presentCommand (pushZeros n) s).accepted []) :=
    State.accepted_launch ⟨(hr.presentCommand hcmds (pushZeros n)).wellFormed, hw⟩ []
  obtain ⟨t, e, htcmds, htw, htconf, htc⟩ := exec_pushBytes_of_room (n := n) hlaunch.1 hs
    (Nat.le_sub_of_add_le' hn) (List.length_replicate ..)
  exact ⟨t, hr.exec hcmds hw (pushZeros n) (pushZeros_wellFormed n) e, htcmds, htw,
    htconf.trans hconf, htc⟩

end

/-! ## Every tuple of cursors -/

/-- The two commands that leave an empty queue whose head is at `n`. -/
theorem reachableWith_head {capacity n : Idx} (ovw : Bool) (hn : n.toNat < capacity.toNat) :
    ∃ c, ReachableWith capacity ovw c ∧ CursorInv capacity.toNat c ∧ c.head = n ∧ c.length = 0#16 := by
  have hC := idx_lt capacity
  have hne : capacity ≠ 0#16 := fun h0 => by simp [(idx_eq_zero_iff _).1 h0] at hn
  have hzero : CursorInv capacity.toNat Cursors.zero := cursorInv_zero (by omega)
  have hroom : Cursors.zero.length.toNat + n.toNat ≤ capacity.toNat := by
    simpa [Cursors.zero] using hn.le
  obtain ⟨-, hlen, -⟩ := Cursors.pushed_toNat hC hzero hroom
  replace hlen : (Cursors.zero.pushed capacity.toNat n.toNat).length.toNat = n.toNat := by
    simpa [Cursors.zero] using hlen
  refine ⟨_, (((reachableWith_zero ovw hne).pushed hroom).restored hlen.ge).committed,
    ((hzero.pushed hC hroom).restored hC hlen.ge).committed, ?_, ?_⟩
  · simp [Cursors.committed, Cursors.restored, Cursors.pushed, Cursors.zero, wrap, not_le.2 hn]
  · rw [Cursors.committed, Cursors.restored, hlen, Nat.sub_self]

/-- Settles O20. The second half: the head is set on an empty queue, the length is pushed, and the peek
offset is restored; `tail` and the peek cursor then follow. -/
theorem cursorInvariantsAreExact : Obligations.CursorInvariantsAreExact := by
  unfold Obligations.CursorInvariantsAreExact
  refine ⟨fun s h hs => ?_, fun capacity ovw c h => ?_⟩
  · obtain ⟨hC, hcursors⟩ := h.wellFormed.cursorInv hs
    exact ⟨⟨hC, Nat.le_of_lt_succ (idx_lt _)⟩, hcursors⟩
  · have hC := idx_lt capacity
    obtain ⟨-, hh, -, -, hl, hpl, -⟩ := (cursorInv_iff _ _).1 h
    obtain ⟨c₁, hr₁, h₁, hhead, hlen⟩ := reachableWith_head ovw hh
    have hroom : c₁.length.toNat + c.length.toNat ≤ capacity.toNat := by simpa [hlen] using hl
    have h₂ := h₁.pushed hC hroom
    have hlen₂ : (c₁.pushed capacity.toNat c.length.toNat).length = c.length := by
      simp [Cursors.pushed, hlen]
    have hoff : (toIdx (c.length.toNat - c.peekLength.toNat)).toNat =
        c.length.toNat - c.peekLength.toNat := toIdx_toNat (by omega)
    have hle : (toIdx (c.length.toNat - c.peekLength.toNat)).toNat ≤
        (c₁.pushed capacity.toNat c.length.toNat).length.toNat := by
      rw [hlen₂, hoff]
      exact Nat.sub_le _ _
    have h₃ := h₂.restored hC hle
    obtain ⟨s, hr, -, -, hconf, hc⟩ := (hr₁.pushed hroom).restored hle
    obtain ⟨hs, hcap, hovw⟩ : s.constructed = true ∧ s.capacity = capacity ∧
        s.overwriteEnabled = ovw := by simpa [State.configuration] using hconf
    refine ⟨s, hr, hs, hcap, hovw, hc.trans (h₃.ext h hhead hlen₂ ?_)⟩
    rw [Cursors.restored, hlen₂, hoff, Nat.sub_sub_self hpl, toIdx_of_toNat]

end Machine

end Sys2Proof

/-!
PROOFS. The step of a decoded command (20_memory.md rule R61), and the bulk commands on the streams (rules
R60 to R67): the cells they visit, and what the copy engine leaves of a delivery.
-/

namespace Sys2Proof.Machine

/-! ## The step -/

/-- Settles O6: the word is offered, decodes, and no response is held. -/
theorem stepRunsTheDecodedCommand : Obligations.StepRunsTheDecodedCommand := by
  unfold Obligations.StepRunsTheDecodedCommand
  intro s word rest i hr hw hrsp hcmds hd
  have hheld : s.responseHeld = false := by
    rcases hrsp with h | h <;> simp [State.responseHeld, h]
  simp [step, stepPorts, hr, hw, hheld, acceptCommand, hcmds, runWord, hd, State.takeResponse]

/-! ## The cells a bulk command visits -/

/-- The bulk command visits the `n` cells from `base`, in their order around the storage. -/
structure Work.Visits (w : Work) (C base : Nat) : Prop where
  base_lt : base < C
  n_le : w.n ≤ C
  cells_eq : w.cells = (List.range w.n).map fun k => (base + k) % C

theorem take_drop_map_range {α : Type} (f : Nat → α) {n b m : Nat} (h : b + m ≤ n) :
    (((List.range n).map f).drop b).take m = (List.range m).map fun k => f (b + k) := by
  refine List.ext_getElem (by simp; omega) fun k _ _ => ?_
  simp

namespace Work.Visits

variable {w : Work} {C base : Nat}

theorem start {cmd : Instr} {direction : Direction} {n e : Nat} {c : Cursors} (hb : base < C)
    (hn : n ≤ C) : (Work.start cmd direction C base n e c).Visits C base :=
  ⟨hb, hn, Work.start_cells hb hn⟩

theorem length_cells (h : w.Visits C base) : w.cells.length = w.n := by
  simp [h.cells_eq]

theorem cells_lt (h : w.Visits C base) : ∀ i ∈ w.cells, i < C := by
  simp only [h.cells_eq, List.mem_map]
  rintro _ ⟨k, -, rfl⟩
  exact Nat.mod_lt _ (Nat.zero_lt_of_lt h.base_lt)

/-- Any stretch of the cells visited. -/
theorem take_drop_cells (h : w.Visits C base) {b m : Nat} (hm : b + m ≤ w.n) :
    (w.cells.drop b).take m = (List.range m).map fun k => (base + (b + k)) % C := by
  rw [h.cells_eq, take_drop_map_range _ hm]

theorem getElem?_cells (h : w.Visits C base) {k : Nat} (hk : k < w.n) :
    w.cells[k]? = some ((base + k) % C) := by
  simp [h.cells_eq, hk]

end Work.Visits

section
variable {s : State} (h : CursorInv s.capacity.toNat s.cursors) (len : Idx)
include h

theorem planPopBytes_visits : (planPopBytes len s).Visits s.capacity.toNat s.head.toNat := by
  obtain ⟨-, hhead, -, -, hl, -⟩ := s.cursorInv_linear h
  exact .start hhead ((Nat.min_le_right _ _).trans hl)

theorem planPeekBytes_visits :
    (planPeekBytes len s).Visits s.capacity.toNat s.peekCursor.toNat := by
  obtain ⟨-, -, -, hpeek, hl, hpl, -⟩ := s.cursorInv_linear h
  exact .start hpeek ((Nat.min_le_right _ _).trans (hpl.trans hl))

theorem planPushBytes_visits : (planPushBytes len s).Visits s.capacity.toNat s.tail.toNat := by
  obtain ⟨-, -, htail, -, hl, -⟩ := s.cursorInv_linear h
  obtain ⟨-, hn, -⟩ := State.arbitrate_bounds hl (Nat.min_le_right len.toNat _)
  exact .start htail hn

end

/-! ## The copy engine, when every cell exists -/

/-- What `m` more beats leave: the end of the command, or the command waiting in the middle. -/
def Work.after (w : Work) (m : Nat) (s : State) : State :=
  if w.beat + m = w.n then w.commit (w.moveBytes m s)
  else { w.moveBytes m s with work := some (w.afterBeats m) }

theorem advance_eq {w : Work} {s : State} (h : ∀ i ∈ w.cells, i < s.capacity.toNat) :
    advance w s = .next (w.after (w.beatsNow s) s) := by
  rcases advance_cases w s with ⟨i, hi, hle, -⟩ | ⟨-, hd, e⟩ | ⟨-, hd, e⟩
  · exact absurd (h i hi) (not_lt.2 hle)
  · rw [e, Work.after, if_pos hd]
  · rw [e, Work.after, if_neg hd]

/-- The commit edge and the response, register by register (20_memory.md rule R62). -/
theorem Work.commit_eq (w : Work) (s : State) :
    w.commit s = { s with
      head := w.cursors.head, tail := w.cursors.tail, length := w.cursors.length,
      peekCursor := w.cursors.peekCursor, peekLength := w.cursors.peekLength, work := none,
      rsp := some (responseWord w.cmd.opcode .ok (toIdx w.n)) } := rfl

/-! ## Deliveries -/

/-- The state after the `m` bytes from place `b` on have been delivered, and the `r` cells from place `a`
on have been read, the places counted from cell `base`. -/
def State.delivered (s : State) (base b m a r : Nat) : State :=
  { s with
    doutLimit := s.doutLimitAfter m,
    dout := s.dout ++ (List.range m).map
      (fun k => s.memRead ((base + (b + k)) % s.capacity.toNat)),
    trace := s.trace ++ (List.range r).map (fun k =>
      ⟨false, toIdx ((base + (a + k)) % s.capacity.toNat),
        s.memRead ((base + (a + k)) % s.capacity.toNat)⟩) }

section
variable {w : Work} {s : State} {base : Nat} (hv : w.Visits s.capacity.toNat base)
  (hd : w.direction = .fromStorage)
include hv hd

theorem Work.moveBytes_fromStorage {m r : Nat} (hm : w.beat + m ≤ w.n) (hr : w.accesses + r ≤ w.n)
    (hacc : (w.afterBeats m).accesses = w.accesses + r) :
    w.moveBytes m s = s.delivered base w.beat m w.accesses r := by
  have hreads : (w.afterBeats m).accesses - w.accesses = r := by omega
  simp only [Work.moveBytes, hd, hreads, hv.take_drop_cells hm, hv.take_drop_cells hr]
  simp [State.delivered, State.readCells, State.doutLimitAfter, Function.comp_def]

/-- A consumer that takes the rest ends the delivery (43_pop.md rule R161, 44_peek.md rule R171). -/
theorem advance_delivery_completes (hb : w.beat ≤ w.n) (ha : w.accesses ≤ w.n)
    (ht : s.consumerTakes (w.n - w.beat) = true) :
    advance w s = .next
      (w.commit (s.delivered base w.beat (w.n - w.beat) w.accesses (w.n - w.accesses))) := by
  have hm : w.beatsNow s = w.n - w.beat := by
    unfold State.consumerTakes at ht
    unfold Work.beatsNow
    cases hl : s.doutLimit with
    | none => simp [hd]
    | some k => simpa [hd, hl] using ht
  have hdone : w.beat + (w.n - w.beat) = w.n := by omega
  rw [advance_eq hv.cells_lt, hm, Work.after, if_pos hdone,
    Work.moveBytes_fromStorage hv hd hdone.le (r := w.n - w.accesses) (by omega)]
  simp only [Work.afterBeats, hd]
  omega

/-- A consumer that takes only `k` more bytes leaves the delivery waiting, the next byte read and
offered (20_memory.md rule R67). -/
theorem advance_delivery_waits {k r : Nat} (hk : w.beat + k < w.n) (hl : s.doutLimit = some k)
    (hr : w.accesses + r = w.beat + k + 1) :
    advance w s = .next { s.delivered base w.beat k w.accesses r with
      work := some { w with beat := w.beat + k, accesses := w.beat + k + 1 }, doutLimit := some 0 } := by
  have hm : w.beatsNow s = k := by
    simp only [Work.beatsNow, hd, hl]
    omega
  have hacc : min w.n (w.beat + k + 1) = w.beat + k + 1 := Nat.min_eq_right hk
  rw [advance_eq hv.cells_lt, hm, Work.after, if_neg hk.ne,
    Work.moveBytes_fromStorage hv hd hk.le (r := r) (by omega)]
  · simp [Work.afterBeats, hd, hacc, State.delivered, State.doutLimitAfter, hl]
  · simp only [Work.afterBeats, hd, hacc, hr]

end

end Sys2Proof.Machine

/-!
PROOFS. A POP_BYTES or PEEK_BYTES that waits for its consumer (20_memory.md rule R67), and how it goes on.
-/

namespace Sys2Proof.Machine

/-- A POP_BYTES with its buffer on a queue that is not empty goes to the copy engine. -/
theorem exec_popBytes {s : State} {len : Idx} (hs : s.constructed = true) (hne : s.isEmpty = false) :
    exec (.popBytes true len) s = advance (planPopBytes len s) s := by
  refine (whenConstructed_true hs).trans ?_
  rw [whenBuffer_true, if_neg (by simp [hne])]

/-- So does a PEEK_BYTES with its buffer on a peek window that is not empty. -/
theorem exec_peekBytes {s : State} {len : Idx} (hs : s.constructed = true)
    (hne : s.isPeekEmpty = false) :
    exec (.peekBytes true len) s = advance (planPeekBytes len s) s := by
  refine (whenConstructed_true hs).trans ?_
  rw [whenBuffer_true, if_neg (by simp [hne])]

/-- On an empty queue POP_BYTES answers at once (43_pop.md rule R161). -/
theorem exec_popBytes_of_isEmpty {s : State} {len : Idx} (hs : s.constructed = true)
    (he : s.isEmpty = true) :
    exec (.popBytes true len) s = respondOk (Instr.popBytes true len).opcode 0#16 s := by
  refine (whenConstructed_true hs).trans ?_
  rw [whenBuffer_true, if_pos he]

/-- So does PEEK_BYTES on an empty peek window (44_peek.md rule R171). -/
theorem exec_peekBytes_of_isPeekEmpty {s : State} {len : Idx} (hs : s.constructed = true)
    (he : s.isPeekEmpty = true) :
    exec (.peekBytes true len) s = respondOk (Instr.peekBytes true len).opcode 0#16 s := by
  refine (whenConstructed_true hs).trans ?_
  rw [whenBuffer_true, if_pos he]

theorem respondOk_work {op : BitVec 4} {value : Idx} {s t : State}
    (h : respondOk op value s = .next t) : t.work = s.work := by
  cases h
  rfl

theorem State.isEmpty_eq_false_iff (s : State) : s.isEmpty = false ↔ 0 < s.length.toNat := by
  rw [Bool.eq_false_iff, Ne, s.isEmpty_iff, Nat.pos_iff_ne_zero]

theorem State.isPeekEmpty_eq_false_iff (s : State) :
    s.isPeekEmpty = false ↔ 0 < s.peekLength.toNat := by
  rw [Bool.eq_false_iff, Ne, s.isPeekEmpty_iff, Nat.pos_iff_ne_zero]

section
variable {s : State} (h : CursorInv s.capacity.toNat s.cursors) {n : Nat}
include h

/-- The cursors that a pop commits, with the wraparound as a remainder. -/
theorem State.cursors_popped_eq (hn : n ≤ s.length.toNat) :
    s.cursors.popped s.capacity.toNat n =
      ⟨toIdx ((s.head.toNat + n) % s.capacity.toNat), s.tail, toIdx (s.length.toNat - n),
        toIdx ((s.head.toNat + n) % s.capacity.toNat), toIdx (s.length.toNat - n)⟩ := by
  obtain ⟨-, hhead, -, -, hl, -⟩ := s.cursorInv_linear h
  rw [← wrap_eq_mod (by omega)]
  rfl

/-- The cursors that a peek commits, with the wraparound as a remainder. -/
theorem State.cursors_peeked_eq (hn : n ≤ s.peekLength.toNat) :
    s.cursors.peeked s.capacity.toNat n =
      ⟨s.head, s.tail, s.length, toIdx ((s.peekCursor.toNat + n) % s.capacity.toNat),
        toIdx (s.peekLength.toNat - n)⟩ := by
  obtain ⟨-, -, -, hpeek, hl, hpl, -⟩ := s.cursorInv_linear h
  rw [← wrap_eq_mod (by omega)]
  rfl

end

/-- The byte that a waiting delivery offers is that of the cell its next beat comes from. -/
theorem State.doutOffered_eq {s : State} {w : Work} {C base : Nat}
    (hv : w.Visits C base) (hd : w.direction = .fromStorage) (hw : s.work = some w)
    (hr : s.rst = false) (hb : w.beat < w.n) :
    s.doutOffered = some (s.memRead ((base + w.beat) % C)) := by
  simp [State.doutOffered, hr, hw, hd, hv.getElem?_cells hb]

/-- The working state of a delivery that waits with the byte at place `b` read and on offer. -/
def Work.offering (w : Work) (b : Nat) : Work := { w with beat := b, accesses := b + 1 }

theorem Work.Visits.offering {w : Work} {C base : Nat} (h : w.Visits C base) (b : Nat) :
    (w.offering b).Visits C base := ⟨h.base_lt, h.n_le, h.cells_eq⟩

/-- What a fresh delivery leaves when its consumer takes only `k` of its bytes. -/
theorem advance_fresh_delivery_waits {w : Work} {s : State} {base k : Nat}
    (hv : w.Visits s.capacity.toNat base) (hd : w.direction = .fromStorage) (hb : w.beat = 0)
    (ha : w.accesses = 0) (hk : k < w.n) (hl : s.doutLimit = some k) :
    ∃ t w', advance w s = .next t ∧
      t = { s with
        work := some w', doutLimit := some 0,
        dout := s.dout ++ (List.range k).map
          (fun j => s.memRead ((base + j) % s.capacity.toNat)),
        trace := s.trace ++ (List.range (k + 1)).map (fun j =>
          ⟨false, toIdx ((base + j) % s.capacity.toNat),
            s.memRead ((base + j) % s.capacity.toNat)⟩) } ∧
      (∀ a, t.memRead a = s.memRead a) ∧ t.cmdReady = false ∧
      (s.rst = false → t.doutOffered = some (s.memRead ((base + k) % s.capacity.toNat))) := by
  have e := advance_delivery_waits hv hd (k := k) (r := k + 1) (by omega) hl (by omega)
  simp only [hb, ha, State.delivered, Nat.zero_add] at e
  refine ⟨_, w.offering k, e, rfl, fun _ => rfl, by simp [State.cmdReady], fun hr => ?_⟩
  exact State.doutOffered_eq (hv.offering k) hd rfl hr hk

/-- Settles O43: both commands are fresh deliveries, from `head` and from the peek cursor. -/
theorem deliveryWaitsForTheConsumer : Obligations.DeliveryWaitsForTheConsumer := by
  unfold Obligations.DeliveryWaitsForTheConsumer
  intro len s k hinv hs hl
  have h := hinv.cursorInv hs
  refine ⟨fun hk => ?_, fun hk => ?_⟩
  · rw [exec_popBytes hs (s.isEmpty_eq_false_iff.2 (by omega))]
    exact advance_fresh_delivery_waits (planPopBytes_visits h len) rfl rfl rfl hk hl
  · rw [exec_peekBytes hs (s.isPeekEmpty_eq_false_iff.2 (by omega))]
    exact advance_fresh_delivery_waits (planPeekBytes_visits h len) rfl rfl rfl hk hl

theorem step_of_work {s : State} {w : Work} (hr : s.rst = false) (hw : s.work = some w) :
    step s = advance w s := by
  simp [step, stepPorts, hr, hw]

theorem Inv.constructed_of_work {s : State} (hinv : Inv s) {w : Work} (hw : s.work = some w) :
    s.constructed = true := (workInv_iff.1 (hinv.workInv hw)).1

/-- In a well-formed state a delivery in progress is its plan `p`, with the byte of its next beat on
offer. -/
theorem Inv.delivery_offering {s : State} (hinv : Inv s) {w p : Work} (hw : s.work = some w)
    (hp : planOf w.cmd s = some p) (hd : p.direction = .fromStorage) :
    w.beat < p.n ∧ w = p.offering w.beat := by
  obtain ⟨-, -, hlt, hacc, hplan⟩ := workInv_iff.1 (hinv.workInv hw)
  obtain rfl := Option.some.inj (hp.symm.trans hplan)
  have hd : w.direction = .fromStorage := hd
  rw [Work.accessesWaiting, hd] at hacc
  refine ⟨hlt, ?_⟩
  cases w
  simpa [Work.offering] using hacc

/-- The step carries it on: to its end if the consumer takes the rest, and otherwise to the next byte that
the consumer does not take. The byte on offer is not read again (20_memory.md rule R67). -/
theorem Inv.step_delivery {s : State} (hinv : Inv s) (hr : s.rst = false) {w p : Work} {base : Nat}
    (hw : s.work = some w) (hp : planOf w.cmd s = some p) (hd : p.direction = .fromStorage)
    (hv : p.Visits s.capacity.toNat base) :
    w.beat < p.n ∧
    (s.consumerTakes (p.n - w.beat) = true → step s = .next (p.commit
      (s.delivered base w.beat (p.n - w.beat) (w.beat + 1) (p.n - w.beat - 1)))) ∧
    (∀ k, s.doutLimit = some k → k < p.n - w.beat →
      step s = .next { s.delivered base w.beat k (w.beat + 1) k with
        work := some (w.offering (w.beat + k)), doutLimit := some 0 }) := by
  obtain ⟨hb, hw'⟩ := hinv.delivery_offering hw hp hd
  rw [step_of_work hr (hw.trans (congrArg some hw'))]
  refine ⟨hb, advance_delivery_completes (hv.offering _) hd hb.le hb, fun k hl hk => ?_⟩
  have ho : w.offering (w.beat + k) = (p.offering w.beat).offering (w.beat + k) :=
    congrArg (Work.offering · (w.beat + k)) hw'
  rw [ho]
  exact advance_delivery_waits (hv.offering _) hd (Nat.add_lt_of_lt_sub' hk) hl
    (Nat.add_right_comm _ 1 k)

/-- Settles O15: both commands are deliveries in progress, from `head` and from the peek cursor. -/
theorem waitingDeliveryGoesOn : Obligations.WaitingDeliveryGoesOn := by
  unfold Obligations.WaitingDeliveryGoesOn
  intro s w len hinv hr hw
  have h := hinv.cursorInv (hinv.constructed_of_work hw)
  refine ⟨fun hcmd => ?_, fun hcmd => ?_⟩
  · have hc : (planPopBytes len s).cursors = _ := State.cursors_popped_eq h (Nat.min_le_right _ _)
    obtain ⟨hb, hends, hwaits⟩ := hinv.step_delivery hr hw (p := planPopBytes len s)
      (hcmd ▸ rfl) rfl (planPopBytes_visits h len)
    rw [Work.commit_eq, hc] at hends
    exact ⟨hb, fun ht => ⟨_, hends ht, fun _ => rfl, rfl⟩,
      fun k hl hk => ⟨_, hwaits k hl hk, fun _ => rfl, rfl⟩⟩
  · have hc : (planPeekBytes len s).cursors = _ := State.cursors_peeked_eq h (Nat.min_le_right _ _)
    obtain ⟨hb, hends, hwaits⟩ := hinv.step_delivery hr hw (p := planPeekBytes len s)
      (hcmd ▸ rfl) rfl (planPeekBytes_visits h len)
    rw [Work.commit_eq, hc] at hends
    exact ⟨hb, fun ht => ⟨_, hends ht, fun _ => rfl, rfl⟩,
      fun k hl hk => ⟨_, hwaits k hl hk, fun _ => rfl, rfl⟩⟩

end Sys2Proof.Machine

/-!
PROOFS. A bulk command whose stream is served in two pieces (20_memory.md rule R63): the beats of the two
steps together are those of one.
-/

namespace Sys2Proof.Machine

/-! ## Beats in two pieces -/

@[simp] theorem Work.afterBeats_direction (w : Work) (m : Nat) :
    (w.afterBeats m).direction = w.direction := by
  unfold Work.afterBeats; cases w.direction <;> rfl

@[simp] theorem Work.afterBeats_cells (w : Work) (m : Nat) : (w.afterBeats m).cells = w.cells := by
  unfold Work.afterBeats; cases w.direction <;> rfl

@[simp] theorem Work.commit_afterBeats (w : Work) (m : Nat) (s : State) :
    (w.afterBeats m).commit s = w.commit s := by
  unfold Work.afterBeats; cases w.direction <;> rfl

theorem Work.afterBeats_add (w : Work) (m k : Nat) :
    (w.afterBeats m).afterBeats k = w.afterBeats (m + k) := by
  unfold Work.afterBeats; cases w.direction <;> simp [Nat.add_assoc]

theorem take_drop_add {α : Type} (l : List α) (b m k : Nat) :
    (l.drop b).take (m + k) = (l.drop b).take m ++ (l.drop (b + m)).take k := by
  rw [List.take_add, List.drop_drop]

/-- A command that waited after `m` beats, in a state `u` in which its stream goes on, ends as the command
that makes all its beats in `s`, if the same bytes move. -/
theorem advance_after_wait {w : Work} {s u : State} {m k : Nat}
    (hs : ∀ i ∈ w.cells, i < s.capacity.toNat) (hu : u.capacity = s.capacity)
    (hk : (w.afterBeats m).beatsNow u = k) (hmk : w.beatsNow s = m + k)
    (hmove : w.moveBytes (m + k) s = { (w.afterBeats m).moveBytes k u with work := s.work }) :
    advance (w.afterBeats m) u = advance w s := by
  rw [advance_eq (by simpa [hu] using hs), advance_eq hs, hk, hmk, Work.after, Work.after, hmove,
    Work.afterBeats_beat, Work.afterBeats_n, Nat.add_assoc, Work.afterBeats_add,
    Work.commit_afterBeats]
  rfl

/-- A command that did not complete waits in the middle. -/
theorem Work.after_of_work_ne_none {w : Work} {m : Nat} {s : State} (h : (w.after m s).work ≠ none) :
    w.beat + m ≠ w.n ∧
      w.after m s = { w.moveBytes m s with work := some (w.afterBeats m) } := by
  unfold Work.after at h ⊢
  split_ifs at h ⊢ with hn
  · exact absurd rfl h
  · exact ⟨hn, rfl⟩

/-! ## A push -/

/-- Writes touch neither the working state nor the producer's bytes. -/
theorem State.writeCells_with (ws : List (Nat × Byte)) (s : State) (x : Option Work) (d : List Byte) :
    State.writeCells ws { s with work := x, din := d } =
      { State.writeCells ws s with work := x, din := d } := by
  induction ws generalizing s with
  | nil => rfl
  | cons w ws ih =>
    obtain ⟨i, b⟩ := w
    exact ih (s.memWrite i b)

theorem Work.moveBytes_toStorage_with {w : Work} (hd : w.direction = .toStorage) (m : Nat)
    (s : State) (x : Option Work) (d : List Byte) :
    w.moveBytes m { s with work := x, din := d } =
      { State.writeCells (((w.cells.drop w.beat).take m).zip (d.take m)) s with
        work := x, din := d.drop m } := by
  rw [Work.moveBytes_toStorage hd, State.writeCells_with]
  rfl

/-- The bytes `a` moved, then bytes of `b`, are moved as from both at once. -/
theorem Work.moveBytes_toStorage_add {w : Work} (hd : w.direction = .toStorage) {a : List Byte}
    (ha : w.beat + a.length ≤ w.cells.length) (b : List Byte) (k : Nat) (s : State) (x : Option Work) :
    w.moveBytes (a.length + k) { s with din := a ++ b } =
      { (w.afterBeats a.length).moveBytes k
          { w.moveBytes a.length { s with din := a } with work := x, din := b } with
        work := s.work } := by
  have hzip : ((w.cells.drop w.beat).take (a.length + k)).zip ((a ++ b).take (a.length + k)) =
      ((w.cells.drop w.beat).take a.length).zip (a.take a.length) ++
        (((w.afterBeats a.length).cells.drop (w.afterBeats a.length).beat).take k).zip (b.take k) := by
    simp only [take_drop_add, Work.afterBeats_cells, Work.afterBeats_beat,
      List.take_length_add_append]
    rw [List.zip_append (by simp; omega), List.take_length]
  rw [Work.moveBytes_toStorage_with hd _ s s.work a,
    Work.moveBytes_toStorage_with (by simpa using hd) _ (State.writeCells _ s) x b,
    Work.moveBytes_toStorage_with hd _ s s.work (a ++ b), hzip, State.writeCells_append,
    ← List.drop_drop, List.drop_left]

/-- A push that gets `a` and waits has taken all of `a`, and gets `b` as if offered with it. -/
theorem push_in_pieces {s t : State} {w : Work} {base : Nat} {a : List Byte}
    (hv : w.Visits s.capacity.toNat base) (hd : w.direction = .toStorage) (hb : w.beat = 0)
    (hr : s.rst = false) (h : advance w { s with din := a } = .next t) (ht : t.work ≠ none)
    (b : List Byte) :
    t.din = [] ∧ step ((HostMove.offer b).apply t) = advance w { s with din := a ++ b } := by
  rw [advance_eq (s := { s with din := a }) hv.cells_lt] at h
  cases h
  obtain ⟨hn, e⟩ := Work.after_of_work_ne_none ht
  have hbeats (d : List Byte) : w.beatsNow { s with din := d } = min w.n d.length := by
    simp [Work.beatsNow, hd, hb]
  have hm : w.beatsNow { s with din := a } = a.length := by
    rw [hbeats] at hn ⊢
    omega
  rw [hm, hb, Nat.zero_add] at hn
  rw [hm] at e
  have hdin : (w.moveBytes a.length { s with din := a }).din = [] := by
    simp [Work.moveBytes_toStorage hd]
  have hoffer : (HostMove.offer b).apply (w.after a.length { s with din := a }) =
      { w.moveBytes a.length { s with din := a } with
        work := some (w.afterBeats a.length), din := b } := by
    simp only [HostMove.apply, e, hdin, List.nil_append]
  rw [hm, hoffer]
  refine ⟨by rw [e, hdin], ?_⟩
  rw [step_of_work (w := w.afterBeats a.length) (by simpa using hr) rfl]
  have hle := w.beatsNow_le { s with din := a }
  have hmove := Work.moveBytes_toStorage_add hd (a := a) (by rw [hv.length_cells]; omega) b
    (min (w.n - a.length) b.length) s (some (w.afterBeats a.length))
  refine advance_after_wait hv.cells_lt (by simp) ?_ ?_ hmove
  · simp [Work.beatsNow, hd, hb]
  · rw [hbeats, List.length_append]
    omega

/-- Settles O13: the plan of PUSH_BYTES does not depend on what the producer offers. -/
theorem bytesOfferedInPiecesGiveTheSameResult :
    Obligations.BytesOfferedInPiecesGiveTheSameResult := by
  unfold Obligations.BytesOfferedInPiecesGiveTheSameResult
  intro s t len a b hinv hs hr hw h ht
  have e (d : List Byte) : exec (.pushBytes true len) { s with din := d } =
      advance (planPushBytes len s) { s with din := d } :=
    whenConstructed_true (s := { s with din := d }) hs
  rw [e] at h ⊢
  exact push_in_pieces (planPushBytes_visits (hinv.cursorInv hs) len) rfl rfl hr h ht b

/-! ## A delivery -/

/-- The bytes of `m` beats delivered, then those of `k` more, are delivered as at once, whatever limit the
consumer had before; `l` is its limit in the second piece, and `l'` its limit without the wait. -/
theorem Work.moveBytes_fromStorage_add {w : Work} (hd : w.direction = .fromStorage) {m k : Nat}
    (hacc : w.accesses ≤ (w.afterBeats m).accesses) {l l' : Option Nat}
    (hl : l'.map (fun j => j - (m + k)) = l.map (fun j => j - k)) (s : State) (l₀ : Option Nat)
    (x : Option Work) :
    w.moveBytes (m + k) { s with doutLimit := l' } =
      { (w.afterBeats m).moveBytes k
          { w.moveBytes m { s with doutLimit := l₀ } with work := x, doutLimit := l } with
        work := s.work } := by
  have hacc' : (w.afterBeats m).accesses ≤ (w.afterBeats (m + k)).accesses := by
    simp only [Work.afterBeats, hd]
    omega
  have hreads : (w.cells.drop w.accesses).take ((w.afterBeats (m + k)).accesses - w.accesses) =
      (w.cells.drop w.accesses).take ((w.afterBeats m).accesses - w.accesses) ++
        (w.cells.drop (w.afterBeats m).accesses).take
          ((w.afterBeats (m + k)).accesses - (w.afterBeats m).accesses) := by
    conv_rhs => rw [← Nat.add_sub_of_le hacc, Nat.add_sub_cancel_left]
    rw [← take_drop_add]
    congr 1
    omega
  simp only [Work.moveBytes, Work.afterBeats_direction, hd, Work.afterBeats_add, hreads, hl,
    take_drop_add, Work.afterBeats_cells, Work.afterBeats_beat, State.readCells, List.map_append,
    ← List.append_assoc]
  rfl

/-- A delivery whose consumer takes `a` bytes and leaves it waiting goes on, when the consumer takes as many
more as `l` says, as if it had been told both at once. -/
theorem delivery_in_pieces {s t : State} {w : Work} {base a : Nat}
    (hv : w.Visits s.capacity.toNat base) (hd : w.direction = .fromStorage) (hb : w.beat = 0)
    (ha : w.accesses = 0) (hr : s.rst = false)
    (h : advance w { s with doutLimit := some a } = .next t) (ht : t.work ≠ none) :
    t.doutLimit = some 0 ∧ ∀ l : Option Nat,
      step ((HostMove.limitDout l).apply t) = advance w { s with doutLimit := l.map (a + ·) } := by
  rw [advance_eq (s := { s with doutLimit := some a }) hv.cells_lt] at h
  cases h
  obtain ⟨hn, e⟩ := Work.after_of_work_ne_none ht
  have hm : w.beatsNow { s with doutLimit := some a } = a := by
    simp only [Work.beatsNow, hd] at hn ⊢
    omega
  have hle := w.beatsNow_le { s with doutLimit := some a }
  rw [hm] at hn e hle ⊢
  rw [e]
  refine ⟨by simp [Work.moveBytes, hd], fun l => ?_⟩
  rw [step_of_work (w := w.afterBeats a) (by simpa [HostMove.apply] using hr) rfl]
  refine advance_after_wait hv.cells_lt (by simp [HostMove.apply]) rfl ?_
    (Work.moveBytes_fromStorage_add hd (by simp [ha]) ?_ s (some a) (some (w.afterBeats a)))
  · simp only [HostMove.apply, Work.beatsNow, Work.afterBeats_direction, hd, Work.afterBeats_n,
      Work.afterBeats_beat]
    cases l <;> simp only [Option.map_none, Option.map_some] <;> omega
  · cases l with
    | none => rfl
    | some b => simp; omega

/-- Settles O14: the plan of a delivery does not depend on what the consumer takes. -/
theorem bytesTakenInPiecesGiveTheSameResult : Obligations.BytesTakenInPiecesGiveTheSameResult := by
  unfold Obligations.BytesTakenInPiecesGiveTheSameResult
  intro i s t len a b hi hinv hs hr hw h ht
  have hc := hinv.cursorInv hs
  obtain ⟨w, base, hv, hd, hb, ha, e⟩ : ∃ (w : Work) (base : Nat), w.Visits s.capacity.toNat base ∧
      w.direction = .fromStorage ∧ w.beat = 0 ∧ w.accesses = 0 ∧
      ∀ l, exec i { s with doutLimit := l } = advance w { s with doutLimit := l } := by
    rcases hi with rfl | rfl
    · have hne : s.isEmpty = false :=
        Bool.eq_false_iff.2 fun he =>
        have e := exec_popBytes_of_isEmpty (s := { s with doutLimit := some a }) hs he
        ht ((respondOk_work (e.symm.trans h)).trans hw)
      exact ⟨_, _, planPopBytes_visits hc len, rfl, rfl, rfl,
        fun l => exec_popBytes (s := { s with doutLimit := l }) hs hne⟩
    · have hne : s.isPeekEmpty = false :=
        Bool.eq_false_iff.2 fun he =>
        have e := exec_peekBytes_of_isPeekEmpty (s := { s with doutLimit := some a }) hs he
        ht ((respondOk_work (e.symm.trans h)).trans hw)
      exact ⟨_, _, planPeekBytes_visits hc len, rfl, rfl, rfl,
        fun l => exec_peekBytes (s := { s with doutLimit := l }) hs hne⟩
  rw [e] at h
  obtain ⟨hlimit, hpieces⟩ := delivery_in_pieces hv hd hb ha hr h ht
  exact ⟨hlimit, (hpieces (some b)).trans (e _).symm, (hpieces none).trans (e _).symm⟩

end Sys2Proof.Machine

/-!
PROOFS. The cells a push writes (20_memory.md rules R59, R60 and R66): where they are in the window, and what
they hold afterwards.
-/

namespace Sys2Proof.Machine

/-! ## The place of the cells from `tail` -/

/-- Places a whole turn apart are the same cell. -/
theorem State.windowCell_add_capacity (s : State) (k : Nat) :
    s.windowCell (s.capacity.toNat + k) = s.windowCell k := by
  rw [State.windowCell, State.windowCell, Nat.add_left_comm, Nat.add_mod_left]

/-- The arbiter's counts against the room there is (40_common_datapath.md rule R116). -/
theorem State.arbitrate_room (s : State) (req : Nat) :
    ((s.arbitrate req).2 = 0 → (s.arbitrate req).1 ≤ s.free) ∧
      (0 < (s.arbitrate req).2 → (s.arbitrate req).1 = s.free + (s.arbitrate req).2) := by
  rcases s.arbitrate_cases req with ⟨h, e⟩ | ⟨h, -, e⟩ | ⟨h, -, e⟩ <;> simp only [e] <;>
    omega

section
variable {s : State} (h : CursorInv s.capacity.toNat s.cursors)
include h

/-- The cells after the window are not in it. -/
theorem State.not_inWindow {p : Nat} (hp : s.length.toNat ≤ p) (hC : p < s.capacity.toNat) :
    ¬s.InWindow (s.windowCell p) := by
  rintro ⟨k, hk, e⟩
  have := State.windowCell_inj h (by omega) hC e
  omega

/-- The first cells from `tail` are free. -/
theorem State.tail_cell_free {k : Nat} (hk : k < s.capacity.toNat - s.length.toNat) :
    ¬s.InWindow ((s.tail.toNat + k) % s.capacity.toNat) := by
  rw [State.tail_add_mod h]
  exact State.not_inWindow h (Nat.le_add_right _ _) (by omega)

/-- The cells after those are the oldest of the window, in their order. -/
theorem State.tail_cell_oldest {k : Nat} (hk : s.capacity.toNat - s.length.toNat ≤ k) :
    (s.tail.toNat + k) % s.capacity.toNat =
      s.windowCell (k - (s.capacity.toNat - s.length.toNat)) := by
  obtain ⟨-, -, -, -, hl, -⟩ := s.cursorInv_linear h
  rw [State.tail_add_mod h, ← s.windowCell_add_capacity (k - _)]
  congr 1
  omega

/-- No cell from `tail` that the arbiter grants holds a byte that is kept. -/
theorem State.tail_cell_ne_kept {req k j : Nat} (hk : k < (s.arbitrate req).1)
    (hj : j < s.length.toNat - (s.arbitrate req).2) :
    s.windowCell ((s.arbitrate req).2 + j) ≠ (s.tail.toNat + k) % s.capacity.toNat := by
  obtain ⟨-, -, -, -, hl, -⟩ := s.cursorInv_linear h
  obtain ⟨hnone, hsome⟩ := s.arbitrate_room req
  intro he
  by_cases hfree : k < s.capacity.toNat - s.length.toNat
  · exact State.tail_cell_free h hfree ⟨_, by omega, he⟩
  · rw [State.tail_cell_oldest h (not_lt.1 hfree)] at he
    have hlt : k - (s.capacity.toNat - s.length.toNat) < (s.arbitrate req).2 := by
      unfold State.free at hnone hsome
      omega
    have := State.windowCell_inj h (by omega) (by omega) he
    omega

end

/-- Settles O38: from the arbiter's counts and the place of the cells from `tail`. -/
theorem cellsFromTailAreFreeOrOldest : Obligations.CellsFromTailAreFreeOrOldest := by
  unfold Obligations.CellsFromTailAreFreeOrOldest
  intro s req hinv hs hreq
  have h := hinv.cursorInv hs
  obtain ⟨hnone, hsome⟩ := s.arbitrate_room req
  refine ⟨hnone, hsome, fun k _ hk => State.tail_cell_free h hk,
    fun k hn hk => ⟨?_, State.tail_cell_oldest h hk⟩⟩
  unfold State.free at hnone hsome
  omega

/-! ## The bytes of a push -/

/-- No two cells of a bulk command are the same (20_memory.md rule R60). -/
theorem Work.Visits.nodup_cells {w : Work} {C base : Nat} (h : w.Visits C base) : w.cells.Nodup := by
  rw [h.cells_eq, ← Work.start_cells (cmd := w.cmd) (direction := w.direction) (e := w.e)
    (c := w.cursors) h.base_lt h.n_le]
  exact Work.start_cells_nodup h.base_lt h.n_le

/-- Writes change the storage and the trace, and nothing else. -/
theorem State.writeCells_eq (ws : List (Nat × Byte)) (s : State) :
    State.writeCells ws s = { s with
      storage := (State.writeCells ws s).storage,
      trace := s.trace ++ ws.map (fun w => ⟨true, toIdx w.1, w.2⟩) } := by
  rw [← State.writeCells_trace]
  induction ws generalizing s with
  | nil => rfl
  | cons w ws ih =>
    obtain ⟨i, b⟩ := w
    exact ih (s.memWrite i b)

section
variable {w : Work} {s : State} {base m : Nat} (hv : w.Visits s.capacity.toNat base)
  (hm : w.beat + m ≤ w.n) (hdin : m ≤ s.din.length)
include hv hm hdin

/-- The writes of `m` beats: each byte of `din` in its turn to the next cell. -/
theorem Work.writesNow_eq :
    w.writesNow m s = (List.range m).map fun k =>
      ((base + (w.beat + k)) % s.capacity.toNat, (s.din[k]?).getD 0#8) := by
  have htake : s.din.take m = (List.range m).map fun k => (s.din[k]?).getD 0#8 := by
    refine List.ext_getElem (by simpa using hdin) fun k hk _ => ?_
    have hlt : k < s.din.length := hk.trans_le (List.length_take_le' _ _)
    simp [hlt]
  rw [Work.writesNow, hv.take_drop_cells hm, htake, List.zip_map']

theorem Work.writesNow_cells :
    (w.writesNow m s).map Prod.fst = (w.cells.drop w.beat).take m := by
  rw [Work.writesNow_eq hv hm hdin, hv.take_drop_cells hm, List.map_map]
  rfl

/-- The registers, the streams and the trace after `m` beats from `din`. -/
theorem Work.moveBytes_toStorage_eq (hd : w.direction = .toStorage) :
    w.moveBytes m s = { s with
      storage := (w.moveBytes m s).storage, din := s.din.drop m,
      trace := s.trace ++ (List.range m).map (fun k =>
        ⟨true, toIdx ((base + (w.beat + k)) % s.capacity.toNat), (s.din[k]?).getD 0#8⟩) } := by
  conv_lhs => rw [Work.moveBytes_toStorage hd, State.writeCells_eq, Work.writesNow_eq hv hm hdin]
  rw [Work.moveBytes_toStorage hd, Work.writesNow_eq hv hm hdin, List.map_map]
  rfl

/-- Each cell written holds its byte. -/
theorem Work.memRead_moveBytes_toStorage (hd : w.direction = .toStorage) {k : Nat} (hk : k < m) :
    s.din[k]? = some
      ((w.moveBytes m s).memRead ((base + (w.beat + k)) % s.capacity.toNat)) := by
  have hnodup : ((w.writesNow m s).map Prod.fst).Nodup := by
    rw [Work.writesNow_cells hv hm hdin]
    exact hv.nodup_cells.sublist ((List.take_sublist _ _).trans (List.drop_sublist _ _))
  have hmem : ((base + (w.beat + k)) % s.capacity.toNat, (s.din[k]?).getD 0#8) ∈
      w.writesNow m s := by
    rw [Work.writesNow_eq hv hm hdin]
    exact List.mem_map.2 ⟨k, List.mem_range.2 hk, rfl⟩
  have hread := State.memRead_writeCells_of_mem (s := s) hnodup hmem
  rw [Work.moveBytes_toStorage hd]
  have hlt : k < s.din.length := by omega
  rw [List.getElem?_eq_getElem hlt] at hread ⊢
  exact congrArg some hread.symm

/-- Every other cell keeps its byte. -/
theorem Work.memRead_moveBytes_toStorage_other (hd : w.direction = .toStorage) {a : Nat}
    (ha : ∀ k, k < m → a ≠ (base + (w.beat + k)) % s.capacity.toNat) :
    (w.moveBytes m s).memRead a = s.memRead a := by
  rw [Work.moveBytes_toStorage hd]
  refine State.memRead_writeCells_other (s := s) fun hmem => ?_
  rw [Work.writesNow_cells hv hm hdin, hv.take_drop_cells hm] at hmem
  obtain ⟨k, hk, e⟩ := List.mem_map.1 hmem
  exact ha k (List.mem_range.1 hk) e.symm

end

theorem exec_pushBytes {s : State} {len : Idx} (hs : s.constructed = true) :
    exec (.pushBytes true len) s = advance (planPushBytes len s) s := whenConstructed_true hs

/-- Settles O36: the copy engine makes one beat for each byte of `din`, fewer than it has left. -/
theorem pushBytesWaitsForTheProducer : Obligations.PushBytesWaitsForTheProducer := by
  unfold Obligations.PushBytesWaitsForTheProducer
  intro len s hinv hs C n hlt
  have hv := planPushBytes_visits (hinv.cursorInv hs) len
  have hlt : s.din.length < (planPushBytes len s).n := hlt
  have hb : (planPushBytes len s).beat = 0 := rfl
  have hm : (planPushBytes len s).beat + s.din.length ≤ (planPushBytes len s).n := by omega
  have hbeats : (planPushBytes len s).beatsNow s = s.din.length := Nat.min_eq_right hlt.le
  have e : exec (.pushBytes true len) s = .next
      { (planPushBytes len s).moveBytes s.din.length s with
        work := some ((planPushBytes len s).afterBeats s.din.length) } := by
    rw [exec_pushBytes hs, advance_eq hv.cells_lt, hbeats, Work.after, if_neg (by omega)]
  have hmoved := Work.moveBytes_toStorage_eq hv hm le_rfl rfl
  have hread {k : Nat} := Work.memRead_moveBytes_toStorage hv hm le_rfl rfl (k := k)
  have hother {a : Nat} := Work.memRead_moveBytes_toStorage_other hv hm le_rfl rfl (a := a)
  simp only [hb, Nat.zero_add, List.drop_length] at hmoved hread hother
  refine ⟨_, (planPushBytes len s).afterBeats s.din.length, e, ?_, fun k => hread,
    fun a => hother, Nat.zero_add _, rfl, ?_, fun hr => ?_⟩
  · conv_lhs => rw [hmoved]
  · simp [State.cmdReady]
  · simpa [State.dinReady] using ⟨hr, rfl⟩

end Sys2Proof.Machine

/-!
PROOFS. The accesses of the pushes (20_memory.md rule R59): both write the cells from `tail` in their order,
as many as the arbiter grants, and leave the window at the bytes kept.
-/

namespace Sys2Proof.Machine

/-- `WritesFromTail s req t`: a push of `req` bytes from `s` to `t` has written some of the cells from
`tail` that the arbiter grants, in their order; if it is complete, all of them, and it has moved `head`
past the bytes evicted. -/
def WritesFromTail (s : State) (req : Nat) (t : State) : Prop :=
  ∃ (m : Nat) (byte : Nat → Byte), m ≤ (s.arbitrate req).1 ∧
    t.trace = s.trace ++ (List.range m).map (fun k =>
      ⟨true, toIdx ((s.tail.toNat + k) % s.capacity.toNat), byte k⟩) ∧
    (t.work = none → m = (s.arbitrate req).1 ∧ t.capacity = s.capacity ∧
      t.head = (s.cursors.evict s.capacity.toNat (s.arbitrate req).2).head)

/-- The head after an eviction. -/
theorem Cursors.evict_head {C n : Nat} {c : Cursors} (hC : C < 65536) (h : CursorInv C c)
    (hn : n ≤ c.length.toNat) : (c.evict C n).head.toNat = (c.head.toNat + n) % C := by
  obtain ⟨-, ⟨hhead, -, -⟩, -⟩ := id h
  unfold Cursors.evict
  split_ifs with h0
  · exact (Cursors.dropFront_toNat hC h hn).1
  · rw [Nat.eq_zero_of_not_pos h0, Nat.add_zero, Nat.mod_eq_of_lt hhead]

/-- A PUSH_BYTE that is not rejected (42_push.md rule R140). -/
theorem exec_pushByte {s : State} {byte : Byte} (hs : s.constructed = true)
    (hrej : ¬(s.isFull && !s.overwriteEnabled) = true) :
    exec (.pushByte byte) s = requireCells [s.pushCursors.tail.toNat] s
      (respondOk (Instr.pushByte byte).opcode 1#16
        ((s.memWrite s.pushCursors.tail.toNat byte).withCursors
          (s.pushCursors.pushed s.capacity.toNat 1))) :=
  (whenConstructed_true hs).trans (if_neg hrej)

/-- A PUSH_BYTE on a full queue that may not be overwritten. -/
theorem exec_pushByte_of_full {s : State} {byte : Byte} (hs : s.constructed = true)
    (hrej : (s.isFull && !s.overwriteEnabled) = true) :
    exec (.pushByte byte) s = .next (s.respond (Instr.pushByte byte).opcode .full 0#16) :=
  (whenConstructed_true hs).trans (if_pos hrej)

/-- The copy engine's accesses do not depend on whether the command ends with them. -/
theorem Work.after_trace (w : Work) (m : Nat) (s : State) :
    (w.after m s).trace = (w.moveBytes m s).trace := by
  unfold Work.after
  split_ifs <;> rfl

section
variable {s : State} (h : CursorInv s.capacity.toNat s.cursors)
include h

/-- The arbiter on a request for one byte: it evicts one on a full queue, if it may, and grants none on a
full queue otherwise. -/
theorem State.arbitrate_one :
    s.arbitrate 1 = if s.isFull && !s.overwriteEnabled then (0, 0)
      else (1, if s.isFull then 1 else 0) := by
  obtain ⟨hC, -, -, -, hl, -⟩ := s.cursorInv_linear h
  cases hf : s.isFull with
  | true =>
    have hzero : s.free = 0 := by
      rw [State.isFull_iff h] at hf
      exact Nat.sub_eq_zero_of_le hf.ge
    cases ho : s.overwriteEnabled <;> simp [State.arbitrate, hzero, ho]
  | false =>
    have hfree : 1 ≤ s.free := by
      have hne : ¬s.length.toNat = s.capacity.toNat := fun e => by
        simp [(State.isFull_iff h).2 e] at hf
      unfold State.free
      omega
    simp [State.arbitrate, hfree]

theorem exec_pushByte_writesFromTail (hs : s.constructed = true) (byte : Byte) :
    ∃ t, exec (.pushByte byte) s = .next t ∧ WritesFromTail s 1 t := by
  obtain ⟨-, -, htail, -⟩ := s.cursorInv_linear h
  have harb := State.arbitrate_one h
  by_cases hrej : (s.isFull && !s.overwriteEnabled) = true
  · rw [if_pos hrej] at harb
    refine ⟨_, exec_pushByte_of_full hs hrej, 0, fun _ => 0#8, Nat.zero_le _, by simp, fun _ => ?_⟩
    rw [harb]
    exact ⟨rfl, rfl, rfl⟩
  · rw [if_neg hrej] at harb
    have hn : (s.arbitrate 1).1 = 1 := congrArg Prod.fst harb
    have hevict : s.pushCursors = s.cursors.evict s.capacity.toNat (s.arbitrate 1).2 := by
      rw [harb]
      cases hf : s.isFull <;> simp [State.pushCursors, Cursors.evict, hf]
    have hcell : s.pushCursors.tail = s.tail := hevict ▸ Cursors.evict_tail
    have hlt : ∀ i ∈ [s.pushCursors.tail.toNat], i < s.capacity.toNat := by simpa [hcell] using htail
    refine ⟨_, (exec_pushByte hs hrej).trans (requireCells_of_lt hlt), 1, fun _ => byte, hn.ge, ?_,
      fun _ => ⟨hn.symm, rfl, ?_⟩⟩
    · simp [hcell, Nat.mod_eq_of_lt htail]
    · rw [← hevict]
      rfl

theorem exec_pushBytes_writesFromTail (hs : s.constructed = true) (len : Idx) :
    ∃ t, exec (.pushBytes true len) s = .next t ∧
      WritesFromTail s (min len.toNat s.capacity.toNat) t := by
  have hv := planPushBytes_visits h len
  have hb : (planPushBytes len s).beat = 0 := rfl
  have hn : (s.arbitrate (min len.toNat s.capacity.toNat)).1 = (planPushBytes len s).n := rfl
  have e := (exec_pushBytes hs).trans (advance_eq hv.cells_lt)
  obtain ⟨m, hm⟩ : ∃ m, min (planPushBytes len s).n s.din.length = m := ⟨_, rfl⟩
  rw [show (planPushBytes len s).beatsNow s = m from hm] at e
  have hle : (planPushBytes len s).beat + m ≤ (planPushBytes len s).n := by omega
  have hmoved := Work.moveBytes_toStorage_eq hv hle (by omega) rfl
  refine ⟨_, e, m, fun k => (s.din[k]?).getD 0#8, by omega, ?_, fun ht => ?_⟩
  · rw [Work.after_trace, hmoved]
    simp [hb]
  · unfold Work.after at ht ⊢
    split_ifs at ht ⊢ with hdone
    rw [hb, Nat.zero_add] at hdone
    exact ⟨hdone, by simp, rfl⟩

/-- After a completed push the bytes kept are the first of the new window, each in its old cell. -/
theorem WritesFromTail.windowCell_eq {req : Nat} {t : State} (ht : WritesFromTail s req t)
    (hreq : req ≤ s.capacity.toNat) (hw : t.work = none) (j : Nat) :
    t.windowCell j = s.windowCell ((s.arbitrate req).2 + j) := by
  obtain ⟨m, byte, -, -, hdone⟩ := ht
  obtain ⟨-, hcap, hhead⟩ := hdone hw
  obtain ⟨-, -, -, -, hl, -⟩ := s.cursorInv_linear h
  obtain ⟨he, -⟩ := State.arbitrate_bounds hl hreq
  have hhead' : t.head.toNat = (s.head.toNat + (s.arbitrate req).2) % s.capacity.toNat :=
    (congrArg BitVec.toNat hhead).trans (Cursors.evict_head (idx_lt _) h he)
  rw [State.windowCell, State.windowCell, hcap, hhead', Nat.mod_add_mod, Nat.add_assoc]

end

/-- Settles O37: both pushes write from `tail`, and the cells there have the place that O38 says. -/
theorem pushWritesFreeOrEvictedCells : Obligations.PushWritesFreeOrEvictedCells := by
  unfold Obligations.PushWritesFreeOrEvictedCells
  intro i req s hinv hs hi C n e
  have h := hinv.cursorInv hs
  obtain ⟨hreq, t, ht, hwrites⟩ : req ≤ C ∧ ∃ t, exec i s = .next t ∧ WritesFromTail s req t := by
    rcases hi with ⟨⟨byte, rfl⟩, rfl⟩ | ⟨len, rfl, rfl⟩
    · exact ⟨h.1, exec_pushByte_writesFromTail h hs byte⟩
    · exact ⟨Nat.min_le_right _ _, exec_pushBytes_writesFromTail h hs len⟩
  obtain ⟨-, -, hfree, holdest⟩ := cellsFromTailAreFreeOrOldest s req hinv hs hreq
  obtain ⟨m, byte, hm, htrace, hdone⟩ := id hwrites
  refine ⟨t, _, ht, htrace, by simpa using hm, fun hw => by simpa using (hdone hw).1,
    fun k access hk => ?_, fun hw j _ => hwrites.windowCell_eq h hreq hw j⟩
  obtain ⟨hkm, rfl⟩ : k < m ∧ _ = access := by
    simpa [List.getElem?_eq_some_iff] using hk
  have hkn : k < n := hkm.trans_le hm
  have haddr : (toIdx ((s.tail.toNat + k) % C)).toNat = (s.tail.toNat + k) % C :=
    toIdx_toNat ((Nat.mod_lt _ h.1).trans (idx_lt _))
  dsimp only
  rw [haddr]
  exact ⟨rfl, rfl, hfree k hkn, holdest k hkn, fun j => State.tail_cell_ne_kept h hkn⟩

end Sys2Proof.Machine

/-!
PROOFS. Which cells have been written, and what the accesses of a step may be (20_memory.md rules R57 and
R58).
-/

namespace Sys2Proof.Machine

/-! ## The written cells -/

/-- Every cell of the window that the cursors `c` describe has been written. -/
def WindowListed (C : Nat) (c : Cursors) (m : Memory) : Prop :=
  ∀ k, k < c.length.toNat → (m.read? ((c.head.toNat + k) % C)).isSome = true

theorem WindowWritten.listed {s : State} (h : WindowWritten s) :
    WindowListed s.capacity.toNat s.cursors s.storage := h.1

theorem WindowWritten.of_listed {s : State} (hw : s.work = none)
    (h : WindowListed s.capacity.toNat s.cursors s.storage) : WindowWritten s :=
  ⟨h, by simp [hw]⟩

/-- A run of writes adds its own cells to those written, and takes none away. -/
theorem State.isSome_read?_writeCells (ws : List (Nat × Byte)) (s : State) (a : Nat) :
    ((State.writeCells ws s).storage.read? a).isSome = true ↔
      a ∈ ws.map Prod.fst ∨ (s.storage.read? a).isSome = true := by
  induction ws generalizing s with
  | nil => simp [State.writeCells]
  | cons w ws ih =>
    obtain ⟨i, b⟩ := w
    rw [State.writeCells, ih, State.memWrite_storage, Memory.read?_write]
    by_cases h : a = i <;> simp [h]

namespace WindowListed

variable {C n : Nat} {c : Cursors} {m m' : Memory}

theorem mono (h : WindowListed C c m)
    (hm : ∀ a, (m.read? a).isSome = true → (m'.read? a).isSome = true) : WindowListed C c m' :=
  fun k hk => hm _ (h k hk)

theorem zero : WindowListed C Cursors.zero m := fun k hk => absurd hk (Nat.not_lt_zero k)

/-- A window that begins `n` bytes later and ends where it did. -/
theorem later {c' : Cursors} (h : WindowListed C c m) (hn : n ≤ c.length.toNat)
    (hhead : c'.head.toNat = (c.head.toNat + n) % C)
    (hlen : c'.length.toNat = c.length.toNat - n) : WindowListed C c' m := by
  intro k hk
  rw [hhead, Nat.mod_add_mod, Nat.add_assoc]
  exact h _ (by omega)

theorem popped (h : WindowListed C c m) (hC : C < 65536) (hc : CursorInv C c)
    (hn : n ≤ c.length.toNat) : WindowListed C (c.popped C n) m := by
  obtain ⟨hhead, hlen⟩ := Cursors.dropFront_toNat hC hc hn
  exact h.later hn hhead hlen

theorem evict (h : WindowListed C c m) (hC : C < 65536) (hc : CursorInv C c)
    (hn : n ≤ c.length.toNat) : WindowListed C (c.evict C n) m := by
  unfold Cursors.evict
  split_ifs
  · exact h.popped hC hc hn
  · exact h

theorem committed (h : WindowListed C c m) (hc : CursorInv C c) : WindowListed C c.committed m := by
  obtain ⟨-, -, -, -, hpl, hpeek⟩ := hc
  exact h.later (Nat.sub_le _ _) hpeek (Nat.sub_sub_self hpl).symm

/-- A push whose bytes have been written from `tail` on. -/
theorem pushed (h : WindowListed C c m) (hC : C < 65536) (hc : CursorInv C c)
    (hroom : c.length.toNat + n ≤ C)
    (hnew : ∀ k, k < n → (m.read? ((c.tail.toNat + k) % C)).isSome = true) :
    WindowListed C (c.pushed C n) m := by
  obtain ⟨-, hlen, -⟩ := Cursors.pushed_toNat hC hc hroom
  obtain ⟨-, -, -, htail, -⟩ := hc
  intro k hk
  rw [hlen] at hk
  by_cases hold : k < c.length.toNat
  · exact h k hold
  · have e := hnew (k - c.length.toNat) (by omega)
    rwa [htail, Nat.mod_add_mod, Nat.add_assoc, Nat.add_sub_of_le (not_lt.1 hold)] at e

end WindowListed

/-! ## The accesses -/

/-- An access that a command may make in `s`: to a cell that exists, and a read only of a written cell of
the window, which gives the byte written. -/
def AllowedAccess (s : State) (a : Access) : Prop :=
  a.addr.toNat < s.capacity.toNat ∧
    (a.we = false → s.InWindow a.addr.toNat ∧ s.storage.read? a.addr.toNat = some a.data)

theorem allowedAccess_write {s : State} {a : Nat} (ha : a < s.capacity.toNat) (b : Byte) :
    AllowedAccess s ⟨true, toIdx a, b⟩ :=
  ⟨(toIdx_toNat (ha.trans (idx_lt _))).symm ▸ ha, fun h => Bool.noConfusion h⟩

theorem allowedAccess_read {s : State} (h : WindowListed s.capacity.toNat s.cursors s.storage)
    {a : Nat} (ha : a < s.capacity.toNat) (hin : s.InWindow a) :
    AllowedAccess s ⟨false, toIdx a, s.memRead a⟩ := by
  have e : (toIdx a).toNat = a := toIdx_toNat (ha.trans (idx_lt _))
  obtain ⟨k, hk, rfl⟩ := id hin
  obtain ⟨b, hb⟩ := Option.isSome_iff_exists.1 (h k hk)
  have hb : s.storage.read? (s.windowCell k) = some b := hb
  refine ⟨e.symm ▸ ha, fun _ => ?_⟩
  dsimp only
  rw [e]
  exact ⟨hin, by simp [State.memRead, hb]⟩

/-- From `s` to `t` every access was allowed, and the window of `t` is written. -/
def KeepsWritten (s t : State) : Prop :=
  WindowWritten t ∧ ∃ new, t.trace = s.trace ++ new ∧ ∀ a ∈ new, AllowedAccess s a

theorem KeepsWritten.of_no_access {s t : State} (h : WindowWritten t) (ht : t.trace = s.trace) :
    KeepsWritten s t := ⟨h, [], by simp [ht], by simp⟩

/-! ## Commands that take no stream -/

/-- The oldest bytes are those a pop delivers. -/
theorem State.inWindow_head {s : State} {k : Nat} (hk : k < s.length.toNat) :
    s.InWindow ((s.head.toNat + k) % s.capacity.toNat) := ⟨k, hk, rfl⟩

section
variable {s : State} (h : CursorInv s.capacity.toNat s.cursors)
include h

/-- The bytes from the peek cursor are in the window, as many as the peek window has. -/
theorem State.inWindow_peekCursor {k : Nat} (hk : k < s.peekLength.toNat) :
    s.InWindow ((s.peekCursor.toNat + k) % s.capacity.toNat) := by
  obtain ⟨-, -, -, -, -, hpl, -⟩ := s.cursorInv_linear h
  exact ⟨_, by omega, (State.peekCursor_add_mod h k).symm⟩

theorem WindowListed.pushCursors {m : Memory} (hl : WindowListed s.capacity.toNat s.cursors m) :
    WindowListed s.capacity.toNat s.pushCursors m := by
  unfold State.pushCursors
  split_ifs with hf
  · have hone : 1 ≤ s.cursors.length.toNat := (State.isFull_iff h).1 hf ▸ h.1
    exact hl.evict (idx_lt _) h hone
  · exact hl

end

theorem ImmediateEffect.keepsWritten {s s' : State} {cells : List Nat}
    (he : ImmediateEffect s cells s') (h : Launch s) (hw : WindowWritten s) : KeepsWritten s s' := by
  have hwork : s'.work = none := he.work_eq.trans h.2
  have hC := idx_lt s.capacity
  have hl := hw.listed
  obtain ⟨hcells, -⟩ := he.launch h
  cases he with
  | configure | clear => exact .of_no_access (.of_listed hwork .zero) rfl
  | keep => exact .of_no_access hw rfl
  | push hs byte =>
    have hc := h.1.cursorInv hs
    obtain ⟨hpc, hroom⟩ := State.pushCursors_room hc
    have hcell := List.forall_mem_singleton.1 hcells
    have hwritten (a : Nat) := State.isSome_read?_writeCells [(s.pushCursors.tail.toNat, byte)] s a
    refine ⟨.of_listed hwork (.pushed ((hl.pushCursors hc).mono fun a ha => ?_) hC hpc hroom
      fun k hk => ?_), _, rfl, List.forall_mem_singleton.2 (allowedAccess_write hcell byte)⟩
    · exact (hwritten a).2 (.inr ha)
    · obtain rfl := Nat.lt_one_iff.1 hk
      exact (hwritten _).2 (.inl (by simp [Nat.mod_eq_of_lt hcell]))
  | pop hs hne =>
    have hc := h.1.cursorInv hs
    have hcell := List.forall_mem_singleton.1 hcells
    have hin : s.InWindow s.head.toNat := by
      simpa [Nat.mod_eq_of_lt hcell] using State.inWindow_head (s.isEmpty_eq_false_iff.1 hne)
    exact ⟨.of_listed hwork (hl.popped hC hc (s.isEmpty_eq_false_iff.1 hne)), _, rfl,
      List.forall_mem_singleton.2 (allowedAccess_read hl hcell hin)⟩
  | peek hs hne =>
    have hcell := List.forall_mem_singleton.1 hcells
    have hin : s.InWindow s.peekCursor.toNat := by
      simpa [Nat.mod_eq_of_lt hcell] using
        State.inWindow_peekCursor (h.1.cursorInv hs) (s.isPeekEmpty_eq_false_iff.1 hne)
    exact ⟨.of_listed hwork hl, _, rfl,
      List.forall_mem_singleton.2 (allowedAccess_read hl hcell hin)⟩
  | resync | restore => exact .of_no_access (.of_listed hwork hl) rfl
  | commit hs =>
    exact .of_no_access (.of_listed hwork (hl.committed (h.1.cursorInv hs))) rfl

/-! ## Bulk commands -/

/-- A push makes no more beats than the producer offers bytes (20_memory.md rule R66). -/
theorem Work.beatsNow_le_din {w : Work} (hd : w.direction = .toStorage) (s : State) :
    w.beatsNow s ≤ s.din.length := by
  simp only [Work.beatsNow, hd]
  exact Nat.min_le_right _ _

/-- The accesses of a delivery's beats: reads of some of its cells. -/
theorem Work.moveBytes_fromStorage_trace {w : Work} {m : Nat} {s : State}
    (hd : w.direction = .fromStorage) :
    (w.moveBytes m s).trace = s.trace ++
      ((w.cells.drop w.accesses).take ((w.afterBeats m).accesses - w.accesses)).map
        (fun i => ⟨false, toIdx i, s.memRead i⟩) := by
  simp only [Work.moveBytes, hd, State.readCells_trace]

/-- A plan is a push into the cells from `tail`, after an eviction that makes room, or a delivery of cells
of the window, whose cursors describe no cell outside it. -/
theorem planOf_push_or_delivery {s : State} (h : CursorInv s.capacity.toNat s.cursors) {i : Instr}
    {w : Work} (hp : planOf i s = some w) :
    (w.direction = .toStorage ∧ w.Visits s.capacity.toNat s.tail.toNat ∧
      ∃ e, e ≤ s.length.toNat ∧ s.length.toNat - e + w.n ≤ s.capacity.toNat ∧
        w.cursors = (s.cursors.evict s.capacity.toNat e).pushed s.capacity.toNat w.n) ∨
    (w.direction = .fromStorage ∧ (∀ a ∈ w.cells, s.InWindow a) ∧
      ∀ m, WindowListed s.capacity.toNat s.cursors m → WindowListed s.capacity.toNat w.cursors m) := by
  obtain ⟨-, -, -, -, hl, -⟩ := s.cursorInv_linear h
  cases i with
  | pushBytes bufPresent len =>
    cases bufPresent <;> cases hp
    obtain ⟨he, -, hroom⟩ :=
      State.arbitrate_bounds (req := clampRequest len s.capacity) hl (Nat.min_le_right _ _)
    exact .inl ⟨rfl, planPushBytes_visits h len, _, he, hroom, rfl⟩
  | popBytes bufPresent len =>
    cases bufPresent <;> cases hp
    have hn : (planPopBytes len s).n ≤ s.length.toNat := Nat.min_le_right _ _
    refine .inr ⟨rfl, fun a ha => ?_, fun m hm => hm.popped (idx_lt _) h hn⟩
    rw [(planPopBytes_visits h len).cells_eq] at ha
    obtain ⟨k, hk, rfl⟩ := List.mem_map.1 ha
    exact State.inWindow_head ((List.mem_range.1 hk).trans_le hn)
  | peekBytes bufPresent len =>
    cases bufPresent <;> cases hp
    have hn : (planPeekBytes len s).n ≤ s.peekLength.toNat := Nat.min_le_right _ _
    refine .inr ⟨rfl, fun a ha => ?_, fun m hm => hm⟩
    rw [(planPeekBytes_visits h len).cells_eq] at ha
    obtain ⟨k, hk, rfl⟩ := List.mem_map.1 ha
    exact State.inWindow_peekCursor h ((List.mem_range.1 hk).trans_le hn)
  | _ => cases hp

/-- What a move of bytes leaves is written if the window of the command's end is, once it has ended, and
otherwise the window before it and the cells that a push has sent its bytes to. -/
theorem Work.windowWritten_after {w : Work} {m : Nat} {s : State}
    (hends : w.beat + m = w.n →
      WindowListed s.capacity.toNat w.cursors (w.moveBytes m s).storage)
    (hwaits : WindowListed s.capacity.toNat s.cursors (w.moveBytes m s).storage)
    (hsent : w.direction = .toStorage → ∀ a ∈ w.cells.take (w.beat + m),
      ((w.moveBytes m s).storage.read? a).isSome = true) : WindowWritten (w.after m s) := by
  unfold Work.after
  split_ifs with hdone
  · refine .of_listed rfl ?_
    simpa using hends hdone
  · refine ⟨?_, fun w' hw' hd => ?_⟩
    · simpa [WindowListed, State.windowCell, State.cursors] using hwaits
    · obtain rfl : w.afterBeats m = w' := Option.some.inj hw'
      simpa using hsent (by simpa using hd)

/-- The copy engine reads in the window and writes what the new window needs, whether the command
completes or waits. -/
theorem advance_keepsWritten {s t : State} {w : Work}
    (h : CursorInv s.capacity.toNat s.cursors) (hbeat : w.beat ≤ w.n)
    (hp : planOf w.cmd s = some { w with beat := 0, accesses := 0 })
    (hl : WindowListed s.capacity.toNat s.cursors s.storage)
    (hsent : w.direction = .toStorage → ∀ a ∈ w.cells.take w.beat,
      (s.storage.read? a).isSome = true)
    (ht : advance w s = .next t) : KeepsWritten s t := by
  have hC := idx_lt s.capacity
  have hcells : ∀ a ∈ w.cells, a < s.capacity.toNat := (planOf_wellFormed h hp).1
  rw [advance_eq hcells] at ht
  cases ht
  have hm := w.beatsNow_le s
  rcases planOf_push_or_delivery h hp with ⟨hd, ⟨hb, hn, hc⟩, e, he, hroom, hcursors⟩ |
    ⟨hd, hin, hlater⟩
  · have hd : w.direction = .toStorage := hd
    have hv : w.Visits s.capacity.toNat s.tail.toNat := ⟨hb, hn, hc⟩
    have hle : w.beat + w.beatsNow s ≤ w.n := by omega
    have hdin := Work.beatsNow_le_din hd s
    have hwritten (a : Nat) : ((w.moveBytes (w.beatsNow s) s).storage.read? a).isSome = true ↔
        a ∈ (w.cells.drop w.beat).take (w.beatsNow s) ∨ (s.storage.read? a).isSome = true := by
      rw [Work.moveBytes_toStorage hd, ← Work.writesNow_cells hv hle hdin]
      exact State.isSome_read?_writeCells _ _ _
    have hgrows := hl.mono fun a ha => (hwritten a).2 (.inr ha)
    have hsent' : ∀ a ∈ w.cells.take (w.beat + w.beatsNow s),
        ((w.moveBytes (w.beatsNow s) s).storage.read? a).isSome = true := by
      intro a ha
      rw [List.take_add, List.mem_append] at ha
      exact (hwritten a).2 (ha.symm.imp_right (hsent hd a))
    refine ⟨Work.windowWritten_after (fun hdone => ?_) hgrows fun _ => hsent', ?_⟩
    · have hcursors : w.cursors = _ := hcursors
      rw [hcursors]
      refine (hgrows.evict hC h he).pushed hC (h.evict hC he) ?_ fun k hk => hsent' _ ?_
      · rwa [Cursors.evict_length hC h he]
      · rw [hdone, ← hv.length_cells, List.take_length, hv.cells_eq, Cursors.evict_tail]
        exact List.mem_map.2 ⟨k, List.mem_range.2 hk, rfl⟩
    · rw [Work.after_trace, Work.moveBytes_toStorage_eq hv hle hdin hd]
      refine ⟨_, rfl, fun a ha => ?_⟩
      obtain ⟨k, -, rfl⟩ := List.mem_map.1 ha
      exact allowedAccess_write (Nat.mod_lt _ h.1) _
  · have hd : w.direction = .fromStorage := hd
    have hstorage := Work.moveBytes_fromStorage_storage hd (m := w.beatsNow s) (s := s)
    refine ⟨Work.windowWritten_after (fun _ => ?_) ?_ fun hd' => ?_, ?_⟩
    · rw [hstorage]
      exact hlater _ hl
    · rwa [hstorage]
    · cases hd.symm.trans hd'
    · rw [Work.after_trace, Work.moveBytes_fromStorage_trace hd]
      refine ⟨_, rfl, fun a ha => ?_⟩
      obtain ⟨i, hi, rfl⟩ := List.mem_map.1 ha
      have hi : i ∈ w.cells := List.mem_of_mem_drop (List.mem_of_mem_take hi)
      exact allowedAccess_read hl (hcells i hi) (hin i hi)

/-! ## Steps -/

theorem exec_keepsWritten {i : Instr} {s t : State} (h : Launch s) (hw : WindowWritten s)
    (ht : exec i s = .next t) : KeepsWritten s t := by
  have ho := CommandOutcome.of_exec i s
  rw [ht] at ho
  generalize hn : Host.Outcome.next t = o at ho
  cases ho with
  | rejected status => cases hn; exact .of_no_access hw rfl
  | immediate value he =>
    cases (requireCells_next hn.symm).2
    exact he.keepsWritten h hw
  | bulk hs hplan hcmd hfresh =>
    subst hcmd
    have hbeat : 0 = _ := congrArg Work.beat hfresh
    refine advance_keepsWritten (h.1.cursorInv hs) (hbeat ▸ Nat.zero_le _)
      (hplan.trans (congrArg some hfresh.symm)) hw.listed (fun _ a ha => ?_) hn.symm
    rw [← hbeat] at ha
    cases ha

/-- Settles O56: of the cases of a step only the commands make accesses. -/
theorem readsStayInTheWrittenWindow : Obligations.ReadsStayInTheWrittenWindow := by
  unfold Obligations.ReadsStayInTheWrittenWindow
  refine ⟨.of_listed rfl .zero, fun s t h hw ht => ?_⟩
  suffices hk : KeepsWritten s t from hk
  rcases step_cases s with ⟨-, e⟩ | ⟨-, w, hwork, e⟩ | ⟨-, -, -, e⟩ | ⟨-, -, e⟩ |
    ⟨-, word, rest, -, -, e⟩ | ⟨⟨-, hwork, -⟩, word, rest, i, -, -, e⟩
  · cases e.symm.trans ht
    exact .of_no_access (.of_listed rfl .zero) rfl
  · obtain ⟨hs, -, hlt, -, hplan⟩ := workInv_iff.1 (h.workInv hwork)
    exact advance_keepsWritten (h.cursorInv hs) hlt.le hplan hw.listed (hw.2 w hwork)
      (e.symm.trans ht)
  · cases e.symm.trans ht
    exact .of_no_access hw rfl
  · cases e.symm.trans ht
    exact .of_no_access hw rfl
  · cases e.symm.trans ht
    exact .of_no_access hw rfl
  · exact exec_keepsWritten (s := s.accepted rest) (State.accepted_launch ⟨h, hwork⟩ rest) hw
      (e.symm.trans ht)

end Sys2Proof.Machine

/-!
PROOFS. The encoding (30_encoding.md): a well-formed word is the packed word of its own fields, so the
encoder inverts the decoder; which words are malformed, and which row a word matches; and the fields of a
response word.
-/

namespace Sys2Proof

/-! ## The fixed bits of a word (rule R81) -/

/-- `k << 28`, as rule R81 writes it. -/
theorem matchBits_eq_shiftLeft (op : BitVec 4) : matchBits op = op.setWidth 32 <<< 28 := by
  rw [BitVec.shiftLeft_eq_concat_of_lt (by decide), BitVec.extractLsb'_setWidth_of_le (by decide),
    BitVec.extractLsb'_eq_self]
  rfl

theorem wellFormedWord_iff (w : CmdWord) :
    wellFormedWord w = true ↔
      w &&& (rowOf (opField w)).format.mask = (opField w).setWidth 32 <<< 28 := by
  rw [wellFormedWord, beq_iff_eq, matchBits_eq_shiftLeft]

section
variable {w : CmdWord} {f : Format} {op : BitVec 4} {start len : Nat}

/-- Where a format fixes every bit of a field, a word that matches a row has the row's bits. -/
theorem extractLsb'_of_match (h : w &&& f.mask = matchBits op)
    (hmask : f.mask.extractLsb' start len = BitVec.allOnes len) :
    w.extractLsb' start len = (matchBits op).extractLsb' start len := by
  rw [← h, BitVec.extractLsb'_and, hmask, BitVec.and_allOnes]

/-- Below the opcode they are 0. -/
theorem extractLsb'_eq_zero_of_match (h : w &&& f.mask = matchBits op)
    (hmask : f.mask.extractLsb' start len = BitVec.allOnes len) (hle : start + len ≤ 28) :
    w.extractLsb' start len = 0#len := by
  rw [extractLsb'_of_match h hmask, matchBits, BitVec.extractLsb'_append_eq_of_add_le hle]
  exact BitVec.extractLsb'_zero

/-- Every format fixes the whole opcode, so a word matches no row but that of its opcode. -/
theorem opField_eq_of_match (h : w &&& f.mask = matchBits op) : opField w = op := by
  have hmask : f.mask.extractLsb' 28 4 = BitVec.allOnes 4 := by cases f <;> decide
  exact (extractLsb'_of_match h hmask).trans BitVec.extractLsb'_append_eq_left

end

/-- Settles O3: both rows are the one of the word's opcode. -/
theorem noWordMatchesTwoRows : Obligations.NoWordMatchesTwoRows := by
  unfold Obligations.NoWordMatchesTwoRows
  intro w j k hj hk
  rw [← matchBits_eq_shiftLeft] at hj hk
  exact (opField_eq_of_match hj).symm.trans (opField_eq_of_match hk)

/-! ## The decoder on every word (rule R84) -/

theorem decode_of_wellFormed {w : CmdWord} (h : wellFormedWord w = true) :
    decode w = .ok ((rowOf (opField w)).build w) := if_pos h

theorem decode_of_malformed {w : CmdWord} (h : ¬wellFormedWord w = true) :
    decode w = .error (.malformed (opField w)) := if_neg h

/-- Settles O2: the decoder tests exactly the fixed bits, and keeps the opcode when the test fails. -/
theorem malformedWordsHaveABadFixedBit : Obligations.MalformedWordsHaveABadFixedBit := by
  unfold Obligations.MalformedWordsHaveABadFixedBit
  intro w
  refine Iff.trans ⟨fun hd hwf => ?_, decode_of_malformed⟩ (wellFormedWord_iff w).not
  rw [decode_of_wellFormed hwf] at hd
  cases hd

/-- Settles O4, by evaluation. -/
theorem writtenOutWordsDecode : Obligations.WrittenOutWordsDecode := by
  unfold Obligations.WrittenOutWordsDecode
  exact ⟨rfl, rfl, rfl, rfl, rfl, rfl, rfl, rfl, rfl⟩

/-! ## The encoder on decoded words (rule R89) -/

/-- A flag as a field of width 1. -/
theorem ofBool_getLsbD_eq_extractLsb' (w : CmdWord) (i : Nat) :
    BitVec.ofBool (w.getLsbD i) = w.extractLsb' i 1 := by
  refine BitVec.eq_of_getLsbD_eq fun j hj => ?_
  obtain rfl : j = 0 := by omega
  simp

/-- A word whose bits outside the fields are 0 is its fields, packed (rule R80). -/
theorem packWord_fields {w : CmdWord} (h26 : w.extractLsb' 26 2 = 0#2)
    (h16 : w.extractLsb' 16 8 = 0#8) :
    packWord (opField w) (ovwField w) (bufField w) (argField w) = w := by
  have join {a m b n : Nat} (h : b = a + n) := BitVec.extractLsb'_append_extractLsb'_eq_extractLsb'
    (x := w) (start₁ := a) (len₁ := n) (start₂ := b) (len₂ := m) h
  rw [packWord, ovwField, bufField, ofBool_getLsbD_eq_extractLsb', ofBool_getLsbD_eq_extractLsb', ← h26,
    ← h16]
  calc w.extractLsb' 28 4 ++ w.extractLsb' 26 2 ++ w.extractLsb' 25 1 ++ w.extractLsb' 24 1 ++
        w.extractLsb' 16 8 ++ w.extractLsb' 0 16
      = w.extractLsb' 0 (4 + 2 + 1 + 1 + 8 + 16) := by
        rw [join (rfl : 28 = 26 + 2), join (rfl : 26 = 25 + 1), join (rfl : 25 = 24 + 1),
          join (rfl : 24 = 16 + 8), join (rfl : 16 = 0 + 16)]
    _ = w := BitVec.extractLsb'_eq_self

/-! The operand fields when the bits that a format fixes in them are 0. -/

theorem ovwField_eq_false {w : CmdWord} (h : w.extractLsb' 25 1 = 0#1) : ovwField w = false := by
  rw [ovwField, BitVec.getLsbD_eq_extractLsb', h]
  rfl

theorem bufField_eq_false {w : CmdWord} (h : w.extractLsb' 24 1 = 0#1) : bufField w = false := by
  rw [bufField, BitVec.getLsbD_eq_extractLsb', h]
  rfl

theorem argField_eq_setWidth_byteField {w : CmdWord} (h : w.extractLsb' 8 8 = 0#8) :
    argField w = (byteField w).setWidth 16 := by
  calc argField w
      = w.extractLsb' 8 8 ++ w.extractLsb' 0 8 :=
        (BitVec.extractLsb'_append_extractLsb'_eq_extractLsb' (start₁ := 0) (len₁ := 8) rfl).symm
    _ = (byteField w).setWidth 16 := by
      rw [h, BitVec.setWidth_eq_append (by decide)]
      rfl

/-- The word that a row of the format packs from the operands it reads in `w` (rule R82); the operand
fields that the format fixes are 0. -/
def Format.pack (f : Format) (op : BitVec 4) (w : CmdWord) : CmdWord :=
  match f with
  | .n => packWord op false false 0#16
  | .b => packWord op false false ((byteField w).setWidth 16)
  | .l => packWord op false false (argField w)
  | .m => packWord op false (bufField w) (argField w)
  | .c => packWord op (ovwField w) (bufField w) (argField w)

/-- Each row reads the operands of its format and no others (rule R83). -/
theorem encode_build (op : BitVec 4) (w : CmdWord) :
    encode ((rowOf op).build w) = (rowOf op).format.pack op w := by
  obtain ⟨k, hk⟩ := op
  interval_cases k <;> rfl

/-- A word that matches a row is what the row packs from it. -/
theorem Format.pack_of_match {f : Format} {w : CmdWord} (h : w &&& f.mask = matchBits (opField w)) :
    f.pack (opField w) w = w := by
  have hfields := packWord_fields (extractLsb'_eq_zero_of_match h (by cases f <;> decide) (by decide))
    (extractLsb'_eq_zero_of_match h (by cases f <;> decide) (by decide))
  have hzero {start len : Nat} := extractLsb'_eq_zero_of_match (start := start) (len := len) h
  cases f with
  | n =>
    rwa [ovwField_eq_false (hzero rfl (by decide)), bufField_eq_false (hzero rfl (by decide)),
      show argField w = 0#16 from hzero rfl (by decide)] at hfields
  | b =>
    rwa [ovwField_eq_false (hzero rfl (by decide)), bufField_eq_false (hzero rfl (by decide)),
      argField_eq_setWidth_byteField (hzero rfl (by decide))] at hfields
  | l =>
    rwa [ovwField_eq_false (hzero rfl (by decide)), bufField_eq_false (hzero rfl (by decide))] at hfields
  | m => rwa [ovwField_eq_false (hzero rfl (by decide))] at hfields
  | c => exact hfields

/-- The encoder undoes the decoder. -/
theorem encode_of_decode {w : CmdWord} {i : Instr} (h : decode w = .ok i) : encode i = w := by
  by_cases hwf : wellFormedWord w = true
  · cases (decode_of_wellFormed hwf).symm.trans h
    exact (encode_build _ w).trans (Format.pack_of_match (beq_iff_eq.1 hwf))
  · cases (decode_of_malformed hwf).symm.trans h

/-- Settles O1: the word of a well-formed word's command is the word itself, packed from its fields. -/
theorem encodeAndDecodeAreInverse : Obligations.EncodeAndDecodeAreInverse := by
  unfold Obligations.EncodeAndDecodeAreInverse
  refine ⟨decode_encode, fun w h => ?_⟩
  have hd := decode_of_wellFormed ((wellFormedWord_iff w).2 h)
  exact ⟨_, hd, encode_of_decode hd⟩

theorem opField_encode (i : Instr) : opField (encode i) = i.opcode := by
  cases i <;> exact opField_packWord _ _ _ _

/-- The command of a word has the word's opcode. -/
theorem opcode_of_decode {w : CmdWord} {i : Instr} (h : decode w = .ok i) : i.opcode = opField w := by
  rw [← opField_encode, encode_of_decode h]

namespace Machine

/-! ## The response word (rule R86) -/

section
variable (op : BitVec 4) (st : Status) (v : Idx)

theorem responseWord_op : (responseWord op st v).extractLsb' 28 4 = op := by
  unfold responseWord
  rw [BitVec.extractLsb'_append_eq_of_le (by decide), BitVec.extractLsb'_append_eq_of_le (by decide)]
  exact BitVec.extractLsb'_append_eq_left

theorem responseWord_status : (responseWord op st v).extractLsb' 26 2 = st.code := by
  unfold responseWord
  rw [BitVec.extractLsb'_append_eq_of_le (by decide), BitVec.extractLsb'_append_eq_of_le (by decide)]
  exact BitVec.extractLsb'_append_eq_right

theorem responseWord_zero : (responseWord op st v).extractLsb' 16 10 = 0#10 := by
  unfold responseWord
  rw [BitVec.extractLsb'_append_eq_of_le (by decide)]
  exact BitVec.extractLsb'_append_eq_right

theorem responseWord_value : (responseWord op st v).extractLsb' 0 16 = v :=
  BitVec.extractLsb'_append_eq_right

end

/-- Settles O5, field by field. -/
theorem responseWordHasItsFields : Obligations.ResponseWordHasItsFields := by
  unfold Obligations.ResponseWordHasItsFields
  exact ⟨fun op st v => ⟨responseWord_op op st v, responseWord_status op st v,
    responseWord_zero op st v, responseWord_value op st v⟩, rfl, rfl, rfl, rfl⟩

/-! ## One response for every word -/

/-- `Responds op s t`: in `t` a command with this opcode has completed with its response, and since `s`
no word has been accepted and no response taken. -/
structure Responds (op : BitVec 4) (s t : State) : Prop where
  work_eq : t.work = none
  cmds_eq : t.cmds = s.cmds
  rspLog_eq : t.rspLog = s.rspLog
  rsp_eq : ∃ st v, t.rsp = some (responseWord op st v)

/-- The end of every command but the bulk ones. -/
theorem Responds.respond {s s' : State} (hw : s'.work = none) (hc : s'.cmds = s.cmds)
    (hl : s'.rspLog = s.rspLog) (op : BitVec 4) (st : Status) (v : Idx) :
    Responds op s (s'.respond op st v) := ⟨hw, hc, hl, st, v, rfl⟩

/-- No immediate effect touches the command port or takes a response. -/
theorem ImmediateEffect.ports_eq {s s' : State} {cells : List Nat} (h : ImmediateEffect s cells s') :
    s'.cmds = s.cmds ∧ s'.rspLog = s.rspLog := by
  cases h <;> exact ⟨rfl, rfl⟩

/-- The stream duties depend on the registers and the streams alone. -/
theorem State.streamsServe_accepted (s : State) (rest : List CmdWord) (i : Instr) :
    (s.accepted rest).streamsServe i = s.streamsServe i := by
  unfold State.streamsServe
  rw [planOf_congr (s := s) rfl rfl rfl]
  rfl

/-- Streams that serve a command carry it to its last beat at once (rules R66 and R67 of 20_memory.md). -/
theorem Work.beatsNow_of_streamsServe {s : State} {i : Instr} {w : Work} (hp : planOf i s = some w)
    (hbeat : w.beat = 0) (h : s.streamsServe i = true) : w.beatsNow s = w.n := by
  unfold State.streamsServe at h
  rw [hp] at h
  cases hd : w.direction with
  | toStorage => simpa [Work.beatsNow, hd, hbeat] using h
  | fromStorage =>
    cases hl : s.doutLimit with
    | none => simp [Work.beatsNow, hd, hl, hbeat]
    | some k => simpa [Work.beatsNow, State.consumerTakes, hd, hl, hbeat] using h

/-- From a launch state a command that the streams serve completes: it is rejected, takes effect at once,
or does all its beats. -/
theorem exec_responds {s : State} (h : Launch s) {i : Instr} (hserve : s.streamsServe i = true) :
    ∃ t, exec i s = .next t ∧ Responds i.opcode s t := by
  have ho := CommandOutcome.of_exec i s
  generalize exec i s = o at ho ⊢
  cases ho with
  | rejected status => exact ⟨_, rfl, .respond h.2 rfl rfl _ _ _⟩
  | immediate value he =>
    obtain ⟨hcells, -, hw⟩ := he.launch h
    obtain ⟨hc, hl⟩ := he.ports_eq
    rw [requireCells_of_lt hcells]
    exact ⟨_, rfl, .respond hw hc hl _ _ _⟩
  | @bulk w hs hplan hcmd hfresh =>
    have hbeat : 0 = w.beat := congrArg Work.beat hfresh
    have hdone : w.beat + w.beatsNow s = w.n := by
      rw [Work.beatsNow_of_streamsServe hplan hbeat.symm hserve, ← hbeat, Nat.zero_add]
    rw [advance_eq (planOf_wellFormed (h.1.cursorInv hs) hplan).1, Work.after, if_pos hdone]
    exact ⟨_, rfl, rfl, w.moveBytes_cmds _ s, w.moveBytes_rspLog _ s, .ok, toIdx w.n, by
      rw [Work.commit_rsp, hcmd]⟩

/-- So the step that accepts a word ends with its response, whether or not the word is a command. -/
theorem step_responds {s : State} {word : CmdWord} {rest : List CmdWord} (h : Inv s)
    (ht : TakesCommand s) (hcmds : s.cmds = word :: rest)
    (hserve : ∀ i, decode word = .ok i → s.streamsServe i = true) :
    ∃ t, step s = .next t ∧ Responds (opField word) (s.accepted rest) t := by
  have haccepted : Launch (s.accepted rest) := State.accepted_launch ⟨h, ht.2.1⟩ rest
  rcases step_cases s with ⟨hr, -⟩ | ⟨-, w, hw, -⟩ | ⟨-, -, hh, -⟩ | ⟨-, hc, -⟩ |
    ⟨-, word', rest', hc, hd, e⟩ | ⟨-, word', rest', i, hc, hd, e⟩
  · cases ht.1.symm.trans hr
  · cases ht.2.1.symm.trans hw
  · cases ht.2.2.symm.trans hh
  · cases hcmds.symm.trans hc
  · cases hcmds.symm.trans hc
    exact ⟨_, e, .respond haccepted.2 rfl rfl _ _ _⟩
  · cases hcmds.symm.trans hc
    rw [e, ← opcode_of_decode hd]
    exact exec_responds haccepted ((s.streamsServe_accepted rest i).trans (hserve i hd))

/-- Settles O8: a malformed word is rejected and a command completes, each with one response. -/
theorem everyWordGetsOneResponse : Obligations.EveryWordGetsOneResponse := by
  unfold Obligations.EveryWordGetsOneResponse
  intro s word rest h ht hcmds hserve
  obtain ⟨t, e, hw, hc, hl, st, v, hrsp⟩ := step_responds h ht hcmds hserve
  exact ⟨t, st, v, e, hw, hc, hrsp, hl, responseWord_op _ st v, responseWord_status _ st v,
    responseWord_zero _ st v, responseWord_value _ st v⟩

end Machine

end Sys2Proof

/-!
PROOFS. The common datapath (40_common_datapath.md): the full test in its three forms, the segments of a
copy, the arms of the arbiter, an eviction, and the circular distance.
-/

namespace Sys2Proof.Machine

/-! ## The tests (rule R112) -/

/-- Settles O22: `isFull_iff` gives the form in `length`, and the room and the length make up the
capacity. -/
theorem fullAndEmptyTestsAgree : Obligations.FullAndEmptyTestsAgree := by
  unfold Obligations.FullAndEmptyTestsAgree
  intro s hinv hs
  have h := hinv.cursorInv hs
  obtain ⟨-, -, -, -, hl, -⟩ := s.cursorInv_linear h
  have hsum : s.free + s.length.toNat = s.capacity.toNat := Nat.sub_add_cancel hl
  have hfull : s.isFull = true ↔ s.length = s.capacity :=
    (State.isFull_iff h).trans BitVec.toNat_inj
  refine ⟨s.isEmpty_iff, ?_, s.isPeekEmpty_iff, hsum, hfull, ?_, fun hone => hone ▸ hfull⟩
  · simp [State.isFull, idx_eq_zero_iff]
  · rw [State.isFull_iff h]
    omega

/-! ## The segments of a copy (rules R113 and R114) -/

section
variable {C base n : Nat}

theorem segments_zero (C base : Nat) : segments C base 0 = [] := rfl

theorem segments_contiguous (h0 : 0 < n) (h : base + n ≤ C) : segments C base n = [⟨base, n⟩] := by
  rw [segments, if_neg h0.ne', if_pos h]

theorem segments_split (hb : base < C) (h : C < base + n) :
    segments C base n = [⟨base, C - base⟩, ⟨0, n - (C - base)⟩] := by
  rw [segments, if_neg (by omega), if_neg (not_le.2 h)]

/-- No copy, a contiguous copy, or a split copy. -/
theorem segments_cases (hb : base < C) (n : Nat) :
    (n = 0 ∧ segments C base n = []) ∨
    (0 < n ∧ base + n ≤ C ∧ segments C base n = [⟨base, n⟩]) ∨
    (C < base + n ∧ segments C base n = [⟨base, C - base⟩, ⟨0, n - (C - base)⟩]) := by
  rcases Nat.eq_zero_or_pos n with rfl | h0
  · exact .inl ⟨rfl, segments_zero C base⟩
  · rcases Nat.lt_or_ge C (base + n) with h | h
    · exact .inr (.inr ⟨h, segments_split hb h⟩)
    · exact .inr (.inl ⟨h0, h, segments_contiguous h0 h⟩)

/-- What makes a pair a segment (rule R113): it has a cell, and it ends inside the storage. -/
theorem segments_inside (hb : base < C) (hn : n ≤ C) :
    ∀ g ∈ segments C base n, 1 ≤ g.count ∧ g.start + g.count ≤ C := by
  rcases segments_cases hb n with ⟨-, e⟩ | ⟨h0, h, e⟩ | ⟨h, e⟩ <;> rw [e]
  · exact List.forall_mem_nil _
  · exact List.forall_mem_singleton.2 ⟨h0, h⟩
  · refine List.forall_mem_cons.2 ⟨?_, List.forall_mem_singleton.2 ?_⟩ <;> dsimp only <;> omega

theorem sum_count_segments (hb : base < C) (n : Nat) :
    ((segments C base n).map Segment.count).sum = n := by
  rcases segments_cases hb n with ⟨rfl, e⟩ | ⟨-, -, e⟩ | ⟨h, e⟩ <;>
    simp only [e, List.map_cons, List.map_nil, List.sum_cons, List.sum_nil] <;> omega

/-- The cells are those of a bulk command with this base and count, whichever it is. -/
theorem nodup_segmentCells_segments (hb : base < C) (hn : n ≤ C) :
    (segmentCells (segments C base n)).Nodup :=
  Work.start_cells_nodup (cmd := .pushBytes true (toIdx n)) (direction := .toStorage) (e := 0)
    (c := Cursors.zero) hb hn

end

/-- Settles O24. -/
theorem segmentsCoverTheCopy : Obligations.SegmentsCoverTheCopy := by
  unfold Obligations.SegmentsCoverTheCopy
  intro C base n hb hn
  refine ⟨?_, segments_contiguous, fun h => ⟨segments_split hb h, by omega⟩, segments_inside hb hn,
    sum_count_segments hb n, segmentCells_segments hb hn, nodup_segmentCells_segments hb hn⟩
  rintro rfl
  exact segments_zero C base

/-! ## The arbiter (rule R116) -/

section
variable {s : State} {req : Nat}

theorem State.arbitrate_of_room (h : req ≤ s.free) : s.arbitrate req = (req, 0) := if_pos h

theorem State.arbitrate_of_overwrite (h : s.free < req) (ho : s.overwriteEnabled = true) :
    s.arbitrate req = (req, req - s.free) := by
  rw [State.arbitrate, if_neg (not_le.2 h), if_pos ho]

theorem State.arbitrate_of_no_overwrite (h : s.free < req) (ho : s.overwriteEnabled = false) :
    s.arbitrate req = (s.free, 0) := by
  rw [State.arbitrate, if_neg (not_le.2 h), if_neg (by simp [ho])]

theorem State.arbitrate_fst_le (s : State) (req : Nat) : (s.arbitrate req).1 ≤ req := by
  rcases s.arbitrate_cases req with ⟨-, e⟩ | ⟨-, -, e⟩ | ⟨h, -, e⟩ <;> rw [e]
  exact h.le

/-- Only the policy that overwrites evicts. -/
theorem State.overwriteEnabled_of_evicts (h : 0 < (s.arbitrate req).2) :
    s.overwriteEnabled = true := by
  rcases s.arbitrate_cases req with ⟨-, e⟩ | ⟨-, ho, -⟩ | ⟨-, -, e⟩
  · simp [e] at h
  · exact ho
  · simp [e] at h

/-- With that policy the whole request is granted, at the cost of the shortfall. -/
theorem State.arbitrate_overwrite (ho : s.overwriteEnabled = true) (req : Nat) :
    s.arbitrate req = (req, req - s.free) := by
  rcases Nat.lt_or_ge s.free req with h | h
  · exact State.arbitrate_of_overwrite h ho
  · rw [State.arbitrate_of_room h, Nat.sub_eq_zero_of_le h]

end

/-- Settles O25: the arms, then the properties in the order of rule R116. -/
theorem arbiterCountsAreBounded : Obligations.ArbiterCountsAreBounded := by
  unfold Obligations.ArbiterCountsAreBounded
  intro s req hinv hs hreq free n e
  obtain ⟨-, -, -, -, hl, -⟩ := s.cursorInv_linear (hinv.cursorInv hs)
  obtain ⟨he, -, hfit⟩ : e ≤ s.length.toNat ∧ n ≤ s.capacity.toNat ∧
    s.length.toNat - e + n ≤ s.capacity.toNat := State.arbitrate_bounds hl hreq
  have hfills : 0 < e → n = s.capacity.toNat - s.length.toNat + e := (s.arbitrate_room req).2
  refine ⟨State.arbitrate_of_room, State.arbitrate_of_overwrite, State.arbitrate_of_no_overwrite,
    s.arbitrate_fst_le req, he, State.overwriteEnabled_of_evicts, hfit, fun hpos => ?_,
    fun ho => congrArg Prod.fst (State.arbitrate_overwrite ho req), ?_, fun hC ho => ?_⟩
  · have := hfills hpos
    omega
  · rintro rfl
    exact State.arbitrate_of_room (s := s) (Nat.zero_le _)
  · calc e = req - s.free := congrArg Prod.snd (State.arbitrate_overwrite ho req)
      _ = s.length.toNat := by rw [hC, State.free, Nat.sub_sub_self hl]

/-! ## Evictions (rules R117 and R118) -/

section
variable {C n : Nat} {c : Cursors}

theorem Cursors.evict_zero (C : Nat) (c : Cursors) : c.evict C 0 = c := rfl

/-- To evict is to pop without a reader. -/
theorem Cursors.evict_of_pos (h : 0 < n) : c.evict C n = c.popped C n := if_pos h

end

/-- Settles O26. -/
theorem evictionAdvancesHeadAndResyncs : Obligations.EvictionAdvancesHeadAndResyncs := by
  unfold Obligations.EvictionAdvancesHeadAndResyncs
  intro C e c hC h he
  have hC : C < 65536 := Nat.lt_succ_of_le hC
  refine ⟨?_, fun hpos => ⟨Cursors.evict_head hC h he, Cursors.evict_length hC h he, ?_, ?_⟩,
    Cursors.evict_tail, rfl, h.evict hC he, h.resyncPeek⟩
  · rintro rfl
    exact c.evict_zero C
  · rw [Cursors.evict_of_pos hpos, Cursors.popped, Cursors.resyncPeek_peekCursor,
      Cursors.resyncPeek_head]
  · rw [Cursors.evict_of_pos hpos, Cursors.popped, Cursors.resyncPeek_peekLength,
      Cursors.resyncPeek_length]

/-! ## The circular distance (rule R111) -/

section
variable {C a b k : Nat}

theorem dist_lt (ha : a < C) (hb : b < C) : dist C a b < C := by
  unfold dist
  split_ifs <;> omega

/-- The distance from `a` to `b` is how far `a` advances to reach `b`. -/
theorem add_dist_mod (ha : a < C) (hb : b < C) : (a + dist C a b) % C = b := by
  rw [advance_mod ha (dist_lt ha hb).le]
  unfold dist
  split_ifs <;> omega

/-- It is the only such advance below `C`. -/
theorem dist_eq_of_add_mod (ha : a < C) (hk : k < C) (h : (a + k) % C = b) : dist C a b = k := by
  have hb : b < C := h ▸ Nat.mod_lt _ (Nat.zero_lt_of_lt ha)
  exact mod_inj_of_lt ha (dist_lt ha hb) hk ((add_dist_mod ha hb).trans h.symm)

end

/-- Settles O27: the peek cursor is the head advanced by the peek offset (I6), and only an offset of `C`
is no distance. -/
theorem peekOffsetIsTheDistanceButForOneState :
    Obligations.PeekOffsetIsTheDistanceButForOneState := by
  unfold Obligations.PeekOffsetIsTheDistanceButForOneState
  refine ⟨fun C a b ha hb => ⟨dist_lt ha hb, add_dist_mod ha hb⟩, fun s hinv hs => ?_⟩
  have h := hinv.cursorInv hs
  obtain ⟨hC, hhead, -, -, hl, -⟩ := s.cursorInv_linear h
  obtain ⟨-, -, -, -, -, hpeek⟩ := h
  have hpeek : s.peekCursor.toNat =
    (s.head.toNat + (s.length.toNat - s.peekLength.toNat)) % s.capacity.toNat := hpeek
  refine ⟨fun hne => dist_eq_of_add_mod hhead ?_ hpeek.symm, fun hfull hp => ?_⟩
  · rw [← BitVec.toNat_inj, idx_eq_zero_iff] at hne
    omega
  · have hoffset : s.length.toNat - s.peekLength.toNat = s.capacity.toNat := by
      rw [hp, hfull]
      rfl
    refine ⟨dist_eq_of_add_mod hhead hC ?_, hoffset⟩
    calc (s.head.toNat + 0) % s.capacity.toNat
        = (s.head.toNat + s.capacity.toNat) % s.capacity.toNat := (Nat.add_mod_right _ _).symm
      _ = s.peekCursor.toNat := by rw [hpeek, hoffset]

end Sys2Proof.Machine

/-!
PROOFS. The lifecycle commands CONSTRUCT and RESET (41_lifecycle.md): their equations, and the status
outputs that zero cursors give.
-/

namespace Sys2Proof.Machine

/-! ## CONSTRUCT (rule R130) -/

/-- The check of the buffer, then that of the capacity; there is none of `constructed`. -/
theorem exec_construct (bufPresent ovw : Bool) (capacity : Idx) (s : State) :
    exec (.construct bufPresent ovw capacity) s =
      whenBuffer 0x0#4 bufPresent s
        (if capacity = 0#16 then reject 0x0#4 .invalidArgument s
         else respondOk 0x0#4 0#16
          { s.withCursors Cursors.zero with constructed := true, capacity, overwriteEnabled := ovw }) :=
  rfl

theorem exec_construct_of_fails {bufPresent ovw : Bool} {capacity : Idx} {s : State}
    (h : bufPresent = false ∨ capacity = 0#16) :
    exec (.construct bufPresent ovw capacity) s = reject 0x0#4 .invalidArgument s := by
  rw [exec_construct]
  cases bufPresent with
  | false => rfl
  | true => rw [whenBuffer_true, if_pos (h.resolve_left Bool.noConfusion)]

theorem exec_construct_of_succeeds {ovw : Bool} {capacity : Idx} {s : State} (hc : capacity ≠ 0#16) :
    exec (.construct true ovw capacity) s = respondOk 0x0#4 0#16
      { s.withCursors Cursors.zero with constructed := true, capacity, overwriteEnabled := ovw } := by
  rw [exec_construct, whenBuffer_true, if_neg hc]

/-! ## RESET (rule R131) -/

theorem exec_reset_of_unconstructed {s : State} (hs : s.constructed = false) :
    exec .reset s = reject 0x1#4 .invalidArgument s := whenConstructed_false hs

theorem exec_reset_of_constructed {s : State} (hs : s.constructed = true) :
    exec .reset s = respondOk 0x1#4 0#16 (s.withCursors Cursors.zero) := whenConstructed_true hs

/-! ## The status outputs with all cursors zero (10_state.md rule R28) -/

section
variable {s : State} (h : s.cursors = Cursors.zero)
include h

theorem State.stCount_of_cursors_zero : s.stCount = 0#16 := congrArg Cursors.length h

theorem State.stEmpty_of_cursors_zero : s.stEmpty = true :=
  beq_iff_eq.2 (congrArg Cursors.length h)

theorem State.stPeekEmpty_of_cursors_zero : s.stPeekEmpty = true :=
  beq_iff_eq.2 (congrArg Cursors.peekLength h)

/-- The whole buffer is free. -/
theorem State.stAvail_of_cursors_zero : s.stAvail = s.capacity := by
  have hl : s.length = 0#16 := congrArg Cursors.length h
  simp [State.stAvail, State.free, hl]

/-- A buffer with at least one cell is not full. -/
theorem State.stFull_of_cursors_zero (hc : s.capacity ≠ 0#16) : s.stFull = false := by
  have hl : s.length = 0#16 := congrArg Cursors.length h
  simp [State.stFull, hl, hc.symm]

end

/-! ## The rules -/

/-- Settles O32: the status outputs are those of zero cursors and the new capacity. -/
theorem constructRule : Obligations.ConstructRule := by
  unfold Obligations.ConstructRule
  refine fun bufPresent ovw capacity s => ⟨exec_construct_of_fails, fun hb hc => ?_⟩
  subst hb
  refine ⟨_, exec_construct_of_succeeds hc, rfl, fun _ => rfl, rfl, ?_⟩
  exact ⟨State.stEmpty_of_cursors_zero rfl, State.stFull_of_cursors_zero rfl hc,
    State.stPeekEmpty_of_cursors_zero rfl, State.stCount_of_cursors_zero rfl,
    State.stAvail_of_cursors_zero rfl⟩

/-- Settles O33: the status outputs are those of zero cursors and the capacity as it was. -/
theorem resetRule : Obligations.ResetRule := by
  unfold Obligations.ResetRule
  refine fun s => ⟨exec_reset_of_unconstructed, fun hs => ?_⟩
  refine ⟨_, exec_reset_of_constructed hs, rfl, fun _ => rfl, ?_⟩
  exact ⟨State.stEmpty_of_cursors_zero rfl, State.stPeekEmpty_of_cursors_zero rfl,
    State.stCount_of_cursors_zero rfl, State.stAvail_of_cursors_zero rfl,
    fun hc => State.stFull_of_cursors_zero rfl hc⟩

end Sys2Proof.Machine

/-!
PROOFS. The pushes (42_push.md): what a push of `n` bytes that evicts `e` leaves, said once for both
commands; their whole next states; the content and the status outputs after them.
-/

namespace Sys2Proof.Machine

/-! ## The registers of a push -/

/-- The room for a push as a number (10_state.md rule R28). -/
theorem State.stAvail_toNat (s : State) :
    s.stAvail.toNat = s.capacity.toNat - s.length.toNat :=
  toIdx_toNat ((Nat.sub_le _ _).trans_lt (idx_lt _))

/-- The cursors that a push of `n` bytes commits after an eviction of `e` (rules R140 and R141). -/
def State.pushedCursors (s : State) (n e : Nat) : Cursors :=
  (s.cursors.evict s.capacity.toNat e).pushed s.capacity.toNat n

/-- `PushedTo s n e data t`: from `s` to `t` the `e` oldest bytes have been evicted and the first `n` bytes
of `data` written from `tail` on (rules R140 and R141). -/
structure PushedTo (s : State) (n e : Nat) (data : List Byte) (t : State) : Prop where
  configuration_eq : t.configuration = s.configuration
  cursors_eq : t.cursors = s.pushedCursors n e
  written : ∀ k, k < n → data[k]? = some (t.memRead ((s.tail.toNat + k) % s.capacity.toNat))
  kept : ∀ a, (∀ k, k < n → a ≠ (s.tail.toNat + k) % s.capacity.toNat) → t.memRead a = s.memRead a

section
variable {s t : State} {n e req : Nat} {data : List Byte}
  (h : CursorInv s.capacity.toNat s.cursors)
include h

/-- The cursors of a push, with the wraparound as a remainder. -/
theorem State.pushedCursors_eq (he : e ≤ s.length.toNat) (hn : n ≤ s.capacity.toNat) :
    s.pushedCursors n e =
      ⟨toIdx ((s.head.toNat + e) % s.capacity.toNat), toIdx ((s.tail.toNat + n) % s.capacity.toNat),
        toIdx (s.length.toNat - e + n),
        if e = 0 then s.peekCursor else toIdx ((s.head.toNat + e) % s.capacity.toNat),
        if e = 0 then toIdx (s.peekLength.toNat + n) else toIdx (s.length.toNat - e + n)⟩ := by
  obtain ⟨-, hhead, htail, -⟩ := s.cursorInv_linear h
  rw [← wrap_eq_mod (v := s.tail.toNat + n) (by omega)]
  rcases Nat.eq_zero_or_pos e with rfl | hpos
  · simp [State.pushedCursors, Cursors.evict_zero, Cursors.pushed, State.cursors,
      Nat.mod_eq_of_lt hhead]
  · have hlen : (toIdx (s.length.toNat - e)).toNat = s.length.toNat - e :=
      toIdx_toNat ((Nat.sub_le _ _).trans_lt (idx_lt _))
    simp only [State.pushedCursors, Cursors.evict_of_pos hpos, State.cursors_popped_eq h he,
      Cursors.pushed, hlen, if_neg hpos.ne']

/-- A push of nothing leaves the cursors as they are. -/
theorem State.pushedCursors_zero : s.pushedCursors 0 0 = s.cursors := by
  obtain ⟨-, hhead, htail, -⟩ := s.cursorInv_linear h
  rw [State.pushedCursors_eq h (Nat.zero_le _) (Nat.zero_le _)]
  simp [State.cursors, Nat.mod_eq_of_lt hhead, Nat.mod_eq_of_lt htail]

variable (harb : s.arbitrate req = (n, e)) (hreq : req ≤ s.capacity.toNat)
include harb hreq

/-- What the arbiter grants fits (40_common_datapath.md rule R116). -/
theorem State.granted_bounds : e ≤ s.length.toNat ∧ n ≤ s.capacity.toNat ∧
    s.length.toNat - e + n ≤ s.capacity.toNat := by
  obtain ⟨-, -, -, -, hl, -⟩ := s.cursorInv_linear h
  simpa [harb] using State.arbitrate_bounds hl hreq

variable (ht : PushedTo s n e data t)
include ht

namespace PushedTo

/-- The registers after a push, as numbers. -/
theorem registers_toNat :
    t.head.toNat = (s.head.toNat + e) % s.capacity.toNat ∧
      t.length.toNat = s.length.toNat - e + n ∧
      t.peekLength.toNat = if e = 0 then s.peekLength.toNat + n else s.length.toNat - e + n := by
  have hC := idx_lt s.capacity
  obtain ⟨hpos, -, -, -, -, hpl, -⟩ := s.cursorInv_linear h
  obtain ⟨he, hn, hfit⟩ := State.granted_bounds h harb hreq
  have hc := ht.cursors_eq.trans (State.pushedCursors_eq h he hn)
  have hhead : t.head = _ := congrArg Cursors.head hc
  have hlen : t.length = _ := congrArg Cursors.length hc
  have hpeek : t.peekLength = _ := congrArg Cursors.peekLength hc
  have hmod := Nat.mod_lt (s.head.toNat + e) hpos
  refine ⟨?_, ?_, ?_⟩
  · rw [hhead, toIdx_toNat (hmod.trans hC)]
  · rw [hlen, toIdx_toNat (by omega)]
  · rw [hpeek]
    split_ifs with h0
    · rw [toIdx_toNat (by omega)]
    · rw [toIdx_toNat (by omega)]

/-! ## The status outputs after a push (10_state.md rule R28) -/

theorem stCount_toNat : t.stCount.toNat = s.length.toNat - e + n :=
  (ht.registers_toNat h harb hreq).2.1

theorem stFull_iff (hs : s.constructed = true) :
    t.stFull = true ↔ s.length.toNat - e + n = s.capacity.toNat := by
  obtain ⟨hconstructed, hcap, -⟩ := State.configuration_eq_iff.1 ht.configuration_eq
  rw [← ht.stCount_toNat h harb hreq, ← hcap, State.stCount, BitVec.toNat_inj]
  simp [State.stFull, hconstructed, hs]

/-- After a push of at least one byte neither the queue nor the peek window is empty. -/
theorem not_empty (hn : 0 < n) : t.stEmpty = false ∧ t.stPeekEmpty = false := by
  obtain ⟨-, hlen, hpeek⟩ := ht.registers_toNat h harb hreq
  refine ⟨t.isEmpty_eq_false_iff.2 (by omega), t.isPeekEmpty_eq_false_iff.2 ?_⟩
  rw [hpeek]
  split_ifs <;> omega

/-! ## The content after a push (rule R142) -/

/-- The window starts at the first byte that is kept. -/
theorem windowCell_eq (k : Nat) : t.windowCell k = s.windowCell (e + k) := by
  obtain ⟨hhead, -⟩ := ht.registers_toNat h harb hreq
  obtain ⟨-, hcap, -⟩ := State.configuration_eq_iff.1 ht.configuration_eq
  rw [State.windowCell, State.windowCell, hcap, hhead, Nat.mod_add_mod, Nat.add_assoc]

/-- The bytes kept come first, each in its old cell, and then the bytes written. -/
theorem content_eq : t.content = s.content.drop e ++ data.take n := by
  obtain ⟨he, -, -⟩ := State.granted_bounds h harb hreq
  obtain ⟨-, hlen, -⟩ := ht.registers_toNat h harb hreq
  have hold : (List.range (s.length.toNat - e)).map (fun k => t.memRead (t.windowCell k)) =
      s.content.drop e := by
    refine List.ext_getElem (by simp [State.content]) fun k hk _ => ?_
    have hk : k < s.length.toNat - e := by simpa using hk
    have hne : ∀ j, j < n → s.windowCell (e + k) ≠ (s.tail.toNat + j) % s.capacity.toNat := by
      intro j hj
      have hcell := State.tail_cell_ne_kept h (req := req) (k := j) (j := k)
      rw [harb] at hcell
      exact hcell hj hk
    simpa [State.content, ht.windowCell_eq h harb hreq] using ht.kept _ hne
  have hnew : (List.range n).map (fun k => t.memRead (t.windowCell (s.length.toNat - e + k))) =
      data.take n := by
    refine List.ext_getElem? fun k => ?_
    rw [List.getElem?_map]
    rcases Nat.lt_or_ge k n with hk | hk
    · have hcell : t.windowCell (s.length.toNat - e + k) =
          (s.tail.toNat + k) % s.capacity.toNat := by
        rw [ht.windowCell_eq h harb hreq, State.tail_add_mod h]
        congr 1
        omega
      rw [List.getElem?_range hk, List.getElem?_take_of_lt hk, ht.written k hk, ← hcell]
      rfl
    · rw [List.getElem?_eq_none (by simpa using hk), List.getElem?_take_eq_none hk]
      rfl
  rw [State.content, hlen, List.range_add, List.map_append, List.map_map, hold]
  exact congrArg _ hnew

/-- An eviction ends the look-ahead, and a push without one keeps its offset. -/
theorem peekOffset_eq : t.peekOffset = if e = 0 then s.peekOffset else 0 := by
  obtain ⟨-, hlen, hpeek⟩ := ht.registers_toNat h harb hreq
  rw [State.peekOffset, State.peekOffset, hlen, hpeek]
  split_ifs <;> omega

end PushedTo

end

/-! ## PUSH_BYTE (rule R140) -/

/-- The state after a PUSH_BYTE that has evicted `e` bytes. -/
def State.bytePushed (s : State) (byte : Byte) (e : Nat) : State :=
  ((s.memWrite s.tail.toNat byte).withCursors (s.pushedCursors 1 e)).respond 0x2#4 .ok 1#16

section
variable {s : State} (h : CursorInv s.capacity.toNat s.cursors) (byte : Byte)
include h

/-- A PUSH_BYTE that is not rejected evicts a byte exactly on a full queue. -/
theorem exec_pushByte_accepted (hs : s.constructed = true)
    (hrej : ¬(s.isFull && !s.overwriteEnabled) = true) :
    exec (.pushByte byte) s = .next (s.bytePushed byte (if s.isFull then 1 else 0)) := by
  obtain ⟨-, -, htail, -⟩ := s.cursorInv_linear h
  have hevict : s.pushCursors = s.cursors.evict s.capacity.toNat (if s.isFull then 1 else 0) := by
    unfold State.pushCursors
    split_ifs <;> rfl
  rw [exec_pushByte hs hrej, hevict, Cursors.evict_tail]
  exact requireCells_of_lt (List.forall_mem_singleton.2 htail)

theorem State.bytePushed_pushedTo (e : Nat) : PushedTo s 1 e [byte] (s.bytePushed byte e) := by
  obtain ⟨-, -, htail, -⟩ := s.cursorInv_linear h
  refine ⟨rfl, rfl, fun k hk => ?_, fun a ha => ?_⟩
  · obtain rfl := Nat.lt_one_iff.1 hk
    simp [State.bytePushed, Nat.mod_eq_of_lt htail]
  · refine State.memRead_memWrite_other s byte ?_
    simpa [Nat.mod_eq_of_lt htail] using ha 0 Nat.one_pos

/-- Every PUSH_BYTE on a constructed controller pushes what the arbiter grants of its byte; a rejected one
is a push of nothing. -/
theorem exec_pushByte_pushedTo (hs : s.constructed = true) :
    ∃ t, exec (.pushByte byte) s = .next t ∧
      PushedTo s (s.arbitrate 1).1 (s.arbitrate 1).2 [byte] t := by
  rw [State.arbitrate_one h]
  by_cases hrej : (s.isFull && !s.overwriteEnabled) = true
  · rw [if_pos hrej]
    exact ⟨_, exec_pushByte_of_full hs hrej, rfl, (State.pushedCursors_zero h).symm,
      fun k hk => absurd hk (Nat.not_lt_zero k), fun a _ => rfl⟩
  · rw [if_neg hrej]
    exact ⟨_, exec_pushByte_accepted h byte hs hrej, State.bytePushed_pushedTo h byte _⟩

end

section
variable {s : State} (h : CursorInv s.capacity.toNat s.cursors) (byte : Byte)
include h

theorem exec_pushByte_of_room (hs : s.constructed = true) (hroom : s.length ≠ s.capacity) :
    exec (.pushByte byte) s = .next (s.bytePushed byte 0) := by
  have hf : s.isFull = false := by
    rw [Bool.eq_false_iff, ne_eq, State.isFull_iff h, BitVec.toNat_inj]
    exact hroom
  rw [exec_pushByte_accepted h byte hs (by simp [hf]), hf]
  rfl

theorem exec_pushByte_of_overwrite (hs : s.constructed = true) (hfull : s.length = s.capacity)
    (ho : s.overwriteEnabled = true) :
    exec (.pushByte byte) s = .next (s.bytePushed byte 1) := by
  have hf : s.isFull = true := (State.isFull_iff h).2 (congrArg _ hfull)
  rw [exec_pushByte_accepted h byte hs (by simp [ho]), hf]
  rfl

/-- The whole next state. -/
theorem State.bytePushed_eq {e : Nat} (he : e ≤ s.length.toNat) :
    s.bytePushed byte e = { s with
      head := toIdx ((s.head.toNat + e) % s.capacity.toNat),
      tail := toIdx ((s.tail.toNat + 1) % s.capacity.toNat),
      length := toIdx (s.length.toNat - e + 1),
      peekCursor := if e = 0 then s.peekCursor else toIdx ((s.head.toNat + e) % s.capacity.toNat),
      peekLength :=
        if e = 0 then toIdx (s.peekLength.toNat + 1) else toIdx (s.length.toNat - e + 1),
      storage := (s.bytePushed byte e).storage, trace := s.trace ++ [⟨true, s.tail, byte⟩],
      rsp := some (responseWord 0x2#4 .ok 1#16) } := by
  conv_lhs => rw [State.bytePushed, State.pushedCursors_eq h he h.1]
  simp only [State.bytePushed, State.respond, State.withCursors, State.memWrite, toIdx_of_toNat]

end

/-- Settles O34: the two rejections, then the push without and with an eviction. -/
theorem pushByteRule : Obligations.PushByteRule := by
  unfold Obligations.PushByteRule
  intro byte s hinv
  refine ⟨fun hs => whenConstructed_false hs, fun hs hfull ho => ?_, fun hs hroom => ?_,
    fun hs hfull ho => ?_⟩
  · have hf : s.isFull = true := (State.isFull_iff (hinv.cursorInv hs)).2 (congrArg _ hfull)
    exact exec_pushByte_of_full hs (by simp [hf, ho])
  · have h := hinv.cursorInv hs
    obtain ⟨-, hhead, -, -, hl, -⟩ := s.cursorInv_linear h
    have ht := State.bytePushed_pushedTo h byte 0
    have hlt : s.length.toNat < s.capacity.toNat :=
      Nat.lt_of_le_of_ne hl (mt BitVec.toNat_inj.1 hroom)
    have harb : s.arbitrate 1 = (1, 0) := State.arbitrate_of_room (Nat.sub_pos_of_lt hlt)
    have hcount := ht.stCount_toNat h harb h.1
    obtain ⟨hempty, hpeek⟩ := ht.not_empty h harb h.1 Nat.one_pos
    refine ⟨_, exec_pushByte_of_room h byte hs hroom, ?_, State.memRead_memWrite_same ..,
      fun a ha => State.memRead_memWrite_other s byte ha, hcount, ?_, hempty, hpeek,
      ht.stFull_iff h harb h.1 hs⟩
    · exact (State.bytePushed_eq h byte (Nat.zero_le _)).trans (by simp [Nat.mod_eq_of_lt hhead])
    · have havail : (s.bytePushed byte 0).stAvail.toNat =
          s.capacity.toNat - (s.length.toNat + 1) :=
        (State.stAvail_toNat _).trans (congrArg (s.capacity.toNat - ·) hcount)
      rw [havail, State.stAvail_toNat]
      omega
  · have h := hinv.cursorInv hs
    have ht := State.bytePushed_pushedTo h byte 1
    have hzero : s.free = 0 := by simp [State.free, hfull]
    have harb : s.arbitrate 1 = (1, 1) := by rw [State.arbitrate_overwrite ho, hzero]
    have hone : 1 ≤ s.length.toNat := hfull ▸ h.1
    have hsum : s.length.toNat - 1 + 1 = s.length.toNat := Nat.sub_add_cancel hone
    have hcount : (s.bytePushed byte 1).length = s.capacity := by
      rw [← hfull, ← BitVec.toNat_inj]
      exact (ht.stCount_toNat h harb h.1).trans hsum
    obtain ⟨hempty, hpeek⟩ := ht.not_empty h harb h.1 Nat.one_pos
    refine ⟨_, exec_pushByte_of_overwrite h byte hs hfull ho, ?_,
      ((State.head_eq_tail_iff h).2 (.inr hfull)).symm, State.memRead_memWrite_same ..,
      fun a ha => State.memRead_memWrite_other s byte ha, hcount, ?_, hempty, hpeek, ?_⟩
    · exact (State.bytePushed_eq h byte hone).trans (by simp [hsum])
    · rw [idx_eq_zero_iff, State.stAvail_toNat, hcount]
      exact Nat.sub_self _
    · rw [ht.stFull_iff h harb h.1 hs, hsum, hfull]

/-! ## PUSH_BYTES (rule R141) -/

/-- The arbiter's counts as rule R116 writes them. -/
theorem State.arbitrate_eq (s : State) (req : Nat) :
    s.arbitrate req =
      (if req ≤ s.free then req else if s.overwriteEnabled = true then req else s.free,
        if req ≤ s.free then 0 else if s.overwriteEnabled = true then req - s.free else 0) := by
  unfold State.arbitrate
  split_ifs <;> rfl

@[simp] theorem Work.memRead_commit (w : Work) (s : State) (a : Nat) :
    (w.commit s).memRead a = s.memRead a := rfl

/-- The state after a PUSH_BYTES that was served to its end. -/
def State.bytesPushed (s : State) (len : Idx) : State :=
  (planPushBytes len s).commit ((planPushBytes len s).moveBytes (planPushBytes len s).n s)

section
variable {s : State} (h : CursorInv s.capacity.toNat s.cursors) {len : Idx}
include h

/-- The copy engine goes as far as the producer's bytes last. -/
theorem exec_pushBytes_eq (hs : s.constructed = true) :
    exec (.pushBytes true len) s =
      .next ((planPushBytes len s).after (min (planPushBytes len s).n s.din.length) s) :=
  (exec_pushBytes hs).trans (advance_eq (planPushBytes_visits h len).cells_lt)

/-- A PUSH_BYTES that has completed was offered all the bytes it writes. -/
theorem n_le_din_of_pushBytes {t : State} (hs : s.constructed = true)
    (ht : exec (.pushBytes true len) s = .next t) (hw : t.work = none) :
    (planPushBytes len s).n ≤ s.din.length := by
  rw [exec_pushBytes_eq h hs] at ht
  cases ht
  unfold Work.after at hw
  split_ifs at hw with hdone
  have hb : (planPushBytes len s).beat = 0 := rfl
  omega

variable {n e : Nat} (harb : s.arbitrate (min len.toNat s.capacity.toNat) = (n, e))
  (hdin : n ≤ s.din.length)
include harb hdin

theorem exec_pushBytes_completes (hs : s.constructed = true) :
    exec (.pushBytes true len) s = .next (s.bytesPushed len) := by
  have hn : (planPushBytes len s).n = n := congrArg Prod.fst harb
  have hdone : (planPushBytes len s).beat + (planPushBytes len s).n = (planPushBytes len s).n :=
    Nat.zero_add _
  rw [exec_pushBytes_eq h hs, Nat.min_eq_left (hn ▸ hdin), Work.after, if_pos hdone]
  rfl

theorem State.bytesPushed_pushedTo : PushedTo s n e s.din (s.bytesPushed len) := by
  have hv := planPushBytes_visits h len
  obtain rfl : (planPushBytes len s).n = n := congrArg Prod.fst harb
  obtain rfl : (planPushBytes len s).e = e := congrArg Prod.snd harb
  have hb : (planPushBytes len s).beat = 0 := rfl
  have hm : (planPushBytes len s).beat + (planPushBytes len s).n ≤ (planPushBytes len s).n :=
    (Nat.zero_add _).le
  have hread {k : Nat} := Work.memRead_moveBytes_toStorage hv hm hdin rfl (k := k)
  have hother {a : Nat} := Work.memRead_moveBytes_toStorage_other hv hm hdin rfl (a := a)
  simp only [hb, Nat.zero_add] at hread hother
  refine ⟨?_, Work.cursors_commit _ _, fun k hk => ?_, fun a ha => ?_⟩
  · rw [State.bytesPushed, Work.commit_configuration, Work.moveBytes_configuration]
  · rw [State.bytesPushed, Work.memRead_commit]
    exact hread hk
  · rw [State.bytesPushed, Work.memRead_commit]
    exact hother ha

/-- The whole next state. -/
theorem State.bytesPushed_eq :
    s.bytesPushed len = { s with
      head := toIdx ((s.head.toNat + e) % s.capacity.toNat),
      tail := toIdx ((s.tail.toNat + n) % s.capacity.toNat),
      length := toIdx (s.length.toNat - e + n),
      peekCursor := if e = 0 then s.peekCursor else toIdx ((s.head.toNat + e) % s.capacity.toNat),
      peekLength :=
        if e = 0 then toIdx (s.peekLength.toNat + n) else toIdx (s.length.toNat - e + n),
      storage := (s.bytesPushed len).storage, work := none, din := s.din.drop n,
      trace := s.trace ++ (List.range n).map (fun k =>
        ⟨true, toIdx ((s.tail.toNat + k) % s.capacity.toNat), (s.din[k]?).getD 0#8⟩),
      rsp := some (responseWord 0x3#4 .ok (toIdx n)) } := by
  have hv := planPushBytes_visits h len
  obtain ⟨he, hn, -⟩ := State.granted_bounds h harb (Nat.min_le_right _ _)
  obtain rfl : (planPushBytes len s).n = n := congrArg Prod.fst harb
  obtain rfl : (planPushBytes len s).e = e := congrArg Prod.snd harb
  have hb : (planPushBytes len s).beat = 0 := rfl
  have hm : (planPushBytes len s).beat + (planPushBytes len s).n ≤ (planPushBytes len s).n :=
    (Nat.zero_add _).le
  have hmoved := Work.moveBytes_toStorage_eq hv hm hdin rfl
  have hcursors : (planPushBytes len s).cursors = _ := State.pushedCursors_eq h he hn
  simp only [hb, Nat.zero_add] at hmoved
  conv_lhs => rw [State.bytesPushed, Work.commit_eq, hcursors, hmoved]
  rfl

end

/-- Settles O35: the two rejections, then the copy engine's end. -/
theorem pushBytesRule : Obligations.PushBytesRule := by
  unfold Obligations.PushBytesRule
  intro bufPresent len s hinv
  refine ⟨fun hbad => ?_, fun hs hb => ?_⟩
  · rcases hbad with hs | rfl
    · exact whenConstructed_false hs
    · rcases Bool.eq_false_or_eq_true s.constructed with hs | hs
      · exact whenConstructed_true hs
      · exact whenConstructed_false hs
  · intro C free req n e hdin
    subst hb
    have h := hinv.cursorInv hs
    have harb : s.arbitrate (min len.toNat s.capacity.toNat) = (n, e) := s.arbitrate_eq _
    have hreq : min len.toNat s.capacity.toNat ≤ s.capacity.toNat := Nat.min_le_right _ _
    have ht := State.bytesPushed_pushedTo h harb hdin
    exact ⟨_, exec_pushBytes_completes h harb hdin hs, State.bytesPushed_eq h harb hdin, ht.written,
      ht.kept, ht.stCount_toNat h harb hreq, ht.stFull_iff h harb hreq hs, ht.not_empty h harb hreq⟩

/-! ## The content (rule R142) -/

/-- An `OK` response is not a rejection of a full queue. -/
theorem responseWord_full_ne_ok (op : BitVec 4) (v w : Idx) :
    responseWord op .full v ≠ responseWord op .ok w := by
  intro he
  have hcode : Status.full.code = Status.ok.code := by
    rw [← responseWord_status op .full v, he, responseWord_status]
  exact absurd hcode (by decide)

/-- Settles O50: each command leaves what a push of the granted bytes leaves. -/
theorem pushAppendsToTheContent : Obligations.PushAppendsToTheContent := by
  unfold Obligations.PushAppendsToTheContent
  refine ⟨fun byte s t hinv hs e hok => ?_, fun len s t hinv hs e hw => ?_⟩
  · have h := hinv.cursorInv hs
    by_cases hrej : (s.isFull && !s.overwriteEnabled) = true
    · cases (exec_pushByte_of_full hs hrej).symm.trans e
      exact absurd (Option.some.inj hok) (responseWord_full_ne_ok _ _ _)
    · cases (exec_pushByte_accepted h byte hs hrej).symm.trans e
      have harb := (State.arbitrate_one h).trans (if_neg hrej)
      have ht := State.bytePushed_pushedTo h byte (if s.isFull then 1 else 0)
      rw [harb]
      exact ⟨ht.content_eq h harb h.1, ht.peekOffset_eq h harb h.1⟩
  · have h := hinv.cursorInv hs
    have hdin := n_le_din_of_pushBytes h hs e hw
    cases (exec_pushBytes_completes h rfl hdin hs).symm.trans e
    have hreq : min len.toNat s.capacity.toNat ≤ s.capacity.toNat := Nat.min_le_right _ _
    have ht := State.bytesPushed_pushedTo h rfl hdin
    exact ⟨ht.content_eq h rfl hreq, ht.peekOffset_eq h rfl hreq⟩

/-! ## The overwrite policy -/

/-- What a queue of `C` bytes retains of all the bytes given to it: the last with overwrite enabled, the
first without. -/
def retained (C : Nat) (overwrite : Bool) (q : List Byte) : List Byte :=
  if overwrite then q.drop (q.length - C) else q.take C

theorem retained_of_length_le {C : Nat} {q : List Byte} (overwrite : Bool) (hq : q.length ≤ C) :
    retained C overwrite q = q := by
  cases overwrite with
  | true => simp [retained, Nat.sub_eq_zero_of_le hq]
  | false => exact List.take_of_length_le hq

/-- Bytes not retained once have no part in what is retained later. -/
theorem retained_retained_append (C : Nat) (overwrite : Bool) (q r : List Byte) :
    retained C overwrite (retained C overwrite q ++ r) = retained C overwrite (q ++ r) := by
  cases overwrite with
  | true =>
    simp only [retained, if_true]
    rw [← List.drop_append_of_le_length (Nat.sub_le _ _), List.drop_drop, List.length_drop,
      List.length_append]
    congr 1
    omega
  | false =>
    simp only [retained, Bool.false_eq_true, if_false]
    rw [List.take_append, List.take_append, List.take_take, Nat.min_self, List.length_take]
    congr 2
    omega

@[simp] theorem State.length_content (s : State) : s.content.length = s.length.toNat := by
  simp [State.content]

/-- What a push leaves is what its queue retains. -/
theorem PushedTo.content_eq_retained {s t : State} {n e : Nat} {data : List Byte}
    (ht : PushedTo s n e data t) (h : CursorInv s.capacity.toNat s.cursors)
    (harb : s.arbitrate data.length = (n, e)) (hreq : data.length ≤ s.capacity.toNat) :
    t.content = retained s.capacity.toNat s.overwriteEnabled (s.content ++ data) := by
  obtain ⟨-, -, -, -, hl, -⟩ := s.cursorInv_linear h
  rw [ht.content_eq h harb hreq]
  cases ho : s.overwriteEnabled with
  | true =>
    cases harb.symm.trans (State.arbitrate_overwrite ho _)
    have hevicted : s.length.toNat + data.length - s.capacity.toNat = data.length - s.free := by
      unfold State.free
      omega
    have hle : data.length - s.free ≤ s.content.length := by
      rw [State.length_content]
      omega
    rw [retained, if_pos rfl, List.length_append, State.length_content, hevicted,
      List.drop_append_of_le_length hle, List.take_length]
  | false =>
    have hold : s.content.take s.capacity.toNat = s.content :=
      List.take_of_length_le (by simpa using hl)
    rw [retained, if_neg Bool.false_ne_true, List.take_append, hold, State.length_content]
    rcases Nat.lt_or_ge s.free data.length with hlt | hle
    · cases harb.symm.trans (State.arbitrate_of_no_overwrite hlt ho)
      rfl
    · cases harb.symm.trans (State.arbitrate_of_room hle)
      have hall : data.take (s.capacity.toNat - s.length.toNat) = data := List.take_of_length_le hle
      rw [List.drop_zero, List.take_length, hall]

theorem exec_pushByte_retains {s : State} (h : Launch s) (hr : s.rsp = none)
    (hs : s.constructed = true) (byte : Byte) :
    ∃ t, exec (.pushByte byte) s = .next t ∧ Launch t ∧ t.configuration = s.configuration ∧
      t.content = retained s.capacity.toNat s.overwriteEnabled (s.content ++ [byte]) := by
  have hc := h.1.cursorInv hs
  obtain ⟨t, e, ht⟩ := exec_pushByte_pushedTo hc byte hs
  obtain ⟨t₁, e₁, hinv⟩ := exec_wellFormed h hr (.pushByte byte)
  obtain ⟨t₂, e₂, hresp⟩ := exec_responds h (i := .pushByte byte) rfl
  cases e.symm.trans e₁
  cases e.symm.trans e₂
  exact ⟨t, e, ⟨hinv, hresp.work_eq⟩, ht.configuration_eq, ht.content_eq_retained hc rfl hc.1⟩

/-- A PUSH_BYTE of a run finds the registers and the storage as they were. -/
theorem runCommand_pushByte {s : State} (h : Launch s) (hs : s.constructed = true) (byte : Byte) :
    ∃ t, runCommand ⟨.pushByte byte, []⟩ s = .next t ∧ Launch t ∧
      t.configuration = s.configuration ∧
      t.content = retained s.capacity.toNat s.overwriteEnabled (s.content ++ [byte]) := by
  have haccepted : Launch ((presentCommand ⟨.pushByte byte, []⟩ s).accepted []) :=
    h.congr rfl rfl rfl rfl rfl h.2
  rw [runCommand_eq _ _ rfl h.2 (decode_encode _)]
  exact exec_pushByte_retains haccepted rfl hs byte

/-- By induction on the bytes: each push retains what a queue of the bytes so far would. -/
theorem runProgram_pushByte_content (bytes : List Byte) {s : State} (h : Launch s)
    (hs : s.constructed = true) :
    ∃ t, runProgram (bytes.map fun b => ⟨.pushByte b, []⟩) s = .next t ∧
      t.content = retained s.capacity.toNat s.overwriteEnabled (s.content ++ bytes) := by
  induction bytes generalizing s with
  | nil =>
    obtain ⟨-, -, -, -, hl, -⟩ := s.cursorInv_linear (h.1.cursorInv hs)
    refine ⟨_, endRun_eq s h.2, ?_⟩
    rw [List.append_nil, retained_of_length_le _ (by simpa using hl)]
    rfl
  | cons byte bytes ih =>
    obtain ⟨t, e, htl, hconf, hcontent⟩ := runCommand_pushByte h hs byte
    obtain ⟨htc, hcap, hovw⟩ := State.configuration_eq_iff.1 hconf
    obtain ⟨u, e', hu⟩ := ih htl (htc.trans hs)
    refine ⟨u, (runProgram_cons e).trans e', ?_⟩
    rw [hu, hcap, hovw, hcontent, retained_retained_append, List.append_assoc, List.singleton_append]

/-- Settles O59: the two policies are those of what is retained. -/
theorem overwriteKeepsTheLatestBytes : Obligations.OverwriteKeepsTheLatestBytes := by
  unfold Obligations.OverwriteKeepsTheLatestBytes
  intro bytes s hinv hs hw
  obtain ⟨t, e, ht⟩ := runProgram_pushByte_content bytes ⟨hinv, hw⟩ hs
  refine ⟨t, e, fun ho => ?_, fun ho => ?_⟩
  · rw [ht, ho, retained, if_pos rfl, List.length_append, State.length_content]
  · rw [ht, ho, retained, if_neg Bool.false_ne_true]

end Sys2Proof.Machine

/-!
PROOFS. The pops (43_pop.md): what a pop of `n` bytes leaves, said once for both commands; their whole next
states; the content after them.
-/

namespace Sys2Proof.Machine

/-! ## The content by place (10_state.md rule R31(e)) -/

/-- A window that starts `n` bytes later over the same bytes holds the content without its first `n`. -/
theorem State.content_of_head_advanced {s t : State} {n : Nat} (hcap : t.capacity = s.capacity)
    (hhead : t.head.toNat = (s.head.toNat + n) % s.capacity.toNat)
    (hlen : t.length.toNat = s.length.toNat - n) (hmem : ∀ a, t.memRead a = s.memRead a) :
    t.content = s.content.drop n := by
  have hcell (k : Nat) : t.windowCell k = s.windowCell (n + k) := by
    rw [State.windowCell, State.windowCell, hcap, hhead, Nat.mod_add_mod, Nat.add_assoc]
  refine List.ext_getElem (by simp [hlen]) fun k _ _ => ?_
  simp [State.content, hcell, hmem]

/-- The bytes of a stretch of the window. -/
theorem State.take_drop_content (s : State) {p n : Nat} (h : p + n ≤ s.length.toNat) :
    (s.content.drop p).take n = (List.range n).map fun k => s.memRead (s.windowCell (p + k)) :=
  take_drop_map_range _ h

/-- The byte at a place of the window comes first of those from that place on. -/
theorem State.drop_content_eq_cons (s : State) {p : Nat} (h : p < s.length.toNat) :
    s.content.drop p = s.memRead (s.windowCell p) :: s.content.drop (p + 1) := by
  rw [List.drop_eq_getElem_cons (by simpa using h)]
  simp [State.content]

/-! ## The registers of a pop -/

/-- `PoppedTo s n t`: from `s` to `t` the `n` oldest bytes have been taken off the queue and the peek window
resynchronised (rules R160 and R161). -/
structure PoppedTo (s : State) (n : Nat) (t : State) : Prop where
  configuration_eq : t.configuration = s.configuration
  cursors_eq : t.cursors = s.cursors.popped s.capacity.toNat n
  memRead_eq : ∀ a, t.memRead a = s.memRead a

namespace PoppedTo

section
variable {s t : State} {n : Nat} (ht : PoppedTo s n t)
include ht

/-- The peek offset after a pop is 0 (rule R162). -/
theorem peekOffset_eq : t.peekOffset = 0 := by
  have hpeek : t.peekLength = _ := congrArg Cursors.peekLength ht.cursors_eq
  have hlen : t.length = _ := congrArg Cursors.length ht.cursors_eq
  rw [State.peekOffset, hpeek, hlen]
  exact Nat.sub_self _

variable (h : CursorInv s.capacity.toNat s.cursors) (hn : n ≤ s.length.toNat)
include h hn

/-- The registers after a pop, as numbers. -/
theorem registers_toNat :
    t.head.toNat = (s.head.toNat + n) % s.capacity.toNat ∧
      t.length.toNat = s.length.toNat - n ∧ t.peekLength.toNat = s.length.toNat - n := by
  obtain ⟨hhead, hlen⟩ := Cursors.dropFront_toNat (idx_lt _) h hn
  have hc := ht.cursors_eq
  exact ⟨(congrArg (·.head.toNat) hc).trans hhead, (congrArg (·.length.toNat) hc).trans hlen,
    (congrArg (·.peekLength.toNat) hc).trans hlen⟩

/-! The status outputs (10_state.md rule R28). -/

theorem stCount_toNat : t.stCount.toNat = s.stCount.toNat - n := (ht.registers_toNat h hn).2.1

/-- The room grows by the bytes taken. -/
theorem stAvail_toNat : t.stAvail.toNat = s.stAvail.toNat + n := by
  obtain ⟨-, -, -, -, hl, -⟩ := s.cursorInv_linear h
  obtain ⟨-, hlen, -⟩ := ht.registers_toNat h hn
  obtain ⟨-, hcap, -⟩ := State.configuration_eq_iff.1 ht.configuration_eq
  rw [State.stAvail_toNat, State.stAvail_toNat, hcap, hlen]
  omega

theorem not_full (hpos : 0 < n) : t.stFull = false := by
  obtain ⟨-, -, -, -, hl, -⟩ := s.cursorInv_linear h
  obtain ⟨-, hlen, -⟩ := ht.registers_toNat h hn
  obtain ⟨-, hcap, -⟩ := State.configuration_eq_iff.1 ht.configuration_eq
  have hne : t.length ≠ t.capacity := fun he => by
    have := congrArg BitVec.toNat he
    rw [hcap] at this
    omega
  simp [State.stFull, hne]

theorem empty_of_all (hall : n = s.length.toNat) : t.stEmpty = true ∧ t.stPeekEmpty = true := by
  obtain ⟨-, hlen, hpeek⟩ := ht.registers_toNat h hn
  exact ⟨t.isEmpty_iff.2 (by omega), t.isPeekEmpty_iff.2 (by omega)⟩

/-- What a pop leaves of the content (rule R162). -/
theorem content_eq : t.content = s.content.drop n := by
  obtain ⟨hhead, hlen, -⟩ := ht.registers_toNat h hn
  obtain ⟨-, hcap, -⟩ := State.configuration_eq_iff.1 ht.configuration_eq
  exact State.content_of_head_advanced hcap hhead hlen ht.memRead_eq

end

end PoppedTo

/-! ## POP_BYTE (rule R160) -/

/-- The state after a POP_BYTE on a queue that is not empty. -/
def State.bytePopped (s : State) : State :=
  ((s.readCells [s.head.toNat]).withCursors (s.cursors.popped s.capacity.toNat 1)).respond 0x4#4 .ok
    (byteValue (s.memRead s.head.toNat))

theorem exec_popByte_of_unconstructed {s : State} (hs : s.constructed = false) :
    exec .popByte s = reject 0x4#4 .invalidArgument s := whenConstructed_false hs

theorem exec_popByte_of_isEmpty {s : State} (hs : s.constructed = true) (he : s.isEmpty = true) :
    exec .popByte s = reject 0x4#4 .empty s := (whenConstructed_true hs).trans (if_pos he)

theorem State.bytePopped_poppedTo (s : State) : PoppedTo s 1 s.bytePopped := ⟨rfl, rfl, fun _ => rfl⟩

section
variable {s : State} (h : CursorInv s.capacity.toNat s.cursors)
include h

theorem exec_popByte_of_not_isEmpty (hs : s.constructed = true) (hne : s.isEmpty = false) :
    exec .popByte s = .next s.bytePopped := by
  obtain ⟨-, hhead, -⟩ := s.cursorInv_linear h
  refine (whenConstructed_true hs).trans ((if_neg (by simp [hne])).trans ?_)
  exact requireCells_of_lt (List.forall_mem_singleton.2 hhead)

/-- The whole next state. -/
theorem State.bytePopped_eq (hone : 1 ≤ s.length.toNat) :
    s.bytePopped = { s with
      head := toIdx ((s.head.toNat + 1) % s.capacity.toNat),
      length := toIdx (s.length.toNat - 1),
      peekCursor := toIdx ((s.head.toNat + 1) % s.capacity.toNat),
      peekLength := toIdx (s.length.toNat - 1),
      trace := s.trace ++ [⟨false, s.head, s.memRead s.head.toNat⟩],
      rsp := some (responseWord 0x4#4 .ok (BitVec.setWidth 16 (s.memRead s.head.toNat))) } := by
  rw [State.bytePopped, State.cursors_popped_eq h hone]
  simp [State.respond, State.withCursors, State.readCells, byteValue]

/-- The byte at `head` is the first of the content. -/
theorem State.content_eq_head_cons (hone : 1 ≤ s.length.toNat) :
    s.content = s.memRead s.head.toNat :: s.content.drop 1 := by
  obtain ⟨-, hhead, -⟩ := s.cursorInv_linear h
  have hcell : s.windowCell 0 = s.head.toNat := Nat.mod_eq_of_lt hhead
  simpa [hcell] using s.drop_content_eq_cons (p := 0) hone

end

/-- Settles O39: the two rejections, then a pop of one byte. -/
theorem popByteRule : Obligations.PopByteRule := by
  unfold Obligations.PopByteRule
  intro s hinv
  refine ⟨exec_popByte_of_unconstructed, fun hs hz => ?_, fun hs hnz => ?_⟩
  · exact exec_popByte_of_isEmpty hs (beq_iff_eq.2 hz)
  · have h := hinv.cursorInv hs
    have hone : 1 ≤ s.length.toNat := Nat.one_le_iff_ne_zero.2 (mt (idx_eq_zero_iff _).2 hnz)
    have ht := s.bytePopped_poppedTo
    refine ⟨_, exec_popByte_of_not_isEmpty h hs (s.isEmpty_eq_false_iff.2 hone),
      State.bytePopped_eq h hone, ht.memRead_eq, ?_, ht.stAvail_toNat h hone,
      ht.not_full h hone Nat.one_pos, fun hlast => ht.empty_of_all h hone (by simp [hlast])⟩
    rw [ht.stCount_toNat h hone]
    exact Nat.sub_add_cancel hone

/-! ## POP_BYTES (rule R161) -/

/-- The state after a POP_BYTES, on a queue that is not empty, whose consumer took every byte. -/
def State.bytesPopped (s : State) (len : Idx) : State :=
  (planPopBytes len s).commit
    (s.delivered s.head.toNat 0 (planPopBytes len s).n 0 (planPopBytes len s).n)

theorem exec_popBytes_of_fails {bufPresent : Bool} {len : Idx} {s : State}
    (h : s.constructed = false ∨ bufPresent = false) :
    exec (.popBytes bufPresent len) s = reject 0x5#4 .invalidArgument s := by
  rcases Bool.eq_false_or_eq_true s.constructed with hs | hs
  · obtain rfl := h.resolve_left (by simp [hs])
    exact whenConstructed_true hs
  · exact whenConstructed_false hs

theorem State.bytesPopped_poppedTo (s : State) (len : Idx) :
    PoppedTo s (min len.toNat s.length.toNat) (s.bytesPopped len) := ⟨rfl, rfl, fun _ => rfl⟩

/-- The bytes delivered are the first of the content (rule R162). -/
theorem State.bytesPopped_dout (s : State) (len : Idx) :
    (s.bytesPopped len).dout = s.dout ++ s.content.take (min len.toNat s.length.toNat) := by
  have hn : 0 + min len.toNat s.length.toNat ≤ s.length.toNat := by omega
  exact congrArg (s.dout ++ ·) (s.take_drop_content hn).symm

/-- A fresh delivery that has completed had a consumer for all its bytes. -/
theorem consumerTakes_of_advance {w : Work} {s t : State} {base : Nat}
    (hv : w.Visits s.capacity.toNat base) (hd : w.direction = .fromStorage) (hb : w.beat = 0)
    (ha : w.accesses = 0) (e : advance w s = .next t) (hw : t.work = none) :
    s.consumerTakes w.n = true := by
  unfold State.consumerTakes
  cases hl : s.doutLimit with
  | none => rfl
  | some k =>
    refine decide_eq_true (not_lt.1 fun hk => ?_)
    obtain ⟨t', w', e', rfl, -⟩ := advance_fresh_delivery_waits hv hd hb ha hk hl
    cases e'.symm.trans e
    cases hw

section
variable {s : State} (h : CursorInv s.capacity.toNat s.cursors) {len : Idx}
include h

theorem exec_popBytes_completes (hs : s.constructed = true) (hne : s.isEmpty = false)
    (ht : s.consumerTakes (min len.toNat s.length.toNat) = true) :
    exec (.popBytes true len) s = .next (s.bytesPopped len) :=
  (exec_popBytes hs hne).trans
    (advance_delivery_completes (planPopBytes_visits h len) rfl (Nat.zero_le _) (Nat.zero_le _) ht)

/-- The whole next state. -/
theorem State.bytesPopped_eq {n : Nat} (hn : min len.toNat s.length.toNat = n) :
    s.bytesPopped len = { s with
      head := toIdx ((s.head.toNat + n) % s.capacity.toNat),
      length := toIdx (s.length.toNat - n),
      peekCursor := toIdx ((s.head.toNat + n) % s.capacity.toNat),
      peekLength := toIdx (s.length.toNat - n),
      work := none, doutLimit := s.doutLimitAfter n,
      dout := s.dout ++ (List.range n).map
        (fun k => s.memRead ((s.head.toNat + k) % s.capacity.toNat)),
      trace := s.trace ++ (List.range n).map (fun k =>
        ⟨false, toIdx ((s.head.toNat + k) % s.capacity.toNat),
          s.memRead ((s.head.toNat + k) % s.capacity.toNat)⟩),
      rsp := some (responseWord 0x5#4 .ok (toIdx n)) } := by
  subst hn
  have hc : (planPopBytes len s).cursors = _ := State.cursors_popped_eq h (Nat.min_le_right _ _)
  rw [State.bytesPopped, Work.commit_eq, hc, State.delivered]
  simp only [Nat.zero_add]
  rfl

end

/-- Settles O40: the rejections, the empty queue, then a delivery that ends. -/
theorem popBytesRule : Obligations.PopBytesRule := by
  unfold Obligations.PopBytesRule
  intro bufPresent len s hinv
  refine ⟨exec_popBytes_of_fails, fun hs hb hz => ?_, fun hs hb hnz => ?_⟩
  · subst hb
    exact exec_popBytes_of_isEmpty hs (beq_iff_eq.2 hz)
  · intro C n hserve
    subst hb
    have h := hinv.cursorInv hs
    have hne : s.isEmpty = false := beq_eq_false_iff_ne.2 hnz
    have hn : n ≤ s.length.toNat := Nat.min_le_right _ _
    have ht : PoppedTo s n (s.bytesPopped len) := s.bytesPopped_poppedTo len
    exact ⟨_, exec_popBytes_completes h hs hne hserve, State.bytesPopped_eq h rfl, ht.memRead_eq,
      ht.stCount_toNat h hn, ht.stAvail_toNat h hn, ht.not_full h hn, ht.empty_of_all h hn⟩

/-! ## The content (rule R162) -/

/-- Settles O51: each command leaves what a pop of its bytes leaves. -/
theorem popTakesFromTheContent : Obligations.PopTakesFromTheContent := by
  unfold Obligations.PopTakesFromTheContent
  refine ⟨fun s t hinv hs hnz e => ?_, fun len s t hinv hs hnz e hw => ?_⟩
  · have h := hinv.cursorInv hs
    have hne : s.isEmpty = false := beq_eq_false_iff_ne.2 hnz
    have hone : 1 ≤ s.length.toNat := s.isEmpty_eq_false_iff.1 hne
    have ht := s.bytePopped_poppedTo
    cases (exec_popByte_of_not_isEmpty h hs hne).symm.trans e
    refine ⟨s.memRead s.head.toNat, ?_, ht.peekOffset_eq, rfl⟩
    rw [ht.content_eq h hone]
    exact State.content_eq_head_cons h hone
  · have h := hinv.cursorInv hs
    have hne : s.isEmpty = false := beq_eq_false_iff_ne.2 hnz
    have hserve : s.consumerTakes (planPopBytes len s).n = true :=
      consumerTakes_of_advance (planPopBytes_visits h len) rfl rfl rfl
        ((exec_popBytes hs hne).symm.trans e) hw
    have ht := s.bytesPopped_poppedTo len
    cases (exec_popBytes_completes h hs hne hserve).symm.trans e
    have hlen : (s.content.take (min len.toNat s.length.toNat)).length =
        min len.toNat s.length.toNat := by simp
    refine ⟨_, hlen, ?_, s.bytesPopped_dout len, ht.peekOffset_eq, ?_⟩
    · rw [ht.content_eq h (Nat.min_le_right _ _), List.take_append_drop]
    · rw [hlen]
      rfl

end Sys2Proof.Machine

/-!
PROOFS. The bounded queue (43_pop.md rule R162): what each command does to the queue that a state is to an
observer and what it answers, command by command, and then over a whole program.
-/

namespace Sys2Proof.Machine

/-! ## The queue of a state -/

/-- While the configuration stays, the queue changes with the content and the peek offset. -/
theorem State.fifo_eq {s t : State} {q : List Byte} {p : Nat} (hc : t.configuration = s.configuration)
    (hq : t.content = q) (hp : t.peekOffset = p) : t.fifo = { s.fifo with bytes := q, peeked := p } := by
  obtain ⟨-, hcap, hovw⟩ := State.configuration_eq_iff.1 hc
  rw [State.fifo, hcap, hovw, hq, hp]
  rfl

theorem State.content_eq_nil_iff (s : State) : s.content = [] ↔ s.isEmpty = true := by
  rw [← List.length_eq_zero_iff, s.length_content, s.isEmpty_iff]

theorem State.fifo_of_cursors_zero {s : State} (h : s.cursors = Cursors.zero) :
    s.fifo = ⟨s.capacity.toNat, s.overwriteEnabled, [], 0⟩ := by
  have hl : s.length = 0#16 := congrArg Cursors.length h
  have hcontent : s.content = [] := s.content_eq_nil_iff.2 (beq_iff_eq.2 hl)
  have hoffset : s.peekOffset = 0 := by simp [State.peekOffset, hl]
  exact State.fifo_eq rfl hcontent hoffset

theorem State.peekOffset_le (s : State) : s.peekOffset ≤ s.length.toNat := Nat.sub_le _ _

theorem boolValue_toNat (b : Bool) : (boolValue b).toNat = if b = true then 1 else 0 := by
  cases b <;> rfl

theorem byteValue_toNat (b : Byte) : (byteValue b).toNat = b.toNat :=
  BitVec.toNat_setWidth_of_le (by decide)

/-! ## The queue's own single-byte reads -/

section
variable {f : Fifo} {data rest : List Byte} {b : Byte}

theorem Fifo.command_popByte_nil (hq : f.bytes = []) :
    f.command .popByte data = (f, ⟨.empty, 0, []⟩) := by
  simp only [Fifo.command, hq]

theorem Fifo.command_popByte_cons (hq : f.bytes = b :: rest) :
    f.command .popByte data = ({ f with bytes := rest, peeked := 0 }, ⟨.ok, b.toNat, []⟩) := by
  simp only [Fifo.command, hq]

theorem Fifo.command_peekByte_nil (hq : f.bytes.drop f.peeked = []) :
    f.command .peekByte data = (f, ⟨.empty, 0, []⟩) := by
  simp only [Fifo.command, hq]

theorem Fifo.command_peekByte_cons (hq : f.bytes.drop f.peeked = b :: rest) :
    f.command .peekByte data = ({ f with peeked := f.peeked + 1 }, ⟨.ok, b.toNat, []⟩) := by
  simp only [Fifo.command, hq]

end

/-! ## What an observer sees of a command -/

/-- `Shows op s r t`: to an observer `t` is the queue that `r` gives, and since `s` it has answered a command
with this opcode as `r` says. -/
structure Shows (op : BitVec 4) (s : State) (r : Fifo × Answer) (t : State) : Prop where
  fifo_eq : t.fifo = r.1
  rsp_eq : t.rsp = some (responseWord op r.2.status (toIdx r.2.value))
  dout_eq : t.dout = s.dout ++ r.2.out

/-- The command answers in `s`, and shows what the bounded queue gives. -/
def ActsAsQueue (i : Instr) (s : State) : Prop :=
  ∃ t, exec i s = .next t ∧ Shows i.opcode s (s.fifo.command i s.din) t

/-- A command that delivers nothing and ends with a response. -/
theorem ActsAsQueue.of_respond {i : Instr} {s s' : State} {status : Status} {value : Idx} {f : Fifo}
    (he : exec i s = .next (s'.respond i.opcode status value)) (hd : s'.dout = s.dout)
    (hf : s'.fifo = f) (hq : s.fifo.command i s.din = (f, ⟨status, value.toNat, []⟩)) :
    ActsAsQueue i s := by
  refine ⟨_, he, ?_⟩
  rw [hq]
  refine ⟨hf, ?_, ?_⟩
  · rw [toIdx_of_toNat]
    rfl
  · rw [List.append_nil]
    exact hd

/-! ## Lifecycle commands (41_lifecycle.md) -/

theorem construct_actsAsQueue (bufPresent ovw : Bool) (capacity : Idx) (s : State) :
    ActsAsQueue (.construct bufPresent ovw capacity) s := by
  by_cases hgood : bufPresent = true ∧ capacity ≠ 0#16
  · obtain ⟨rfl, hc⟩ := hgood
    exact .of_respond (exec_construct_of_succeeds hc) rfl (State.fifo_of_cursors_zero rfl)
      (if_pos (bne_iff_ne.2 hc))
  · have hbad : bufPresent = false ∨ capacity = 0#16 := by
      simpa [Decidable.imp_iff_not_or] using hgood
    exact .of_respond (exec_construct_of_fails hbad) rfl rfl (if_neg (by simpa using hgood))

section
variable {s : State} (hs : s.constructed = true)
include hs

theorem reset_actsAsQueue : ActsAsQueue .reset s :=
  .of_respond (exec_reset_of_constructed hs) rfl (State.fifo_of_cursors_zero rfl) rfl

/-! ## Queries (45_query.md) -/

theorem isEmpty_actsAsQueue : ActsAsQueue .isEmpty s := by
  refine .of_respond (whenConstructed_true hs) rfl rfl ?_
  rw [boolValue_toNat, ← if_congr s.content_eq_nil_iff rfl rfl]
  rfl

theorem count_actsAsQueue : ActsAsQueue .count s := by
  refine .of_respond (whenConstructed_true hs) rfl rfl ?_
  rw [← s.length_content]
  rfl

theorem availableCount_actsAsQueue : ActsAsQueue .availableCount s := by
  refine .of_respond (value := s.stAvail) (whenConstructed_true hs) rfl rfl ?_
  rw [s.stAvail_toNat, ← s.length_content]
  rfl

theorem isPeekEmpty_actsAsQueue (h : CursorInv s.capacity.toNat s.cursors) :
    ActsAsQueue .isPeekEmpty s := by
  obtain ⟨-, -, -, -, -, hpl, -⟩ := s.cursorInv_linear h
  have hall : s.peekOffset = s.content.length ↔ s.isPeekEmpty = true := by
    rw [s.isPeekEmpty_iff, s.length_content, State.peekOffset]
    omega
  refine .of_respond (whenConstructed_true hs) rfl rfl ?_
  rw [boolValue_toNat, ← if_congr hall rfl rfl]
  rfl

/-! ## The peek tracker (44_peek.md) -/

theorem resetPeek_actsAsQueue : ActsAsQueue .resetPeek s :=
  .of_respond (s' := s.withCursors s.cursors.resyncPeek) (whenConstructed_true hs) rfl
    (State.fifo_eq (s := s) rfl rfl (Nat.sub_self _)) rfl

/-- COMMIT_PEEKED takes the bytes before the peek offset off the queue. -/
theorem commitPeeked_actsAsQueue (h : CursorInv s.capacity.toNat s.cursors) :
    ActsAsQueue .commitPeeked s := by
  obtain ⟨-, -, -, -, hpl, hpc⟩ := h
  have hcontent : (s.withCursors s.cursors.committed).content = s.content.drop s.peekOffset :=
    State.content_of_head_advanced rfl hpc (Nat.sub_sub_self hpl).symm fun _ => rfl
  exact .of_respond (s' := s.withCursors s.cursors.committed) (whenConstructed_true hs) rfl
    (State.fifo_eq (s := s) rfl hcontent (Nat.sub_self _)) rfl

theorem getPeekOffset_actsAsQueue : ActsAsQueue .getPeekOffset s := by
  refine .of_respond (whenConstructed_true hs) rfl rfl ?_
  rw [toIdx_toNat (s.peekOffset_le.trans_lt (idx_lt _))]
  rfl

theorem restorePeekOffset_actsAsQueue (count : Idx) : ActsAsQueue (.restorePeekOffset count) s := by
  rcases Nat.lt_or_ge s.length.toNat count.toNat with hlt | hle
  · exact .of_respond ((whenConstructed_true hs).trans (if_pos hlt)) rfl rfl
      (if_neg (not_le.2 (s.length_content.trans_lt hlt)))
  · have hlen : (toIdx (s.length.toNat - count.toNat)).toNat = s.length.toNat - count.toNat :=
      toIdx_toNat ((Nat.sub_le _ _).trans_lt (idx_lt _))
    have hoffset : (s.withCursors
        (s.cursors.restored s.capacity.toNat count.toNat)).peekOffset = count.toNat :=
      (congrArg (s.length.toNat - ·) hlen).trans (Nat.sub_sub_self hle)
    exact .of_respond (exec_restorePeekOffset_of_le hs hle) rfl
      (State.fifo_eq (s := s) rfl rfl hoffset) (if_pos (hle.trans s.length_content.ge))

end

/-! ## Peeks (44_peek.md rules R170 and R171) -/

/-- A peek of `n` bytes moves the offset by `n`. -/
theorem State.peekOffset_of_cursors_peeked {s t : State} {n : Nat}
    (h : CursorInv s.capacity.toNat s.cursors) (hn : n ≤ s.peekLength.toNat)
    (hc : t.cursors = s.cursors.peeked s.capacity.toNat n) : t.peekOffset = s.peekOffset + n := by
  obtain ⟨-, -, -, -, -, hpl, -⟩ := s.cursorInv_linear h
  obtain ⟨-, hpeek⟩ := Cursors.peeked_toNat (idx_lt _) h hn
  have hpeek : t.peekLength.toNat = s.peekLength.toNat - n :=
    (congrArg (·.peekLength.toNat) hc).trans hpeek
  have hlen : t.length = s.length := congrArg Cursors.length hc
  rw [State.peekOffset, State.peekOffset, hlen, hpeek]
  omega

theorem exec_peekByte_of_isPeekEmpty {s : State} (hs : s.constructed = true)
    (he : s.isPeekEmpty = true) : exec .peekByte s = reject 0x6#4 .empty s :=
  (whenConstructed_true hs).trans (if_pos he)

/-- The effect of a PEEK_BYTE on a peek window that is not empty, before its response. -/
def State.bytePeeked (s : State) : State :=
  (s.readCells [s.peekCursor.toNat]).withCursors (s.cursors.peeked s.capacity.toNat 1)

/-- The state after a PEEK_BYTES, on a peek window that is not empty, whose consumer took every byte. -/
def State.bytesPeeked (s : State) (len : Idx) : State :=
  (planPeekBytes len s).commit
    (s.delivered s.peekCursor.toNat 0 (planPeekBytes len s).n 0 (planPeekBytes len s).n)

section
variable {s : State} (h : CursorInv s.capacity.toNat s.cursors)
include h

theorem exec_peekByte_of_not_isPeekEmpty (hs : s.constructed = true) (hne : s.isPeekEmpty = false) :
    exec .peekByte s =
      .next (s.bytePeeked.respond 0x6#4 .ok (byteValue (s.memRead s.peekCursor.toNat))) := by
  obtain ⟨-, -, -, hpeek, -⟩ := s.cursorInv_linear h
  refine (whenConstructed_true hs).trans ((if_neg (by simp [hne])).trans ?_)
  exact requireCells_of_lt (List.forall_mem_singleton.2 hpeek)

theorem exec_peekBytes_completes {len : Idx} (hs : s.constructed = true)
    (hne : s.isPeekEmpty = false) (ht : s.consumerTakes (planPeekBytes len s).n = true) :
    exec (.peekBytes true len) s = .next (s.bytesPeeked len) :=
  (exec_peekBytes hs hne).trans
    (advance_delivery_completes (planPeekBytes_visits h len) rfl (Nat.zero_le _) (Nat.zero_le _) ht)

/-- The bytes delivered are those of the content from the peek offset on (44_peek.md rule R176(d)). -/
theorem State.bytesPeeked_dout (len : Idx) :
    (s.bytesPeeked len).dout =
      s.dout ++ (s.content.drop s.peekOffset).take (min len.toNat s.peekLength.toNat) := by
  obtain ⟨-, -, -, -, -, hpl, -⟩ := s.cursorInv_linear h
  have hn : s.peekOffset + min len.toNat s.peekLength.toNat ≤ s.length.toNat := by
    rw [State.peekOffset]
    omega
  rw [s.take_drop_content hn]
  refine congrArg (s.dout ++ ·) (List.map_congr_left fun k _ => ?_)
  rw [Nat.zero_add, State.peekCursor_add_mod h]
  rfl

/-- The bytes not yet peeked, counted as the queue counts them. -/
theorem State.length_content_sub_peekOffset :
    s.content.length - s.peekOffset = s.peekLength.toNat := by
  obtain ⟨-, -, -, -, -, hpl, -⟩ := s.cursorInv_linear h
  rw [s.length_content, State.peekOffset]
  exact Nat.sub_sub_self hpl

theorem peekByte_actsAsQueue (hs : s.constructed = true) : ActsAsQueue .peekByte s := by
  have hrest := State.length_content_sub_peekOffset h
  cases he : s.isPeekEmpty with
  | true =>
    have hnone : s.content.drop s.peekOffset = [] := by
      rw [← List.length_eq_zero_iff, List.length_drop, hrest, ← s.isPeekEmpty_iff, he]
    exact .of_respond (exec_peekByte_of_isPeekEmpty hs he) rfl rfl
      (Fifo.command_peekByte_nil hnone)
  | false =>
    have hone : 1 ≤ s.peekLength.toNat := s.isPeekEmpty_eq_false_iff.1 he
    have hlt : s.peekOffset < s.length.toNat := by
      rw [s.length_content] at hrest
      omega
    have hcell : s.windowCell s.peekOffset = s.peekCursor.toNat := by
      obtain ⟨-, -, -, -, -, hpc⟩ := h
      exact hpc.symm
    refine .of_respond (exec_peekByte_of_not_isPeekEmpty h hs he) rfl
      (State.fifo_eq (s := s) rfl rfl (State.peekOffset_of_cursors_peeked h hone rfl)) ?_
    rw [Fifo.command_peekByte_cons (s.drop_content_eq_cons hlt), hcell, byteValue_toNat]
    rfl

theorem peekBytes_actsAsQueue (hs : s.constructed = true) {bufPresent : Bool} {len : Idx}
    (hserve : s.streamsServe (.peekBytes bufPresent len) = true) :
    ActsAsQueue (.peekBytes bufPresent len) s := by
  cases bufPresent with
  | false => exact .of_respond (whenConstructed_true hs) rfl rfl rfl
  | true =>
    have hq : s.fifo.command (.peekBytes true len) s.din =
        ({ s.fifo with peeked := s.peekOffset + min len.toNat s.peekLength.toNat },
          ⟨.ok, min len.toNat s.peekLength.toNat,
            (s.content.drop s.peekOffset).take (min len.toNat s.peekLength.toNat)⟩) := by
      rw [← State.length_content_sub_peekOffset h]
      rfl
    cases he : s.isPeekEmpty with
    | true =>
      rw [s.isPeekEmpty_iff.1 he, Nat.min_zero] at hq
      exact .of_respond (exec_peekBytes_of_isPeekEmpty hs he) rfl rfl hq
    | false =>
      refine ⟨_, exec_peekBytes_completes h hs he hserve, ?_⟩
      rw [hq]
      exact ⟨State.fifo_eq (s := s) rfl rfl
          (State.peekOffset_of_cursors_peeked h (Nat.min_le_right _ _) rfl),
        rfl, State.bytesPeeked_dout h len⟩

/-! ## Pops (rules R160 and R161) -/

theorem PoppedTo.fifo_eq {t : State} {n : Nat} (ht : PoppedTo s n t) (hn : n ≤ s.length.toNat) :
    t.fifo = { s.fifo with bytes := s.content.drop n, peeked := 0 } :=
  State.fifo_eq ht.configuration_eq (ht.content_eq h hn) ht.peekOffset_eq

theorem popByte_actsAsQueue (hs : s.constructed = true) : ActsAsQueue .popByte s := by
  cases he : s.isEmpty with
  | true =>
    exact .of_respond (exec_popByte_of_isEmpty hs he) rfl rfl
      (Fifo.command_popByte_nil (s.content_eq_nil_iff.2 he))
  | false =>
    have hone : 1 ≤ s.length.toNat := s.isEmpty_eq_false_iff.1 he
    refine .of_respond (exec_popByte_of_not_isEmpty h hs he) rfl
      (s.bytePopped_poppedTo.fifo_eq h hone) ?_
    rw [byteValue_toNat]
    exact Fifo.command_popByte_cons (State.content_eq_head_cons h hone)

theorem popBytes_actsAsQueue (hs : s.constructed = true) {bufPresent : Bool} {len : Idx}
    (hserve : s.streamsServe (.popBytes bufPresent len) = true) :
    ActsAsQueue (.popBytes bufPresent len) s := by
  cases bufPresent with
  | false => exact .of_respond (whenConstructed_true hs) rfl rfl rfl
  | true =>
    have hq : s.fifo.command (.popBytes true len) s.din =
        ({ s.fifo with bytes := s.content.drop (min len.toNat s.length.toNat), peeked := 0 },
          ⟨.ok, min len.toNat s.length.toNat, s.content.take (min len.toNat s.length.toNat)⟩) := by
      rw [← s.length_content]
      rfl
    cases he : s.isEmpty with
    | true =>
      have hl := s.isEmpty_iff.1 he
      have hoffset : s.peekOffset = 0 := Nat.eq_zero_of_le_zero (hl ▸ s.peekOffset_le)
      rw [hl, Nat.min_zero] at hq
      exact .of_respond (exec_popBytes_of_isEmpty hs he) rfl (State.fifo_eq rfl rfl hoffset) hq
    | false =>
      have ht := s.bytesPopped_poppedTo len
      refine ⟨_, exec_popBytes_completes h hs he hserve, ?_⟩
      rw [hq]
      exact ⟨ht.fifo_eq h (Nat.min_le_right _ _), rfl, s.bytesPopped_dout len⟩

end

/-! ## Pushes (42_push.md rules R140 and R141) -/

/-- The queue's push is the arbiter's: what it grants, after what it evicts. -/
theorem State.fifo_push (s : State) {req n e : Nat} (data : List Byte)
    (harb : s.arbitrate (min req s.capacity.toNat) = (n, e)) :
    s.fifo.push req data =
      (n, { s.fifo with
        bytes := s.content.drop e ++ data.take n, peeked := if e = 0 then s.peekOffset else 0 }) := by
  have hroom : s.fifo.capacity - s.fifo.bytes.length = s.free := by
    rw [State.free, ← s.length_content]
    rfl
  simp only [Fifo.push, hroom]
  rcases s.arbitrate_cases (min req s.capacity.toNat) with ⟨hle, e'⟩ | ⟨hlt, ho, e'⟩ | ⟨hlt, ho, e'⟩
  · cases harb.symm.trans e'
    exact if_pos hle
  · cases harb.symm.trans e'
    have hpos : ¬min req s.capacity.toNat - s.free = 0 := by omega
    rw [if_neg hpos]
    exact (if_neg (not_le.2 hlt)).trans (if_pos ho)
  · cases harb.symm.trans e'
    exact (if_neg (not_le.2 hlt)).trans (if_neg (by simp [State.fifo, ho]))

section
variable {s : State} (h : CursorInv s.capacity.toNat s.cursors)
include h

theorem PushedTo.fifo_eq {t : State} {req n e : Nat} {data : List Byte} (ht : PushedTo s n e data t)
    (harb : s.arbitrate (min req s.capacity.toNat) = (n, e)) :
    t.fifo = (s.fifo.push req data).2 := by
  have hreq : min req s.capacity.toNat ≤ s.capacity.toNat := Nat.min_le_right _ _
  rw [s.fifo_push data harb]
  exact State.fifo_eq ht.configuration_eq (ht.content_eq h harb hreq) (ht.peekOffset_eq h harb hreq)

theorem pushByte_actsAsQueue (hs : s.constructed = true) (byte : Byte) :
    ActsAsQueue (.pushByte byte) s := by
  have hone : min 1 s.capacity.toNat = 1 := Nat.min_eq_left h.1
  have harb := (congrArg s.arbitrate hone).trans (State.arbitrate_one h)
  by_cases hrej : (s.isFull && !s.overwriteEnabled) = true
  · rw [if_pos hrej] at harb
    exact .of_respond (exec_pushByte_of_full hs hrej) rfl rfl
      (if_pos (congrArg Prod.fst (s.fifo_push [byte] harb)))
  · rw [if_neg hrej] at harb
    have ht := State.bytePushed_pushedTo h byte (if s.isFull then 1 else 0)
    have hgranted : (s.fifo.push 1 [byte]).1 = 1 := congrArg Prod.fst (s.fifo_push [byte] harb)
    exact .of_respond (exec_pushByte_accepted h byte hs hrej) rfl (ht.fifo_eq h harb)
      (if_neg (by simp [hgranted]))

theorem pushBytes_actsAsQueue (hs : s.constructed = true) {bufPresent : Bool} {len : Idx}
    (hserve : s.streamsServe (.pushBytes bufPresent len) = true) :
    ActsAsQueue (.pushBytes bufPresent len) s := by
  cases bufPresent with
  | false => exact .of_respond (whenConstructed_true hs) rfl rfl rfl
  | true =>
    have hdin : (planPushBytes len s).n ≤ s.din.length := of_decide_eq_true hserve
    have ht := State.bytesPushed_pushedTo h rfl hdin
    have hnext := State.bytesPushed_eq h rfl hdin
    have hn := congrArg Prod.fst (s.fifo_push (req := len.toNat) s.din rfl)
    refine ⟨_, exec_pushBytes_completes h rfl hdin hs, ht.fifo_eq h rfl, ?_, ?_⟩
    · exact (congrArg State.rsp hnext).trans (by rw [← hn]; rfl)
    · exact (congrArg State.dout hnext).trans (List.append_nil _).symm

end

/-! ## Every command -/

/-- The simulation step: the bounded queue is kept through every command whose streams serve. -/
theorem exec_actsAsQueue {i : Instr} {s : State} (h : CursorInv s.capacity.toNat s.cursors)
    (hs : s.constructed = true) (hserve : s.streamsServe i = true) : ActsAsQueue i s := by
  cases i with
  | construct bufPresent ovw capacity => exact construct_actsAsQueue bufPresent ovw capacity s
  | reset => exact reset_actsAsQueue hs
  | pushByte byte => exact pushByte_actsAsQueue h hs byte
  | pushBytes => exact pushBytes_actsAsQueue h hs hserve
  | popByte => exact popByte_actsAsQueue h hs
  | popBytes => exact popBytes_actsAsQueue h hs hserve
  | peekByte => exact peekByte_actsAsQueue h hs
  | peekBytes => exact peekBytes_actsAsQueue h hs hserve
  | resetPeek => exact resetPeek_actsAsQueue hs
  | commitPeeked => exact commitPeeked_actsAsQueue hs h
  | getPeekOffset => exact getPeekOffset_actsAsQueue hs
  | restorePeekOffset count => exact restorePeekOffset_actsAsQueue hs count
  | isEmpty => exact isEmpty_actsAsQueue hs
  | count => exact count_actsAsQueue hs
  | availableCount => exact availableCount_actsAsQueue hs
  | isPeekEmpty => exact isPeekEmpty_actsAsQueue hs h

/-- No command undoes a construction (00_scope.md rule R6). -/
theorem constructed_of_exec {i : Instr} {s t : State} (hs : s.constructed = true)
    (e : exec i s = .next t) : t.constructed = true := by
  by_cases hc : t.configuration = s.configuration
  · exact (State.configuration_eq_iff.1 hc).1.trans hs
  · obtain ⟨ovw, capacity, -, -, ht⟩ := exec_changes_configuration e hc
    exact congrArg Prod.fst ht

/-- Settles O57: the simulation step, and the command completes. -/
theorem commandsActAsOnABoundedQueue : Obligations.CommandsActAsOnABoundedQueue := by
  unfold Obligations.CommandsActAsOnABoundedQueue
  intro i s hinv hs hw hserve
  obtain ⟨t, e, hfifo, hrsp, hdout⟩ := exec_actsAsQueue (hinv.cursorInv hs) hs hserve
  obtain ⟨t', e', hdone⟩ := exec_responds ⟨hinv, hw⟩ hserve
  cases e.symm.trans e'
  exact ⟨t, e, constructed_of_exec hs e, hdone.work_eq, hfifo, hrsp, hdout⟩

/-! ## Programs -/

/-- The host of a run does its stream duties for a well-formed command: the data is as long as the request,
and every byte of `dout` is taken (30_encoding.md rule R90). -/
theorem streamsServe_presentCommand {c : Command} (hc : c.wellFormed = true) (s : State) :
    (presentCommand c s).streamsServe c.instr = true := by
  obtain ⟨i, data⟩ := c
  have hlen : data.length = i.dataLength := beq_iff_eq.1 hc
  cases i with
  | pushBytes bufPresent len =>
    cases bufPresent with
    | false => rfl
    | true =>
      refine decide_eq_true ?_
      calc (planPushBytes len (presentCommand ⟨.pushBytes true len, data⟩ s)).n
          ≤ min len.toNat s.capacity.toNat := State.arbitrate_fst_le _ _
        _ ≤ len.toNat := Nat.min_le_left _ _
        _ = data.length := hlen.symm
  | popBytes bufPresent => cases bufPresent <;> rfl
  | peekBytes bufPresent => cases bufPresent <;> rfl
  | _ => rfl

/-- One command of a run: the response before it is taken, and then the queue's answer waits. -/
theorem runCommand_shows {c : Command} {s : State} (h : Launch s) (hs : s.constructed = true)
    (hc : c.wellFormed = true) :
    ∃ t, runCommand c s = .next t ∧ Launch t ∧ t.constructed = true ∧
      t.rspLog = s.rspLog ++ s.rsp.toList ∧
      Shows c.instr.opcode s (s.fifo.command c.instr c.data) t := by
  have haccepted : Launch ((presentCommand c s).accepted []) := h.congr rfl rfl rfl rfl rfl h.2
  have hserve : ((presentCommand c s).accepted []).streamsServe c.instr = true :=
    ((presentCommand c s).streamsServe_accepted [] c.instr).trans (streamsServe_presentCommand hc s)
  rw [runCommand_eq c s hc h.2 (decode_encode _)]
  obtain ⟨t, e, hfifo, hrsp, hdout⟩ := exec_actsAsQueue (haccepted.1.cursorInv hs) hs hserve
  obtain ⟨t₁, e₁, hinv⟩ := exec_wellFormed haccepted rfl c.instr
  obtain ⟨t₂, e₂, hdone⟩ := exec_responds haccepted hserve
  cases e.symm.trans e₁
  cases e.symm.trans e₂
  have htc := constructed_of_exec (s := (presentCommand c s).accepted []) hs e
  exact ⟨t, e, ⟨hinv, hdone.work_eq⟩, htc, hdone.rspLog_eq, hfifo, hrsp, hdout⟩

/-- By induction on the program: after each command the rest runs on the queue that the command left. -/
theorem runProgram_shows (cs : List Command) {s : State} (hcs : ∀ c ∈ cs, c.wellFormed = true)
    (h : Launch s) (hs : s.constructed = true) :
    ∃ t, runProgram cs s = .next t ∧ Launch t ∧ t.constructed = true ∧ t.fifo = (s.fifo.run cs).1 ∧
      t.rsp = none ∧ t.rspLog = s.rspLog ++ s.rsp.toList ++ (s.fifo.run cs).2.1 ∧
      t.dout = s.dout ++ (s.fifo.run cs).2.2 := by
  induction cs generalizing s with
  | nil =>
    refine ⟨_, endRun_eq s h.2, h.congr rfl rfl rfl rfl rfl h.2, hs, rfl, rfl, ?_, ?_⟩
    · exact (List.append_nil _).symm
    · exact (List.append_nil _).symm
  | cons c cs ih =>
    obtain ⟨hc, hcs⟩ := List.forall_mem_cons.1 hcs
    obtain ⟨t, e, ht, htc, hlog, hfifo, hrsp, hdout⟩ := runCommand_shows h hs hc
    obtain ⟨u, e', hu, huc, hufifo, hursp, hulog, hudout⟩ := ih hcs ht htc
    rw [hfifo] at hufifo hulog hudout
    refine ⟨u, (runProgram_cons e).trans e', hu, huc, hufifo, hursp, ?_, ?_⟩
    · rw [hulog, hlog, hrsp, Option.toList_some, List.append_assoc, List.singleton_append]
      rfl
    · rw [hudout, hdout, List.append_assoc]
      rfl

/-- Settles O58: the run over the whole program, its launch state taken apart. -/
theorem programsRunAsOnABoundedQueue : Obligations.ProgramsRunAsOnABoundedQueue := by
  unfold Obligations.ProgramsRunAsOnABoundedQueue
  intro cs s hcs hinv hs hw
  obtain ⟨t, e, ⟨htinv, htw⟩, htc, hshows⟩ := runProgram_shows cs hcs ⟨hinv, hw⟩ hs
  exact ⟨t, e, htinv, htc, htw, hshows⟩

end Sys2Proof.Machine

/-!
PROOFS. The peek tracker (44_peek.md): what all its commands but the commit leave alone, said once; what a
peek of `n` bytes leaves, said once for both commands; the whole next states; the four laws of rule R176.
-/

namespace Sys2Proof.Machine

/-! ## What a look-ahead leaves alone -/

/-- `SameQueue s t`: the configuration, the storage and the cursors of `t` are those of `s` but for the peek
window, which a resynchronisation would make the same too. -/
structure SameQueue (s t : State) : Prop where
  configuration_eq : t.configuration = s.configuration
  resyncPeek_eq : t.cursors.resyncPeek = s.cursors.resyncPeek
  storage_eq : t.storage = s.storage

namespace SameQueue

variable {s t u : State}

theorem trans (h : SameQueue s t) (h' : SameQueue t u) : SameQueue s u :=
  ⟨h'.configuration_eq.trans h.configuration_eq, h'.resyncPeek_eq.trans h.resyncPeek_eq,
    h'.storage_eq.trans h.storage_eq⟩

variable (h : SameQueue s t)
include h

theorem head_eq : t.head = s.head := congrArg Cursors.head h.resyncPeek_eq

theorem length_eq : t.length = s.length := congrArg Cursors.length h.resyncPeek_eq

theorem memRead_eq (a : Nat) : t.memRead a = s.memRead a := by
  rw [State.memRead, h.storage_eq]
  rfl

/-- A look-ahead does not change the content (rule R176(d)). -/
theorem content_eq : t.content = s.content := by
  obtain ⟨-, hcap, -⟩ := State.configuration_eq_iff.1 h.configuration_eq
  simp only [State.content, State.windowCell, h.head_eq, h.length_eq, hcap, h.memRead_eq]

/-- The status outputs that are not about the peek window (10_state.md rule R28). -/
theorem status_eq : t.stEmpty = s.stEmpty ∧ t.stFull = s.stFull ∧ t.stCount = s.stCount ∧
    t.stAvail = s.stAvail := by
  obtain ⟨hs, hcap, -⟩ := State.configuration_eq_iff.1 h.configuration_eq
  simp only [State.stEmpty, State.isEmpty, State.stFull, State.stCount, State.stAvail, State.free,
    h.length_eq, hs, hcap, and_self]

end SameQueue

/-! ## The registers of a peek -/

/-- `PeekedTo s n t`: from `s` to `t` the peek window has given up its first `n` bytes (rules R170 and
R171). -/
structure PeekedTo (s : State) (n : Nat) (t : State) : Prop where
  configuration_eq : t.configuration = s.configuration
  cursors_eq : t.cursors = s.cursors.peeked s.capacity.toNat n
  storage_eq : t.storage = s.storage

namespace PeekedTo

variable {s t : State} {n : Nat} (ht : PeekedTo s n t)
include ht

theorem sameQueue : SameQueue s t :=
  ⟨ht.configuration_eq, (congrArg Cursors.resyncPeek ht.cursors_eq).trans rfl, ht.storage_eq⟩

theorem stPeekEmpty_of_all (hall : n = s.peekLength.toNat) : t.stPeekEmpty = true := by
  have hpeek : t.peekLength = toIdx (s.peekLength.toNat - n) :=
    congrArg Cursors.peekLength ht.cursors_eq
  rw [State.stPeekEmpty, State.isPeekEmpty, hpeek, hall, Nat.sub_self]
  rfl

end PeekedTo

/-! ## PEEK_BYTE (rule R170) -/

theorem State.bytePeeked_peekedTo (s : State) (op : BitVec 4) (status : Status) (value : Idx) :
    PeekedTo s 1 (s.bytePeeked.respond op status value) := ⟨rfl, rfl, rfl⟩

section
variable {s : State} (h : CursorInv s.capacity.toNat s.cursors)
include h

/-- The whole next state. -/
theorem State.bytePeeked_respond_eq (hone : 1 ≤ s.peekLength.toNat) :
    s.bytePeeked.respond 0x6#4 .ok (byteValue (s.memRead s.peekCursor.toNat)) = { s with
      peekCursor := toIdx ((s.peekCursor.toNat + 1) % s.capacity.toNat),
      peekLength := toIdx (s.peekLength.toNat - 1),
      trace := s.trace ++ [⟨false, s.peekCursor, s.memRead s.peekCursor.toNat⟩],
      rsp := some
        (responseWord 0x6#4 .ok (BitVec.setWidth 16 (s.memRead s.peekCursor.toNat))) } := by
  rw [State.bytePeeked, State.cursors_peeked_eq h hone]
  simp [State.respond, State.withCursors, State.readCells, byteValue]

/-- The byte at the peek cursor is that of the content at the peek offset (I6 of 10_state.md rule R30). -/
theorem State.getElem?_content_peekOffset (hone : 1 ≤ s.peekLength.toNat) :
    s.content[s.peekOffset]? = some (s.memRead s.peekCursor.toNat) := by
  obtain ⟨-, -, -, -, -, hpl, -⟩ := s.cursorInv_linear h
  have hlt : s.peekOffset < s.length.toNat := by
    rw [State.peekOffset]
    omega
  have hcell : s.windowCell s.peekOffset = s.peekCursor.toNat := by
    obtain ⟨-, -, -, -, -, hpc⟩ := h
    exact hpc.symm
  rw [State.content, List.getElem?_map, List.getElem?_range hlt, Option.map_some, hcell]

end

/-- Settles O41: the two rejections, then a peek of one byte. -/
theorem peekByteRule : Obligations.PeekByteRule := by
  unfold Obligations.PeekByteRule
  intro s hinv
  refine ⟨fun hs => whenConstructed_false hs, fun hs hz => ?_, fun hs hnz => ?_⟩
  · exact exec_peekByte_of_isPeekEmpty hs (beq_iff_eq.2 hz)
  · have h := hinv.cursorInv hs
    have hone : 1 ≤ s.peekLength.toNat := Nat.one_le_iff_ne_zero.2 (mt (idx_eq_zero_iff _).2 hnz)
    have ht := s.bytePeeked_peekedTo 0x6#4 .ok (byteValue (s.memRead s.peekCursor.toNat))
    exact ⟨_, exec_peekByte_of_not_isPeekEmpty h hs (s.isPeekEmpty_eq_false_iff.2 hone),
      State.bytePeeked_respond_eq h hone, ht.sameQueue.memRead_eq,
      fun hlast => ht.stPeekEmpty_of_all (by simp [hlast]), ht.sameQueue.status_eq⟩

/-! ## PEEK_BYTES (rule R171) -/

/-- Either failed check of a command that takes a buffer gives the same answer (60_exceptions.md rule
R208). -/
theorem whenConstructed_whenBuffer_of_fails {op : BitVec 4} {bufPresent : Bool} {s : State}
    {k : Host.Outcome State Fault Refusal} (h : s.constructed = false ∨ bufPresent = false) :
    whenConstructed op s (whenBuffer op bufPresent s k) = reject op .invalidArgument s := by
  cases hs : s.constructed with
  | false => exact whenConstructed_false hs
  | true =>
    obtain rfl := h.resolve_left (by simp [hs])
    exact whenConstructed_true hs

theorem State.bytesPeeked_peekedTo (s : State) (len : Idx) :
    PeekedTo s (min len.toNat s.peekLength.toNat) (s.bytesPeeked len) := ⟨rfl, rfl, rfl⟩

/-- The whole next state. -/
theorem State.bytesPeeked_eq {s : State} (h : CursorInv s.capacity.toNat s.cursors) {len : Idx} {n : Nat}
    (hn : min len.toNat s.peekLength.toNat = n) :
    s.bytesPeeked len = { s with
      peekCursor := toIdx ((s.peekCursor.toNat + n) % s.capacity.toNat),
      peekLength := toIdx (s.peekLength.toNat - n),
      work := none, doutLimit := s.doutLimitAfter n,
      dout := s.dout ++ (List.range n).map
        (fun k => s.memRead ((s.peekCursor.toNat + k) % s.capacity.toNat)),
      trace := s.trace ++ (List.range n).map (fun k =>
        ⟨false, toIdx ((s.peekCursor.toNat + k) % s.capacity.toNat),
          s.memRead ((s.peekCursor.toNat + k) % s.capacity.toNat)⟩),
      rsp := some (responseWord 0x7#4 .ok (toIdx n)) } := by
  subst hn
  have hc : (planPeekBytes len s).cursors = _ := State.cursors_peeked_eq h (Nat.min_le_right _ _)
  rw [State.bytesPeeked, Work.commit_eq, hc, State.delivered]
  simp only [Nat.zero_add]
  rfl

/-- Settles O42: the rejections, the empty peek window, then a delivery that ends. -/
theorem peekBytesRule : Obligations.PeekBytesRule := by
  unfold Obligations.PeekBytesRule
  intro bufPresent len s hinv
  refine ⟨whenConstructed_whenBuffer_of_fails, fun hs hb hz => ?_, fun hs hb hnz => ?_⟩
  · subst hb
    exact exec_peekBytes_of_isPeekEmpty hs (beq_iff_eq.2 hz)
  · intro C n hserve
    subst hb
    have h := hinv.cursorInv hs
    have ht : PeekedTo s n (s.bytesPeeked len) := s.bytesPeeked_peekedTo len
    exact ⟨_, exec_peekBytes_completes h hs (beq_eq_false_iff_ne.2 hnz) hserve,
      State.bytesPeeked_eq h rfl, ht.sameQueue.memRead_eq, ht.stPeekEmpty_of_all,
      ht.sameQueue.status_eq⟩

/-! ## RESET_PEEK (rule R172) -/

theorem exec_resetPeek_of_constructed {s : State} (hs : s.constructed = true) :
    exec .resetPeek s = respondOk 0x8#4 0#16 (s.withCursors s.cursors.resyncPeek) :=
  whenConstructed_true hs

/-- Settles O44: a rejection, then a resynchronisation. -/
theorem resetPeekRule : Obligations.ResetPeekRule := by
  unfold Obligations.ResetPeekRule
  refine fun s => ⟨fun hs => whenConstructed_false hs, fun hs => ?_⟩
  have ht : SameQueue s ((s.withCursors s.cursors.resyncPeek).respond 0x8#4 .ok 0#16) :=
    ⟨rfl, rfl, rfl⟩
  exact ⟨_, exec_resetPeek_of_constructed hs, rfl, ht.memRead_eq, rfl, ht.status_eq⟩

/-! ## COMMIT_PEEKED (rule R173) -/

theorem exec_commitPeeked_of_constructed {s : State} (hs : s.constructed = true) :
    exec .commitPeeked s = respondOk 0x9#4 0#16 (s.withCursors s.cursors.committed) :=
  whenConstructed_true hs

section
variable {s : State} (h : CursorInv s.capacity.toNat s.cursors)
include h

theorem State.peekLength_add_peekOffset : s.peekLength.toNat + s.peekOffset = s.length.toNat := by
  obtain ⟨-, -, -, -, -, hpl, -⟩ := s.cursorInv_linear h
  exact Nat.add_sub_cancel' hpl

theorem State.peekLength_eq_length_of_peekOffset (hp : s.peekOffset = 0) :
    s.peekLength = s.length := by
  have hsum := State.peekLength_add_peekOffset h
  rw [hp, Nat.add_zero] at hsum
  exact BitVec.toNat_inj.1 hsum

end

/-- Settles O45: the registers after the commit, then the status outputs by the bytes committed. -/
theorem commitPeekedRule : Obligations.CommitPeekedRule := by
  unfold Obligations.CommitPeekedRule
  refine fun s hinv => ⟨fun hs => whenConstructed_false hs, fun hs => ?_⟩
  have h := hinv.cursorInv hs
  obtain ⟨-, -, -, -, hl, -⟩ := s.cursorInv_linear h
  have hsum := State.peekLength_add_peekOffset h
  obtain ⟨-, -, -, htail, -⟩ := h.committed
  refine ⟨_, exec_commitPeeked_of_constructed hs, rfl, fun _ => rfl, Nat.sub_self _, rfl, ?_, rfl,
    fun hne => ?_, fun hp => ?_, htail⟩
  · rw [State.stAvail_toNat, State.stAvail_toNat]
    change s.capacity.toNat - s.peekLength.toNat = _
    omega
  · have hlt : s.peekLength ≠ s.capacity := fun he => by
      rw [he] at hsum
      omega
    simp [State.stFull, Cursors.committed, State.cursors, hlt]
  · have hpl := State.peekLength_eq_length_of_peekOffset h hp
    exact ⟨State.peekCursor_eq_head h hpl, hpl⟩

/-! ## GET_PEEK_OFFSET (rule R174) -/

theorem State.toIdx_peekOffset_toNat (s : State) : (toIdx s.peekOffset).toNat = s.peekOffset :=
  toIdx_toNat (s.peekOffset_le.trans_lt (idx_lt _))

theorem exec_getPeekOffset_of_constructed {s : State} (hs : s.constructed = true) :
    exec .getPeekOffset s = respondOk 0xA#4 (toIdx s.peekOffset) s := whenConstructed_true hs

/-- Settles O46: the offset fits its register, so the answer is the offset. -/
theorem getPeekOffsetRule : Obligations.GetPeekOffsetRule := by
  unfold Obligations.GetPeekOffsetRule
  refine fun s hinv => ⟨fun hs => whenConstructed_false hs, fun hs => ?_⟩
  have h := hinv.cursorInv hs
  obtain ⟨-, -, -, -, hl, -⟩ := s.cursorInv_linear h
  refine ⟨_, toIdx s.peekOffset, exec_getPeekOffset_of_constructed hs, rfl, fun _ => rfl, ?_, ?_,
    fun hfull hp => ?_⟩
  · rw [s.toIdx_peekOffset_toNat, Nat.add_comm, State.peekLength_add_peekOffset h]
  · rw [s.toIdx_peekOffset_toNat]
    exact s.peekOffset_le.trans hl
  · rw [State.peekOffset, hp, hfull]
    exact toIdx_of_toNat _

/-! ## RESTORE_PEEK_OFFSET (rule R175) -/

theorem exec_restorePeekOffset_of_fails {s : State} {count : Idx}
    (h : s.constructed = false ∨ s.length.toNat < count.toNat) :
    exec (.restorePeekOffset count) s = reject 0xB#4 .invalidArgument s := by
  cases hs : s.constructed with
  | false => exact whenConstructed_false hs
  | true => exact (whenConstructed_true hs).trans (if_pos (h.resolve_left (by simp [hs])))

/-- The state after a RESTORE_PEEK_OFFSET that is not rejected. -/
def State.peekRestored (s : State) (count : Idx) : State :=
  (s.withCursors (s.cursors.restored s.capacity.toNat count.toNat)).respond 0xB#4 .ok 0#16

/-- The whole next state. -/
theorem State.peekRestored_eq {s : State} {count : Idx} (h : CursorInv s.capacity.toNat s.cursors)
    (hle : count.toNat ≤ s.length.toNat) :
    s.peekRestored count = { s with
      peekCursor := toIdx ((s.head.toNat + count.toNat) % s.capacity.toNat),
      peekLength := toIdx (s.length.toNat - count.toNat),
      rsp := some (responseWord 0xB#4 .ok 0#16) } := by
  obtain ⟨-, hhead, -, -, hl, -⟩ := s.cursorInv_linear h
  rw [← wrap_eq_mod (by omega)]
  rfl

theorem State.peekRestored_peekLength_toNat (s : State) (count : Idx) :
    (s.peekRestored count).peekLength.toNat = s.length.toNat - count.toNat :=
  toIdx_toNat ((Nat.sub_le _ _).trans_lt (idx_lt _))

/-- Settles O47: the two corners are those of 10_state.md rule R31 (c) and (d), in the next state. -/
theorem restorePeekOffsetRule : Obligations.RestorePeekOffsetRule := by
  unfold Obligations.RestorePeekOffsetRule
  refine fun count s hinv => ⟨exec_restorePeekOffset_of_fails, fun hs hle => ?_⟩
  have h := hinv.cursorInv hs
  have h' : CursorInv s.capacity.toNat (s.peekRestored count).cursors :=
    CursorInv.restored (c := s.cursors) (idx_lt _) h hle
  have hlen := s.peekRestored_peekLength_toNat count
  have hall : (s.peekRestored count).peekLength = 0#16 ↔ count = s.length := by
    rw [idx_eq_zero_iff, hlen, ← BitVec.toNat_inj]
    omega
  refine ⟨s.peekRestored count, exec_restorePeekOffset_of_le hs hle, State.peekRestored_eq h hle,
    fun _ => rfl, beq_iff_eq.trans hall, fun hzero => ?_, fun he => ?_⟩
  · have hpl : (s.peekRestored count).peekLength = s.length := by
      rw [← BitVec.toNat_inj, hlen, (idx_eq_zero_iff _).1 hzero, Nat.sub_zero]
    exact ⟨State.peekCursor_eq_head h' hpl, hpl⟩
  · have hpl := hall.2 he
    exact ⟨State.peekCursor_eq_tail h' hpl, hpl⟩

/-! ## The content (rule R176(d)) -/

/-- Settles O52: each command leaves what a peek of its bytes leaves. -/
theorem peekReadsTheContentAtTheOffset : Obligations.PeekReadsTheContentAtTheOffset := by
  unfold Obligations.PeekReadsTheContentAtTheOffset
  refine ⟨fun s t hinv hs hnz e => ?_, fun len s t hinv hs hnz e hw => ?_⟩
  · have h := hinv.cursorInv hs
    have hne : s.isPeekEmpty = false := beq_eq_false_iff_ne.2 hnz
    have hone : 1 ≤ s.peekLength.toNat := s.isPeekEmpty_eq_false_iff.1 hne
    have ht := s.bytePeeked_peekedTo 0x6#4 .ok (byteValue (s.memRead s.peekCursor.toNat))
    cases (exec_peekByte_of_not_isPeekEmpty h hs hne).symm.trans e
    exact ⟨_, State.getElem?_content_peekOffset h hone, ht.sameQueue.content_eq,
      State.peekOffset_of_cursors_peeked h hone ht.cursors_eq, rfl⟩
  · have h := hinv.cursorInv hs
    have hne : s.isPeekEmpty = false := beq_eq_false_iff_ne.2 hnz
    have hserve : s.consumerTakes (planPeekBytes len s).n = true :=
      consumerTakes_of_advance (planPeekBytes_visits h len) rfl rfl rfl
        ((exec_peekBytes hs hne).symm.trans e) hw
    have ht := s.bytesPeeked_peekedTo len
    cases (exec_peekBytes_completes h hs hne hserve).symm.trans e
    exact ⟨State.bytesPeeked_dout h len, ht.sameQueue.content_eq,
      State.peekOffset_of_cursors_peeked h (Nat.min_le_right _ _) ht.cursors_eq⟩

/-! ## Peeks and a rollback (rule R176(a)) -/

/-- A command that peeks. -/
def IsPeek (i : Instr) : Prop := i = .peekByte ∨ ∃ len, i = .peekBytes true len

/-- A peek whose consumer takes every byte changes nothing but the peek window. -/
theorem IsPeek.exec_sameQueue {i : Instr} (hi : IsPeek i) {s : State}
    (h : CursorInv s.capacity.toNat s.cursors) (hs : s.constructed = true)
    (hl : s.doutLimit = none) : ∃ t, exec i s = .next t ∧ SameQueue s t := by
  rcases hi with rfl | ⟨len, rfl⟩
  · cases he : s.isPeekEmpty with
    | true => exact ⟨_, exec_peekByte_of_isPeekEmpty hs he, rfl, rfl, rfl⟩
    | false =>
      exact ⟨_, exec_peekByte_of_not_isPeekEmpty h hs he, (s.bytePeeked_peekedTo _ _ _).sameQueue⟩
  · cases he : s.isPeekEmpty with
    | true => exact ⟨_, exec_peekBytes_of_isPeekEmpty hs he, rfl, rfl, rfl⟩
    | false =>
      exact ⟨_, exec_peekBytes_completes h hs he (by simp [State.consumerTakes, hl]),
        (s.bytesPeeked_peekedTo len).sameQueue⟩

theorem IsPeek.wellFormed {c : Command} (hi : IsPeek c.instr) (hd : c.data = []) :
    c.wellFormed = true := by
  rcases hi with e | ⟨len, e⟩ <;> simp [Command.wellFormed, hd, e, Instr.dataLength]

/-- A peek of a run. -/
theorem IsPeek.runCommand_sameQueue {c : Command} (hi : IsPeek c.instr) (hd : c.data = []) {s : State}
    (h : Launch s) (hs : s.constructed = true) :
    ∃ t, runCommand c s = .next t ∧ Launch t ∧ SameQueue s t := by
  obtain ⟨t, e, ht, -⟩ := runCommand_shows h hs (hi.wellFormed hd)
  have hpresented : SameQueue s ((presentCommand c s).accepted []) := ⟨rfl, rfl, rfl⟩
  obtain ⟨t', e', hsame⟩ := hi.exec_sameQueue (s := (presentCommand c s).accepted [])
    (h.1.cursorInv hs) hs rfl
  rw [← runCommand_eq c s (hi.wellFormed hd) h.2 (decode_encode _)] at e'
  cases e.symm.trans e'
  exact ⟨t, e, ht, hpresented.trans hsame⟩

/-- A rollback of a run. -/
theorem runCommand_resetPeek {s : State} (hs : s.constructed = true) (hw : s.work = none) :
    ∃ t, runCommand ⟨.resetPeek, []⟩ s = .next t ∧ t.work = none ∧
      t.cursors = s.cursors.resyncPeek ∧ SameQueue s t := by
  rw [runCommand_eq _ _ rfl hw (decode_encode _)]
  exact ⟨_, exec_resetPeek_of_constructed hs, hw, rfl, rfl, rfl, rfl⟩

/-- By induction on the peeks: each leaves the queue, and the rollback resynchronises the peek window. -/
theorem runProgram_peeks_resetPeek (cs : List Command) {s : State}
    (hcs : ∀ c ∈ cs, IsPeek c.instr ∧ c.data = []) (h : Launch s) (hs : s.constructed = true) :
    ∃ t, runProgram (cs ++ [⟨.resetPeek, []⟩]) s = .next t ∧ t.cursors = s.cursors.resyncPeek ∧
      SameQueue s t := by
  induction cs generalizing s with
  | nil =>
    obtain ⟨t, e, hw, hc, hsame⟩ := runCommand_resetPeek hs h.2
    exact ⟨_, (runProgram_cons e).trans (endRun_eq t hw), hc, hsame.trans ⟨rfl, rfl, rfl⟩⟩
  | cons c cs ih =>
    obtain ⟨⟨hi, hd⟩, hcs⟩ := List.forall_mem_cons.1 hcs
    obtain ⟨t, e, htl, hsame⟩ := hi.runCommand_sameQueue hd h hs
    obtain ⟨htc, -⟩ := State.configuration_eq_iff.1 hsame.configuration_eq
    obtain ⟨u, e', hc, hsame'⟩ := ih hcs htl (htc.trans hs)
    exact ⟨u, (runProgram_cons e).trans e', hc.trans hsame.resyncPeek_eq, hsame.trans hsame'⟩

/-- With nothing peeked a resynchronisation changes nothing. -/
theorem State.cursors_resyncPeek_eq {s : State} (h : CursorInv s.capacity.toNat s.cursors)
    (hp : s.peekLength = s.length) : s.cursors.resyncPeek = s.cursors :=
  h.resyncPeek.ext h rfl rfl hp.symm

/-- Settles O53: the run over the peeks and the rollback, its registers read off. -/
theorem peeksThenRollbackChangeNothing : Obligations.PeeksThenRollbackChangeNothing := by
  unfold Obligations.PeeksThenRollbackChangeNothing
  intro cs s hpeek hdata hinv hs hw
  obtain ⟨t, e, hc, hsame⟩ :=
    runProgram_peeks_resetPeek cs (fun c hmem => ⟨hpeek c hmem, hdata c hmem⟩) ⟨hinv, hw⟩ hs
  exact ⟨t, e, congrArg Cursors.head hc, congrArg Cursors.tail hc, congrArg Cursors.length hc,
    hsame.memRead_eq, fun hp => hc.trans (State.cursors_resyncPeek_eq (hinv.cursorInv hs) hp)⟩

/-! ## A peek and a commit (rule R176(b)) -/

/-- From peek offset 0 a peek and its commit move the cursors as a pop does. -/
theorem Cursors.committed_peeked {C n : Nat} {c : Cursors} (hpc : c.peekCursor = c.head)
    (hpl : c.peekLength = c.length) : (c.peeked C n).committed = c.popped C n := by
  simp only [Cursors.committed, Cursors.peeked, Cursors.popped, Cursors.dropFront,
    Cursors.resyncPeek, hpc, hpl]

/-- Settles O54: both commands deliver the same stretch of the content, and the commit does to the cursors
of the peek what the pop does at once. -/
theorem peekThenCommitIsPop : Obligations.PeekThenCommitIsPop := by
  unfold Obligations.PeekThenCommitIsPop
  intro n s hinv hs hw hlimit hp hn hle
  have h := hinv.cursorInv hs
  have hpos : 0 < s.length.toNat :=
    (Nat.pos_iff_ne_zero.2 (mt (idx_eq_zero_iff _).2 hn)).trans_le hle
  have hserve (k : Nat) : s.consumerTakes k = true := by simp [State.consumerTakes, hlimit]
  have hpeek := exec_peekBytes_completes (len := n) h hs
    (s.isPeekEmpty_eq_false_iff.2 (hp ▸ hpos)) (hserve _)
  have hpop := exec_popBytes_completes (len := n) h hs (s.isEmpty_eq_false_iff.2 hpos) (hserve _)
  refine ⟨_, _, _, hpeek, exec_commitPeeked_of_constructed hs, hpop, ?_, rfl, ?_, rfl, rfl, rfl⟩
  · calc (s.bytesPeeked n).cursors.committed
        = s.cursors.popped s.capacity.toNat (min n.toNat s.peekLength.toNat) :=
          Cursors.committed_peeked (State.peekCursor_eq_head h hp) hp
      _ = (s.bytesPopped n).cursors := by rw [hp, (s.bytesPopped_poppedTo n).cursors_eq]
  · calc (s.bytesPeeked n).dout
        = s.dout ++ (s.content.drop s.peekOffset).take (min n.toNat s.peekLength.toNat) :=
          State.bytesPeeked_dout h n
      _ = (s.bytesPopped n).dout := by
          rw [State.peekOffset, hp, Nat.sub_self, List.drop_zero, s.bytesPopped_dout]

/-! ## A checkpoint and its restoration (rule R176(c)) -/

/-- The peek window at the present peek offset is the present one. -/
theorem State.cursors_restored_peekOffset {s : State} (h : CursorInv s.capacity.toNat s.cursors) :
    s.cursors.restored s.capacity.toNat s.peekOffset = s.cursors := by
  obtain ⟨-, -, -, -, -, hpl, -⟩ := s.cursorInv_linear h
  refine (h.restored (idx_lt _) s.peekOffset_le).ext h rfl rfl ?_
  calc toIdx (s.length.toNat - s.peekOffset)
      = toIdx s.peekLength.toNat := congrArg toIdx (Nat.sub_sub_self hpl)
    _ = s.peekLength := toIdx_of_toNat _

/-- Settles O55: the value answered is the peek offset, which is never beyond the length. -/
theorem checkpointThenRestoreIsNoOp : Obligations.CheckpointThenRestoreIsNoOp := by
  unfold Obligations.CheckpointThenRestoreIsNoOp
  intro s hinv hs
  have hv := s.toIdx_peekOffset_toNat
  refine ⟨_, _, _, exec_getPeekOffset_of_constructed hs, rfl,
    exec_restorePeekOffset_of_le hs (hv.trans_le s.peekOffset_le), ?_, rfl, rfl⟩
  calc s.cursors.restored s.capacity.toNat (toIdx s.peekOffset).toNat
      = s.cursors.restored s.capacity.toNat s.peekOffset := by rw [hv]
    _ = s.cursors := State.cursors_restored_peekOffset (hinv.cursorInv hs)

end Sys2Proof.Machine

/-!
PROOFS. The query commands (45_query.md): each answers with one value read off the registers, and leaves
everything but the response as it was.
-/

namespace Sys2Proof.Machine

/-- A query in an unconstructed controller is rejected (45_query.md rules R190 to R193). -/
theorem exec_query_of_unconstructed {i : Instr} {s : State} (hs : s.constructed = false)
    (hi : i = .isEmpty ∨ i = .count ∨ i = .availableCount ∨ i = .isPeekEmpty) :
    exec i s = reject i.opcode .invalidArgument s := by
  rcases hi with rfl | rfl | rfl | rfl <;> exact whenConstructed_false hs

/-- The answer of an emptiness test, in terms of the register it tests. -/
theorem boolValue_beq (a b : Idx) : boolValue (a == b) = if a = b then 1#16 else 0#16 :=
  if_congr beq_iff_eq rfl rfl

section
variable {s : State} (hs : s.constructed = true)
include hs

theorem exec_isEmpty_of_constructed :
    exec .isEmpty s = respondOk 0xC#4 (if s.length = 0#16 then 1#16 else 0#16) s :=
  (whenConstructed_true hs).trans (congrArg (respondOk 0xC#4 · s) (boolValue_beq s.length 0#16))

theorem exec_count_of_constructed : exec .count s = respondOk 0xD#4 s.length s :=
  whenConstructed_true hs

theorem exec_availableCount_of_constructed : exec .availableCount s = respondOk 0xE#4 s.stAvail s :=
  whenConstructed_true hs

theorem exec_isPeekEmpty_of_constructed :
    exec .isPeekEmpty s = respondOk 0xF#4 (if s.peekLength = 0#16 then 1#16 else 0#16) s :=
  (whenConstructed_true hs).trans
    (congrArg (respondOk 0xF#4 · s) (boolValue_beq s.peekLength 0#16))

end

/-- Settles O48: AVAILABLE_COUNT answers with the status output `st_avail`, which with the length makes up
the capacity. -/
theorem queriesAnswerFromTheRegisters : Obligations.QueriesAnswerFromTheRegisters := by
  unfold Obligations.QueriesAnswerFromTheRegisters
  refine ⟨fun i s hs hi => exec_query_of_unconstructed hs hi, fun s hinv hs => ?_⟩
  have havail : ∃ v : Idx,
      exec .availableCount s = .next { s with rsp := some (responseWord 0xE#4 .ok v) } ∧
        v.toNat + s.length.toNat = s.capacity.toNat :=
    ⟨s.stAvail, exec_availableCount_of_constructed hs, hinv.stAvail_add_length⟩
  exact ⟨exec_isEmpty_of_constructed hs, exec_count_of_constructed hs, havail,
    exec_isPeekEmpty_of_constructed hs⟩

end Sys2Proof.Machine

/-!
PROOFS. What ends a command without success (60_exceptions.md): malformed words, the steps in which the
controller waits, and the rejections, said once as the conditions of each status other than `OK` and as
what a command can answer when none of them holds.
-/

namespace Sys2Proof.Machine

/-- Settles O18: from a well-formed state every step answers a next state. -/
theorem noStepStopsTheController : Obligations.NoStepStopsTheController := by
  unfold Obligations.NoStepStopsTheController
  intro s h
  obtain ⟨t, e, -⟩ := step_wellFormed h
  exact ⟨t, e⟩

/-! ## The steps that run no command (rules R209 and R216) -/

section
variable {s : State}

theorem step_of_takesCommand (h : TakesCommand s) : step s = acceptCommand s.takeResponse := by
  obtain ⟨hr, hw, hh⟩ := h
  simp [step, stepPorts, hr, hw, hh]

theorem step_of_responseHeld (hr : s.rst = false) (hw : s.work = none)
    (hh : s.responseHeld = true) : step s = .next s := by
  simp [step, stepPorts, hr, hw, hh]

theorem acceptCommand_nil (h : s.cmds = []) : acceptCommand s = .next s := by
  rw [acceptCommand, h]

theorem acceptCommand_cons {word : CmdWord} {rest : List CmdWord} (h : s.cmds = word :: rest) :
    acceptCommand s = runWord word { s with cmds := rest } := by
  rw [acceptCommand, h]

theorem runWord_of_malformed {word : CmdWord} (h : ¬wellFormedWord word = true) :
    runWord word s = reject (opField word) .invalidArgument s := by
  rw [runWord, decode_of_malformed h]

/-- The step that accepts a malformed word. -/
theorem step_of_malformed {word : CmdWord} {rest : List CmdWord} (h : TakesCommand s)
    (hcmds : s.cmds = word :: rest) (hwf : ¬wellFormedWord word = true) :
    step s = reject (opField word) .invalidArgument (s.accepted rest) := by
  rw [step_of_takesCommand h, acceptCommand_cons (s := s.takeResponse) hcmds,
    runWord_of_malformed hwf]
  rfl

end

/-- Settles O7: the word has a bad fixed bit, so it is no command. -/
theorem malformedWordIsAnsweredAndChangesNothing :
    Obligations.MalformedWordIsAnsweredAndChangesNothing := by
  unfold Obligations.MalformedWordIsAnsweredAndChangesNothing
  intro s word rest h hcmds hbits
  exact step_of_malformed h hcmds (mt (wellFormedWord_iff word).1 hbits)

/-- Settles O11: with no word to accept only the response is taken, and a held response is not. -/
theorem controllerHoldsItsStateWhileItWaits : Obligations.ControllerHoldsItsStateWhileItWaits := by
  unfold Obligations.ControllerHoldsItsStateWhileItWaits
  refine ⟨fun s h hcmds => ?_, fun s hr hw hrsp hready => ⟨?_, ?_⟩⟩
  · rw [step_of_takesCommand h, acceptCommand_nil (s := s.takeResponse) hcmds]
    rfl
  · exact step_of_responseHeld hr hw (by simp [State.responseHeld, hrsp, hready])
  · have hnone : s.rsp.isNone = false := by simpa [Option.isSome_iff_ne_none] using hrsp
    rw [State.cmdReady, hnone, Bool.and_false]

/-! ## The conditions for a rejection (rule R200) -/

/-- The rows of rule R200 for the commands: when a command is answered with this status, if it is not
`OK`. -/
def RejectedWith (i : Instr) (s : State) : Status → Prop
  | .ok => False
  | .invalidArgument =>
    (s.constructed = false ∧ ∀ bufPresent ovw capacity, i ≠ .construct bufPresent ovw capacity) ∨
    (∃ ovw capacity, i = .construct false ovw capacity) ∨
    (∃ bufPresent ovw, i = .construct bufPresent ovw 0#16) ∨
    (∃ len, i = .popBytes false len ∨ i = .peekBytes false len ∨ i = .pushBytes false len) ∨
    (∃ count, i = .restorePeekOffset count ∧ s.length.toNat < count.toNat)
  | .full => s.constructed = true ∧ s.isFull = true ∧ s.overwriteEnabled = false ∧ ∃ b, i = .pushByte b
  | .empty => s.constructed = true ∧
      ((i = .popByte ∧ s.length = 0#16) ∨ (i = .peekByte ∧ s.peekLength = 0#16))

/-- The row of the bulk commands (60_exceptions.md rule R208, step 3). -/
theorem rejectedWith_of_absent_buffer {i : Instr} {s : State} {bufPresent : Bool} {len : Idx}
    (hi : i = .popBytes bufPresent len ∨ i = .peekBytes bufPresent len ∨ i = .pushBytes bufPresent len)
    (hb : bufPresent = false) : RejectedWith i s .invalidArgument := by
  subst hb
  exact .inr (.inr (.inr (.inl ⟨len, hi⟩)))

/-- Every command but CONSTRUCT checks `constructed` before anything else (rule R208). -/
theorem exec_of_unconstructed {i : Instr} {s : State} (hs : s.constructed = false)
    (hi : ∀ bufPresent ovw capacity, i ≠ .construct bufPresent ovw capacity) :
    exec i s = reject i.opcode .invalidArgument s := by
  cases i with
  | construct bufPresent ovw capacity => exact absurd rfl (hi bufPresent ovw capacity)
  | _ => exact whenConstructed_false hs

/-- Settles O30. -/
theorem unconstructedRejectsAllButConstruct : Obligations.UnconstructedRejectsAllButConstruct := by
  unfold Obligations.UnconstructedRejectsAllButConstruct
  exact fun i s hs hi => exec_of_unconstructed hs hi

/-- Each condition is enough: it is the first check that fails, or those before it answer alike. -/
theorem exec_of_rejectedWith {i : Instr} {s : State} {st : Status} (h : RejectedWith i s st) :
    exec i s = reject i.opcode st s := by
  cases st with
  | ok => exact h.elim
  | invalidArgument =>
    rcases h with ⟨hs, hi⟩ | ⟨ovw, capacity, rfl⟩ | ⟨bufPresent, ovw, rfl⟩ | ⟨len, rfl | rfl | rfl⟩ |
      ⟨count, rfl, hlt⟩
    · exact exec_of_unconstructed hs hi
    · exact exec_construct_of_fails (.inl rfl)
    · exact exec_construct_of_fails (.inr rfl)
    · exact exec_popBytes_of_fails (.inr rfl)
    · exact whenConstructed_whenBuffer_of_fails (.inr rfl)
    · exact whenConstructed_whenBuffer_of_fails (.inr rfl)
    · exact exec_restorePeekOffset_of_fails (.inr hlt)
  | full =>
    obtain ⟨hs, hfull, hovw, byte, rfl⟩ := h
    exact exec_pushByte_of_full hs (by simp [hfull, hovw])
  | empty =>
    rcases h with ⟨hs, ⟨rfl, hz⟩ | ⟨rfl, hz⟩⟩
    · exact exec_popByte_of_isEmpty hs (beq_iff_eq.2 hz)
    · exact exec_peekByte_of_isPeekEmpty hs (beq_iff_eq.2 hz)

/-! ## The answers when no condition holds -/

/-- If the outcome is a next state, it responds with `OK`, or the response of `s` still stands. -/
def AnswersOk (op : BitVec 4) (s : State) (o : Host.Outcome State Fault Refusal) : Prop :=
  ∀ t, o = .next t → t.rsp = s.rsp ∨ ∃ v, t.rsp = some (responseWord op .ok v)

namespace AnswersOk

variable {op : BitVec 4} {s s' : State} {k : Host.Outcome State Fault Refusal}

theorem respondOk {v : Idx} : AnswersOk op s (respondOk op v s') := by
  rintro t ⟨⟩
  exact .inr ⟨v, rfl⟩

theorem requireCells {cells : List Nat} (hk : AnswersOk op s k) :
    AnswersOk op s (requireCells cells s k) :=
  fun t h => hk t (requireCells_next h).2

theorem ite {p : Prop} [Decidable p] {k' : Host.Outcome State Fault Refusal} (hk : AnswersOk op s k)
    (hk' : AnswersOk op s k') : AnswersOk op s (if p then k else k') := by
  split
  · exact hk
  · exact hk'

/-- A bulk command responds with `OK` when it completes, and not at all while it waits. -/
theorem advance {w : Work} (hop : w.cmd.opcode = op) : AnswersOk op s (advance w s) := by
  subst hop
  rcases advance_cases w s with ⟨i, -, -, e⟩ | ⟨-, -, e⟩ | ⟨-, -, e⟩ <;> rw [e]
  · rintro t ⟨⟩
  · rintro t ⟨⟩
    exact .inr ⟨_, w.commit_rsp _⟩
  · rintro t ⟨⟩
    exact .inl (w.moveBytes_rsp _ s)

end AnswersOk

/-- `Checked i s o`: the outcome is a rejection for one of the reasons that rule R200 lists, or no
rejection at all. -/
inductive Checked (i : Instr) (s : State) : Host.Outcome State Fault Refusal → Prop where
  | rejected {st : Status} (h : RejectedWith i s st) : Checked i s (reject i.opcode st s)
  | passed {o : Host.Outcome State Fault Refusal} (h : AnswersOk i.opcode s o) : Checked i s o

namespace Checked

variable {i : Instr} {s : State} {st : Status} {k : Host.Outcome State Fault Refusal}

theorem ite {p : Prop} [Decidable p] (hbad : p → RejectedWith i s st) (hk : Checked i s k) :
    Checked i s (if p then reject i.opcode st s else k) := by
  split
  · exact rejected (hbad ‹_›)
  · exact hk

theorem whenConstructed (hs : s.constructed = true) (hk : Checked i s k) :
    Checked i s (whenConstructed i.opcode s k) := by
  rwa [whenConstructed_true hs]

theorem whenBuffer {bufPresent : Bool} (hbad : bufPresent = false → RejectedWith i s .invalidArgument)
    (hk : Checked i s k) : Checked i s (whenBuffer i.opcode bufPresent s k) := by
  cases bufPresent with
  | false => exact rejected (hbad rfl)
  | true => exact hk

theorem construct (bufPresent ovw : Bool) (capacity : Idx) (s : State) :
    Checked (.construct bufPresent ovw capacity) s (exec (.construct bufPresent ovw capacity) s) := by
  refine whenBuffer (fun hb => ?_) (ite (st := .invalidArgument) (fun hc => ?_) (passed .respondOk))
  · exact .inr (.inl ⟨ovw, capacity, by rw [hb]⟩)
  · exact .inr (.inr (.inl ⟨bufPresent, ovw, by rw [hc]⟩))

/-- The checks after that of `constructed`, and what stands behind them. -/
theorem of_constructed (hs : s.constructed = true) : Checked i s (exec i s) := by
  cases i with
  | construct bufPresent ovw capacity => exact construct bufPresent ovw capacity s
  | reset => exact whenConstructed hs (passed .respondOk)
  | pushByte byte =>
    refine whenConstructed hs (ite (st := .full) (fun hf => ?_) (passed (.requireCells .respondOk)))
    obtain ⟨hfull, hovw⟩ : s.isFull = true ∧ s.overwriteEnabled = false := by simpa using hf
    exact ⟨hs, hfull, hovw, byte, rfl⟩
  | pushBytes bufPresent len =>
    exact whenConstructed hs (whenBuffer (rejectedWith_of_absent_buffer (.inr (.inr rfl)))
      (passed (.advance rfl)))
  | popByte =>
    exact whenConstructed hs (ite (st := .empty) (fun he => ⟨hs, .inl ⟨rfl, beq_iff_eq.1 he⟩⟩)
      (passed (.requireCells .respondOk)))
  | popBytes bufPresent len =>
    exact whenConstructed hs (whenBuffer (rejectedWith_of_absent_buffer (.inl rfl))
      (passed (.ite .respondOk (.advance rfl))))
  | peekByte =>
    exact whenConstructed hs (ite (st := .empty) (fun he => ⟨hs, .inr ⟨rfl, beq_iff_eq.1 he⟩⟩)
      (passed (.requireCells .respondOk)))
  | peekBytes bufPresent len =>
    exact whenConstructed hs (whenBuffer (rejectedWith_of_absent_buffer (.inr (.inl rfl)))
      (passed (.ite .respondOk (.advance rfl))))
  | restorePeekOffset count =>
    exact whenConstructed hs (ite (st := .invalidArgument)
      (fun hlt => .inr (.inr (.inr (.inr ⟨count, rfl, hlt⟩)))) (passed .respondOk))
  | _ => exact whenConstructed hs (passed .respondOk)

theorem of_exec (i : Instr) (s : State) : Checked i s (exec i s) := by
  cases hs : s.constructed with
  | true => exact of_constructed hs
  | false =>
    by_cases hi : ∀ bufPresent ovw capacity, i ≠ .construct bufPresent ovw capacity
    · rw [exec_of_unconstructed hs hi]
      exact rejected (.inl ⟨hs, hi⟩)
    · push Not at hi
      obtain ⟨bufPresent, ovw, capacity, rfl⟩ := hi
      exact construct bufPresent ovw capacity s

end Checked

/-! ## Responses other than `OK` (rules R200 and R207) -/

theorem Status.code_injective : Function.Injective Status.code := by
  intro st st' h
  cases st <;> cases st' <;> simp [Status.code] at h ⊢

theorem responseWord_inj {op : BitVec 4} {st st' : Status} {v v' : Idx}
    (h : responseWord op st v = responseWord op st' v') : st = st' ∧ v = v' := by
  constructor
  · apply Status.code_injective
    rw [← responseWord_status op st v, h, responseWord_status]
  · rw [← responseWord_value op st v, h, responseWord_value]

/-- A status other than `OK` comes from a rejection, for its reason, and the rejection is all that has
happened. -/
theorem rejected_of_rsp {i : Instr} {s t : State} {st : Status} {v : Idx} (hr : s.rsp = none)
    (e : exec i s = .next t) (hrsp : t.rsp = some (responseWord i.opcode st v)) (hst : st ≠ .ok) :
    RejectedWith i s st ∧ v = 0#16 ∧ t = s.respond i.opcode st 0#16 := by
  have hc := Checked.of_exec i s
  rw [e] at hc
  generalize ho : Host.Outcome.next t = o at hc
  cases hc with
  | rejected h =>
    cases ho
    obtain ⟨rfl, rfl⟩ := responseWord_inj (Option.some.inj hrsp)
    exact ⟨h, rfl, rfl⟩
  | passed h =>
    rcases h t ho.symm with hkept | ⟨v', hok⟩
    · cases hrsp.symm.trans (hkept.trans hr)
    · exact absurd (responseWord_inj (Option.some.inj (hrsp.symm.trans hok))).1 hst

/-- Settles O28. -/
theorem nonOkResponseChangesNothing : Obligations.NonOkResponseChangesNothing := by
  unfold Obligations.NonOkResponseChangesNothing
  intro i s t st v hr e hrsp hst
  obtain ⟨-, hv, rfl⟩ := rejected_of_rsp hr e hrsp hst
  exact ⟨hv, rfl, fun _ => rfl⟩

/-- The conditions are exact: enough, and the only ones. -/
theorem exec_eq_reject_iff {i : Instr} {s : State} {st : Status} (hr : s.rsp = none) (hst : st ≠ .ok) :
    exec i s = reject i.opcode st s ↔ RejectedWith i s st :=
  ⟨fun e => (rejected_of_rsp hr e rfl hst).1, exec_of_rejectedWith⟩

/-- Settles O29: the rows of each status, the frame of every rejection, and the malformed word. -/
theorem nonOkStatusesHaveTheirConditions : Obligations.NonOkStatusesHaveTheirConditions := by
  unfold Obligations.NonOkStatusesHaveTheirConditions
  refine ⟨fun i s _ hr => ⟨exec_eq_reject_iff hr (by decide), exec_eq_reject_iff hr (by decide),
    exec_eq_reject_iff hr (by decide), fun t st v e hrsp hst => ?_⟩, fun s word rest h hcmds hwf => ?_⟩
  · obtain ⟨hv, ht, -⟩ := nonOkResponseChangesNothing i s t st v hr e hrsp hst
    exact ⟨hv, ht⟩
  · exact step_of_malformed h hcmds (by simp [hwf])

end Sys2Proof.Machine

/-!
PROOFS. Hardware reset and withheld streams (70_reset_and_hazards.md rules R230 and R244), and the end of a
run of two contexts (rule R234).
-/

namespace Sys2Proof.Machine

/-! ## Hardware reset -/

/-- While `rst` is 1 the controller offers nothing and takes nothing. -/
theorem State.ports_of_rst {s : State} (hr : s.rst = true) :
    s.cmdReady = false ∧ s.rspOffered = none ∧ s.dinReady = false ∧ s.doutOffered = none := by
  simp [State.cmdReady, State.rspOffered, State.dinReady, State.doutOffered, hr]

theorem step_of_rst {s : State} (hr : s.rst = true) : step s = .next s.hardwareReset := by
  simp [step, stepPorts, hr]

/-- Settles O10: the step is the hardware reset, whatever is in progress. -/
theorem hardwareResetAbandonsTheCommand : Obligations.HardwareResetAbandonsTheCommand := by
  unfold Obligations.HardwareResetAbandonsTheCommand
  exact fun s hr => ⟨step_of_rst hr, State.ports_of_rst hr⟩

/-! ## A withheld stream -/

/-- The stream that a command in progress waits for offers no byte, or takes none. -/
theorem Work.beatsNow_of_withheld {w : Work} {s : State}
    (hin : w.direction = .toStorage → s.din = [])
    (hout : w.direction = .fromStorage → s.doutLimit = some 0) : w.beatsNow s = 0 := by
  cases hd : w.direction with
  | toStorage => simp [Work.beatsNow, hd, hin hd]
  | fromStorage => simp [Work.beatsNow, hd, hout hd]

/-- A command that waits has performed every access that is due before its next beat. -/
theorem Work.afterBeats_zero {w : Work} (hlt : w.beat < w.n) (hacc : w.accesses = w.accessesWaiting) :
    w.afterBeats 0 = w := by
  obtain ⟨cmd, direction, n, e, segments, beat, accesses, cursors⟩ := w
  cases direction with
  | toStorage =>
    obtain rfl : accesses = beat := hacc
    rfl
  | fromStorage =>
    obtain rfl : accesses = beat + 1 := hacc
    have hle : beat + 1 ≤ n := hlt
    simp [Work.afterBeats, hle]

/-- So no byte moves without a beat. -/
theorem Work.moveBytes_zero {w : Work} (h : w.afterBeats 0 = w) (s : State) : w.moveBytes 0 s = s := by
  cases hd : w.direction with
  | toStorage => simp [Work.moveBytes, hd, State.writeCells]
  | fromStorage => simp [Work.moveBytes, hd, h, State.readCells]

/-- Settles O12: the step goes on with the command, and does no beat and no access. -/
theorem withheldStreamHoldsTheCommand : Obligations.WithheldStreamHoldsTheCommand := by
  unfold Obligations.WithheldStreamHoldsTheCommand
  intro s w hinv hr hw hin hout
  obtain ⟨hs, -, hlt, hacc, hplan⟩ := workInv_iff.1 (hinv.workInv hw)
  have hcells : ∀ i ∈ w.cells, i < s.capacity.toNat :=
    (planOf_wellFormed (hinv.cursorInv hs) hplan).1
  have hsame : w.afterBeats 0 = w := Work.afterBeats_zero hlt hacc
  refine ⟨?_, by simp [State.cmdReady, hw]⟩
  rw [step_of_work hr hw, advance_eq hcells, Work.beatsNow_of_withheld hin hout, Work.after,
    Nat.add_zero, if_neg hlt.ne, Work.moveBytes_zero hsame, hsame, ← hw]

/-! ## Runs of two contexts -/

/-- The arbitration adds no command of its own. -/
theorem Merge.mem_or_mem {α : Type} {xs ys zs : List α} (h : Merge xs ys zs) :
    ∀ z ∈ zs, z ∈ xs ∨ z ∈ ys := by
  induction h with
  | done => simp
  | left _ ih =>
    exact List.forall_mem_cons.2
      ⟨.inl List.mem_cons_self, fun z hz => (ih z hz).imp_left (List.mem_cons_of_mem _)⟩
  | right _ ih =>
    exact List.forall_mem_cons.2
      ⟨.inr List.mem_cons_self, fun z hz => (ih z hz).imp_right (List.mem_cons_of_mem _)⟩

/-- From a launch state a well-formed command of a run completes with one response, and the state it
leaves may start another run. -/
theorem runCommand_responds {c : Command} {s : State} (h : Launch s) (hc : c.wellFormed = true) :
    ∃ t, runCommand c s = .next t ∧ Launch t ∧
      Responds c.instr.opcode ((presentCommand c s).accepted []) t := by
  have haccepted : Launch ((presentCommand c s).accepted []) := h.congr rfl rfl rfl rfl rfl h.2
  have hserve : ((presentCommand c s).accepted []).streamsServe c.instr = true :=
    ((presentCommand c s).streamsServe_accepted [] c.instr).trans (streamsServe_presentCommand hc s)
  obtain ⟨t, e, hinv⟩ := exec_wellFormed haccepted rfl c.instr
  obtain ⟨t', e', hdone⟩ := exec_responds haccepted hserve
  cases e.symm.trans e'
  exact ⟨t, (runCommand_eq c s hc h.2 (decode_encode _)).trans e, ⟨hinv, hdone.work_eq⟩, hdone⟩

/-- By induction on the commands: each takes the response before it and leaves its own, and the end of the
run takes the last. -/
theorem runProgram_ends (cs : List Command) {s : State} (hcs : ∀ c ∈ cs, c.wellFormed = true)
    (h : Launch s) :
    ∃ t words, runProgram cs s = .next t ∧ t.runEnded = true ∧ t.cmdReady = true ∧ Launch t ∧
      t.rspLog = s.rspLog ++ s.rsp.toList ++ words ∧
      words.map (fun word => word.extractLsb' 28 4) = cs.map (fun c => c.instr.opcode) := by
  induction cs generalizing s with
  | nil =>
    have e := endRun_eq s h.2
    obtain ⟨hended, hready, hlog, -⟩ := runEnded_of_endRun h.2 e
    exact ⟨_, [], e, hended, hready, h.congr rfl rfl rfl rfl rfl h.2,
      hlog.trans (List.append_nil _).symm, rfl⟩
  | cons c cs ih =>
    obtain ⟨hc, hcs⟩ := List.forall_mem_cons.1 hcs
    obtain ⟨t, e, ht, -, -, hlog, st, v, hrsp⟩ := runCommand_responds h hc
    obtain ⟨u, words, e', hended, hready, hu, hulog, hops⟩ := ih hcs ht
    refine ⟨u, responseWord c.instr.opcode st v :: words, (runProgram_cons e).trans e', hended, hready,
      hu, ?_, ?_⟩
    · rw [hulog, hlog, hrsp, Option.toList_some, List.append_assoc, List.singleton_append]
      rfl
    · rw [List.map_cons, List.map_cons, hops, responseWord_op]

/-- Settles O23: a merge holds commands of the two contexts alone, so its run ends. -/
theorem runsEndWithEveryResponseTaken : Obligations.RunsEndWithEveryResponseTaken := by
  unfold Obligations.RunsEndWithEveryResponseTaken
  refine ⟨⟨resetStateIsWellFormed.1, rfl⟩, fun producer consumer cs s hp hq hmerge h => ?_⟩
  have hcs : ∀ c ∈ cs, c.wellFormed = true := fun c hc => (hmerge.mem_or_mem c hc).elim (hp c) (hq c)
  obtain ⟨t, words, e, hend⟩ := runProgram_ends cs hcs h
  exact ⟨t, words, e, ⟨cs, hmerge, e⟩, hend⟩

end Sys2Proof.Machine
